-- ==== Sys2Proof/Word.lean ====
section
/-! DEFINITION. The word types of ZPCORE: 32-bit registers and host words, 16-bit symbols and arena
indices, 8-bit bitstream bytes (spec/00_scope.md R4, R9: every value is an unsigned number). -/

namespace Sys2Proof

/-- A register, a host data word, a host word address, a command word, a count (`REGW = CNTW = 32`, R4). -/
abbrev Word := BitVec 32

/-- One element of a symbol buffer (`SYMW = 16`, R4). -/
abbrev Sym := BitVec 16

/-- One byte of the bitstream memory (spec/10_state.md R42). -/
abbrev Byte := BitVec 8

/-- An arena index, or `NIL` (spec/10_state.md R45: 16 bits each). -/
abbrev Ptr := BitVec 16

/-- A codeword or a stretch of the bitstream, first-produced bit first (spec/10_state.md R46). -/
abbrev Bits := List Bool

end Sys2Proof
end

