-- ==== Sys2Proof/Config.lean ====
section
/-! DEFINITION. The implementation parameters (spec/00_scope.md R4) as one record, the value this
hardware takes, and the constraints between them (R5). Nothing is left free by the spec: there is no
uninterpreted constant here. -/

namespace Sys2Proof

/-- The nine parameters of spec/00_scope.md R4, under the spec's names. -/
structure Config where
  /-- `SYMW`: width in bits of a symbol, rank or token. -/
  symw : Nat
  /-- `NMAX`: elements of each symbol buffer. -/
  nmax : Nat
  /-- `AMAX`: largest alphabet size; entries of `FREQ` and `CODE`. -/
  amax : Nat
  /-- `BMAX`: bytes of the bitstream memory. -/
  bmax : Nat
  /-- `CNTW`: width in bits of an occurrence count and of a queue key. -/
  cntw : Nat
  /-- `REGW`: width in bits of a register and of the host data word. -/
  regw : Nat
  /-- `HEAPMAX`: capacity of the priority queue. -/
  heapmax : Nat
  /-- `NODEMAX`: capacity of the node arena. -/
  nodemax : Nat
  /-- `NIL`: the node index that means "no node". -/
  nil : Nat
  deriving DecidableEq, Repr

/-- spec/00_scope.md R5: what the parameters satisfy. -/
abbrev Config.Ok (c : Config) : Prop :=
  2 ≤ c.amax ∧ c.amax ≤ 2 ^ c.symw ∧ 32 ≤ c.nmax ∧ c.nmax ≤ 2 ^ 16 ∧ 1 ≤ c.bmax ∧ c.bmax ≤ 2 ^ 16 ∧
  c.cntw = 32 ∧ c.regw = 32 ∧ c.heapmax = c.amax ∧ c.nodemax = 2 * c.amax - 1 ∧ c.nodemax < c.nil ∧
  8 * c.nodemax ≤ 2 ^ 16 ∧ 4 * c.amax ≤ 2 ^ 16 ∧ 2 * c.heapmax ≤ 2 ^ 16

/-- The values this hardware takes (spec/00_scope.md R4, column "value"). Reset does not change them (R282). -/
def cfg : Config where
  symw := 16
  nmax := 4096
  amax := 512
  bmax := 16384
  cntw := 32
  regw := 32
  heapmax := 512
  nodemax := 1023
  nil := 0xFFFF

end Sys2Proof
end

