-- ==== Sys2Proof/Syntax.lean ====
section
/-! DEFINITION. The sixteen commands (spec/30_encoding.md R92), one constructor per row of
spec/opcode_table.json; the fields of a command word (R91); the registers' names (spec/10_state.md
section 2); the places a host address can name (spec/20_memory.md R62); the host's transactions (R100). -/

namespace Sys2Proof

/-- The buffer select `b` of a command word (spec/30_encoding.md R93). -/
inductive Bsel where
  | b0
  | b1
  deriving DecidableEq, Repr

/-- The sixteen commands (spec/30_encoding.md R92). `b` is carried by the eleven that use a symbol buffer. -/
inductive Instr where
  /-- `BWT.ENC b` (R120) -/
  | bwtEnc (b : Bsel)
  /-- `BWT.DEC b` (R126) -/
  | bwtDec (b : Bsel)
  /-- `MTF.ENC b` (R144) -/
  | mtfEnc (b : Bsel)
  /-- `MTF.DEC b` (R146) -/
  | mtfDec (b : Bsel)
  /-- `ZRL.ENC b` (R162) -/
  | zrlEnc (b : Bsel)
  /-- `ZRL.DEC b` (R165) -/
  | zrlDec (b : Bsel)
  /-- `BIJ.ENC b` (R170) -/
  | bijEnc (b : Bsel)
  /-- `BIJ.DEC b` (R172) -/
  | bijDec (b : Bsel)
  /-- `PQ.CLR` (R190) -/
  | pqClr
  /-- `PQ.INS` (R192) -/
  | pqIns
  /-- `PQ.EXT` (R194) -/
  | pqExt
  /-- `HUF.CNT b` (R210) -/
  | hufCnt (b : Bsel)
  /-- `HUF.BLD` (R213) -/
  | hufBld
  /-- `HUF.TAB` (R220) -/
  | hufTab
  /-- `HUF.ENC b` (R225) -/
  | hufEnc (b : Bsel)
  /-- `HUF.DEC b` (R230) -/
  | hufDec (b : Bsel)
  deriving DecidableEq, Repr

/-- The three fields of format `C` (spec/30_encoding.md R91): `rsv` is bits 31:9, `b` is bit 8, `op` is bits 7:0. -/
structure CmdFields where
  rsv : Nat
  b : Nat
  op : Nat
  deriving DecidableEq, Repr

/-- The 21 registers (spec/10_state.md section 2), in the order of their indices. -/
inductive Reg where
  | cmd | ctrl | status | err | errinfo | errcmd
  | asize | eob | dig1 | dig2
  | len0 | len1 | bslen | mpos
  | arg0 | arg1 | res0 | res1 | hsize | nnode | root
  deriving DecidableEq, Repr

/-- A register's host access (spec/10_state.md section 2). -/
inductive Access where
  /-- the host reads and writes it -/
  | rw
  /-- the host reads it; a host write is ignored -/
  | ro
  /-- a port: the host writes it; a host read returns 0 -/
  | wo
  deriving DecidableEq, Repr

/-- What a host address names (spec/20_memory.md R62). The index of a memory is the word index in its space. -/
inductive Place where
  | reg (r : Reg)
  | buf (b : Bsel) (i : Nat)
  | bs (i : Nat)
  | freq (i : Nat)
  | heap (i : Nat)
  | node (i : Nat)
  | code (i : Nat)
  /-- no register and no element: reads as 0, ignores writes (R66) -/
  | unmapped
  deriving DecidableEq, Repr

/-- One host transaction (spec/20_memory.md R63, R64; spec/30_encoding.md R100). -/
inductive Transaction where
  /-- `MemRead(a)` -/
  | read (a : Word)
  /-- `MemWrite(a, v)` -/
  | write (a v : Word)
  deriving DecidableEq, Repr

end Sys2Proof
end

