-- ==== Sys2Proof/WellFormed.lean ====
section
/-! DEFINITION. When the fields of a command word are one of the sixteen commands
(spec/30_encoding.md R92, R94): three checks, one per ground on which R94 calls a word illegal. -/

namespace Sys2Proof

/-- `op` of a command (spec/30_encoding.md R92). -/
def Instr.opcode : Instr → Nat
  | .bwtEnc _ => 0x10
  | .bwtDec _ => 0x11
  | .mtfEnc _ => 0x20
  | .mtfDec _ => 0x21
  | .zrlEnc _ => 0x30
  | .zrlDec _ => 0x31
  | .bijEnc _ => 0x32
  | .bijDec _ => 0x33
  | .pqClr => 0x40
  | .pqIns => 0x41
  | .pqExt => 0x42
  | .hufCnt _ => 0x50
  | .hufBld => 0x51
  | .hufTab => 0x52
  | .hufEnc _ => 0x53
  | .hufDec _ => 0x54

/-- The buffer a command selects; none for the five that use no symbol buffer (spec/30_encoding.md R93). -/
def Instr.select : Instr → Option Bsel
  | .bwtEnc b | .bwtDec b | .mtfEnc b | .mtfDec b | .zrlEnc b | .zrlDec b | .bijEnc b | .bijDec b
  | .hufCnt b | .hufEnc b | .hufDec b => some b
  | .pqClr | .pqIns | .pqExt | .hufBld | .hufTab => none

/-- The value of the one-bit field `b` (spec/30_encoding.md R91). -/
def Bsel.bit : Bsel → Nat
  | .b0 => 0
  | .b1 => 1

/-- The eleven opcodes that use `b` (spec/30_encoding.md R92). -/
def selectOpcodes : List Nat :=
  [0x10, 0x11, 0x20, 0x21, 0x30, 0x31, 0x32, 0x33, 0x50, 0x53, 0x54]

/-- The five opcodes whose `b` must be 0 (spec/30_encoding.md R94). -/
def plainOpcodes : List Nat := [0x40, 0x41, 0x42, 0x51, 0x52]

/-- spec/30_encoding.md R91: bits 31:9 are reserved and must be 0. -/
def CmdFields.rsvOk (f : CmdFields) : Bool := f.rsv == 0

/-- spec/30_encoding.md R94: `op` is one of the sixteen opcodes. -/
def CmdFields.opOk (f : CmdFields) : Bool := selectOpcodes.contains f.op || plainOpcodes.contains f.op

/-- spec/30_encoding.md R94: `b` is one bit, and 0 in the commands that use no symbol buffer. -/
def CmdFields.selectOk (f : CmdFields) : Bool :=
  f.b == 0 || (f.b == 1 && !plainOpcodes.contains f.op)

/-- The fields are those of a command (spec/30_encoding.md R94: otherwise the word is illegal). -/
def CmdFields.wellFormed (f : CmdFields) : Bool := f.rsvOk && f.opOk && f.selectOk

/-- The fields of a command's word (spec/30_encoding.md R91, R98: the word is `op + 256 * b`). -/
def Instr.fields (i : Instr) : CmdFields where
  rsv := 0
  b := (i.select.map Bsel.bit).getD 0
  op := i.opcode

/-- A command is well formed when its fields are; every term of `Instr` is (Laws/PerInstr.lean). -/
def Instr.wellFormed (i : Instr) : Bool := i.fields.wellFormed

end Sys2Proof
end

