-- ==== Sys2Proof/Decode.lean ====
section
/-! DEFINITION. The command decoder, total on every 32-bit word and rejecting by name, and after it the
encoder (spec/30_encoding.md R90 to R97). A command is the data word of one write of `CMD`; it is never
fetched from a memory and has no byte order (R78, R72). -/

namespace Sys2Proof

/-- `w[hi:lo]`, a number (spec/00_scope.md R10). -/
def bitField (w : Word) (hi lo : Nat) : Nat := w.toNat / 2 ^ lo % 2 ^ (hi - lo + 1)

/-- On which ground of spec/30_encoding.md R94 a word is no command. -/
inductive Illegal where
  /-- `w[31:9] != 0` -/
  | reservedBits
  /-- `w[7:0]` is not one of the sixteen opcodes -/
  | unknownOpcode
  /-- `w[8] = 1` in a command that uses no symbol buffer -/
  | selectSet
  deriving DecidableEq, Repr

/-- The fields of a word (spec/30_encoding.md R91). -/
def splitWord (w : Word) : CmdFields where
  rsv := bitField w 31 9
  b := bitField w 8 8
  op := bitField w 7 0

/-- The buffer named by the value of bit 8 (spec/30_encoding.md R93). -/
def selectOfBit (n : Nat) : Bsel := if n = 0 then .b0 else .b1

/-- A command that uses no symbol buffer requires `b = 0` (spec/30_encoding.md R93, R94). -/
def plainCommand (b : Nat) (i : Instr) : Except Illegal Instr :=
  if b = 0 then .ok i else .error .selectSet

/-- The row of the table an opcode selects (spec/30_encoding.md R92). -/
def commandOf (op b : Nat) : Except Illegal Instr :=
  match op with
  | 0x10 => .ok (.bwtEnc (selectOfBit b))
  | 0x11 => .ok (.bwtDec (selectOfBit b))
  | 0x20 => .ok (.mtfEnc (selectOfBit b))
  | 0x21 => .ok (.mtfDec (selectOfBit b))
  | 0x30 => .ok (.zrlEnc (selectOfBit b))
  | 0x31 => .ok (.zrlDec (selectOfBit b))
  | 0x32 => .ok (.bijEnc (selectOfBit b))
  | 0x33 => .ok (.bijDec (selectOfBit b))
  | 0x40 => plainCommand b .pqClr
  | 0x41 => plainCommand b .pqIns
  | 0x42 => plainCommand b .pqExt
  | 0x50 => .ok (.hufCnt (selectOfBit b))
  | 0x51 => plainCommand b .hufBld
  | 0x52 => plainCommand b .hufTab
  | 0x53 => .ok (.hufEnc (selectOfBit b))
  | 0x54 => .ok (.hufDec (selectOfBit b))
  | _ => .error .unknownOpcode

/-- The decoder: it reads nothing but the word (spec/30_encoding.md R97). -/
def decode (w : Word) : Except Illegal Instr :=
  let f := splitWord w
  if f.rsv = 0 then commandOf f.op f.b else .error .reservedBits

/-- The encoder: the word of a command is `op + 256 * b` (spec/30_encoding.md R98). -/
def encode (i : Instr) : Word :=
  BitVec.ofNat 32 (i.fields.rsv * 512 + i.fields.b * 256 + i.fields.op)

/-- The column `match` of the command's row (spec/30_encoding.md R92). -/
def Instr.rowMatch (i : Instr) : Word := BitVec.ofNat 32 i.opcode

/-- The column `mask` of the command's row (spec/30_encoding.md R92). -/
def Instr.rowMask (i : Instr) : Word := if i.select.isSome then 0xFFFFFEFF#32 else 0xFFFFFFFF#32

/-- The mnemonic of a command (spec/30_encoding.md R92). -/
def Instr.mnemonic : Instr → String
  | .bwtEnc _ => "BWT.ENC"
  | .bwtDec _ => "BWT.DEC"
  | .mtfEnc _ => "MTF.ENC"
  | .mtfDec _ => "MTF.DEC"
  | .zrlEnc _ => "ZRL.ENC"
  | .zrlDec _ => "ZRL.DEC"
  | .bijEnc _ => "BIJ.ENC"
  | .bijDec _ => "BIJ.DEC"
  | .pqClr => "PQ.CLR"
  | .pqIns => "PQ.INS"
  | .pqExt => "PQ.EXT"
  | .hufCnt _ => "HUF.CNT"
  | .hufBld => "HUF.BLD"
  | .hufTab => "HUF.TAB"
  | .hufEnc _ => "HUF.ENC"
  | .hufDec _ => "HUF.DEC"

/-- A command as it is written in upper case: its mnemonic, then `b` when it uses `b` (spec/30_encoding.md R98). -/
def Instr.written (i : Instr) : String :=
  match i.select with
  | some .b0 => i.mnemonic ++ " 0"
  | some .b1 => i.mnemonic ++ " 1"
  | none => i.mnemonic

/-- What the decoder reads from the table's word of `nbits` bits, the bits above being 0. A command is exactly
one 32-bit word, so a longer one is none. -/
def decodeTableWord (nbits w : Nat) : Option Instr :=
  let v := w % 2 ^ nbits
  if v < 2 ^ 32 then
    match decode (BitVec.ofNat 32 v) with
    | .ok i => some i
    | .error _ => none
  else none

end Sys2Proof
end

