-- ==== Sys2Proof/Machine/State.lean ====
section
/-! DEFINITION. The state of ZPCORE (spec/10_state.md R20 to R50) with the host's pending transactions, as
plain data; its error kinds (spec/60_exceptions.md R251); the reset state (R50, R280). -/

namespace Sys2Proof.Machine

open Sys2Proof

/-- A memory of `ZPCORE` as the list of its elements that differ from the element every index reads as after
reset (spec/10_state.md R50), indices strictly rising. With `α = BitVec 8` an entry is a `Host.Cell`. -/
abbrev Cells (α : Type) := List (Nat × α)

/-- An entry of the priority queue (spec/43_pq.md R185). -/
structure Entry where
  key : Word
  val : Word
  deriving DecidableEq, Repr

/-- A node of the arena (spec/10_state.md R45). `leaf` is the field `kind`: 1 is a leaf, 0 an internal node. -/
structure Node where
  leaf : Bool
  sym : Sym
  cnt : Word
  left : Ptr
  right : Ptr
  par : Ptr
  deriving DecidableEq, Repr

/-- The ten kinds of fault (spec/60_exceptions.md R251), in the order of their codes 1 to 10. A fault of the
hardware is a next state of the model, never one of the outcomes below. -/
inductive ErrorKind where
  | emptyQueue
  | invalidRunLength
  | duplicateMarker
  | unknownSymbol
  | illegalCommand
  | sequence
  | config
  | capacity
  | symbolRange
  | invalidTransform
  deriving DecidableEq, Repr

/-- What `raise E(info)` carries (spec/00_scope.md R13). -/
structure Raised where
  kind : ErrorKind
  info : Nat
  deriving DecidableEq, Repr

/-- The state. Flat: the registers that store something, the six memories, then the host's side. `CMD` and
`CTRL` are ports without storage (R25); `HSIZE` and `NNODE` are the lengths of `heap` and `node` (R44, R45:
the state is the sequence of that many entries and nothing more) and are read through `State.hsize` and
`State.nnode`. -/
structure State where
  /-- `STATUS` bit 0 (R23) -/
  fault : Bool
  /-- `STATUS` bit 1: tree valid (R23) -/
  treev : Bool
  /-- `STATUS` bit 2: code table valid (R23) -/
  codev : Bool
  /-- `ERR` (R24) -/
  err : Word
  /-- `ERRINFO` (R24) -/
  errinfo : Word
  /-- `ERRCMD` (R24) -/
  errcmd : Word
  /-- `ASIZE` (R26) -/
  asize : Word
  /-- `EOB` (R27) -/
  eob : Word
  /-- `DIG1` (R28) -/
  dig1 : Word
  /-- `DIG2` (R29) -/
  dig2 : Word
  /-- `LEN0` (R30) -/
  len0 : Word
  /-- `LEN1` (R30) -/
  len1 : Word
  /-- `BSLEN` (R31) -/
  bslen : Word
  /-- `MPOS` (R32) -/
  mpos : Word
  /-- `ARG0` (R33) -/
  arg0 : Word
  /-- `ARG1` (R33) -/
  arg1 : Word
  /-- `RES0` (R34) -/
  res0 : Word
  /-- `RES1` (R34) -/
  res1 : Word
  /-- `ROOT` (R37) -/
  root : Word
  /-- `BUF[0]` (R41); an unlisted element is 0 -/
  buf0 : Cells Sym
  /-- `BUF[1]` (R41); an unlisted element is 0 -/
  buf1 : Cells Sym
  /-- `BS` (R42); an unlisted byte is 0 -/
  bs : List Host.Cell
  /-- `FREQ` (R43); an unlisted count is 0 -/
  freq : Cells Word
  /-- `HEAP[0 .. HSIZE-1]` (R44) -/
  heap : List Entry
  /-- `NODE[0 .. NNODE-1]` (R45) -/
  node : List Node
  /-- `CODE` (R46); an unlisted entry is `none` -/
  code : Cells (Option Bits)
  /-- the host's side, not `ZPCORE`'s: the transactions still to come, next first (R8, R100) -/
  pending : List Transaction
  /-- the host's side: the index of the next transaction in the host's list (R22) -/
  pc : Nat
  /-- the host's side: the words its reads returned so far, oldest first (R63) -/
  reads : List Word
  deriving DecidableEq, Repr

/-- The model's faults: none. Every transaction and every command has a next state (spec/00_scope.md R7); what
the spec calls a fault is a state with `STATUS.FAULT = 1` (spec/60_exceptions.md R250). -/
inductive Fault where
  deriving DecidableEq, Repr

/-- The model's refusals. -/
inductive Refusal where
  /-- An instruction without a meaning yet, by its mnemonic; raised by an arm of `exec` only. Safe. No arm
  raises it: all sixteen commands have their meaning. -/
  | notModelled (mnemonic : String)
  deriving DecidableEq, Repr

/-- The state after a hard reset, the host's list empty (spec/10_state.md R50, spec/70_reset_and_hazards.md R280). -/
def State.reset : State where
  fault := false
  treev := false
  codev := false
  err := 0
  errinfo := 0
  errcmd := 0
  asize := 0
  eob := 0
  dig1 := 0
  dig2 := 0
  len0 := 0
  len1 := 0
  bslen := 0
  mpos := 0
  arg0 := 0
  arg1 := 0
  res0 := 0
  res1 := 0
  root := 0
  buf0 := []
  buf1 := []
  bs := []
  freq := []
  heap := []
  node := []
  code := []
  pending := []
  pc := 0
  reads := []

end Sys2Proof.Machine
end

