-- ==== Sys2Proof/Machine/Flags.lean ====
section
/-! DEFINITION. The flags of `STATUS` (spec/10_state.md R23): the word the host reads, and what a completed
`HUF.BLD` and `HUF.TAB` do to them. `FAULT` is written by `raise` (Ops.lean). No other flag exists. -/

namespace Sys2Proof.Machine

open Sys2Proof

/-- `STATUS` as a word: bit 0 `FAULT`, bit 1 `TREEV`, bit 2 `CODEV`, bits 31 to 3 zero (R23). -/
def State.status (s : State) : Word :=
  BitVec.ofNat 32 (s.fault.toNat + 2 * s.treev.toNat + 4 * s.codev.toNat)

/-- A completed `HUF.BLD`: `TREEV <- 1`, `CODEV <- 0` (spec/44_huffman.md R213). -/
def State.markTree (s : State) : State := { s with treev := true, codev := false }

/-- A completed `HUF.TAB`: `CODEV <- 1` (spec/44_huffman.md R220). -/
def State.markCode (s : State) : State := { s with codev := true }

end Sys2Proof.Machine
end

