-- ==== Sys2Proof/Machine/Ops.lean ====
section
/-! DEFINITION. The shared operations: elements of the memories, registers as the host sees them, the address
map with the two host primitives on everything but `CMD` (spec/20_memory.md R62 to R71), `raise` with the fault
record and the reset that is the only way out of it (spec/60_exceptions.md R250, R261), and the frame every
command runs in (spec/30_encoding.md R97). -/

namespace Sys2Proof.Machine

open Sys2Proof

/-! ### Elements of a memory -/

/-- The element at index `i`; `d` is what an unlisted index reads as. -/
def cellGet {α : Type} (d : α) (m : Cells α) (i : Nat) : α :=
  match m with
  | [] => d
  | (k, v) :: rest => if k = i then v else cellGet d rest i

/-- The memory without an entry for `i`. -/
def cellErase {α : Type} (m : Cells α) (i : Nat) : Cells α :=
  m.filter (fun c => c.1 != i)

/-- The memory with an entry for `i` put at its place in the rising order. -/
def cellInsert {α : Type} (m : Cells α) (i : Nat) (v : α) : Cells α :=
  match m with
  | [] => [(i, v)]
  | (k, w) :: rest => if i < k then (i, v) :: (k, w) :: rest else (k, w) :: cellInsert rest i v

/-- Store `v` at `i`. Storing what an unlisted index reads as removes the entry. -/
def cellSet {α : Type} [DecidableEq α] (d : α) (m : Cells α) (i : Nat) (v : α) : Cells α :=
  if v = d then cellErase m i else cellInsert (cellErase m i) i v

/-- The canonical form of a memory of `size` elements: indices strictly rising and below `size`, no entry equal
to what an unlisted index reads as. -/
abbrev cellsWf {α : Type} (d : α) (size : Nat) (m : Cells α) : Prop :=
  m.Pairwise (fun a b => a.1 < b.1) ∧ ∀ c ∈ m, c.1 < size ∧ c.2 ≠ d

/-- Store the elements of `vs` at `i`, `i + 1`, and so on. -/
def writeFrom {α : Type} [DecidableEq α] (d : α) (m : Cells α) (i : Nat) (vs : List α) : Cells α :=
  match vs with
  | [] => m
  | v :: rest => writeFrom d (cellSet d m i v) (i + 1) rest

/-- The memories of a state are in canonical form, within the sizes of spec/10_state.md R40; `HEAP` and `NODE`
are sequences and need no form. -/
abbrev Memory.wf (s : State) : Prop :=
  cellsWf 0 cfg.nmax s.buf0 ∧ cellsWf 0 cfg.nmax s.buf1 ∧ cellsWf 0 cfg.bmax s.bs ∧ cellsWf 0 cfg.amax s.freq ∧
  cellsWf none cfg.amax s.code

/-- `BUF[b]` (spec/10_state.md R41). -/
def State.buf (s : State) : Bsel → Cells Sym
  | .b0 => s.buf0
  | .b1 => s.buf1

/-- The state with `BUF[b]` replaced. -/
def State.withBuf (s : State) (b : Bsel) (m : Cells Sym) : State :=
  match b with
  | .b0 => { s with buf0 := m }
  | .b1 => { s with buf1 := m }

/-- `BUF[b][i]`. -/
def State.bufAt (s : State) (b : Bsel) (i : Nat) : Sym := cellGet 0 (s.buf b) i

/-- `BS[i]`. -/
def State.bsAt (s : State) (i : Nat) : Byte := cellGet 0 s.bs i

/-- `FREQ[c]`. -/
def State.freqAt (s : State) (c : Nat) : Word := cellGet 0 s.freq c

/-- `CODE[c]`; `none` means the symbol has no codeword (spec/10_state.md R46). -/
def State.codeAt (s : State) (c : Nat) : Option Bits := cellGet none s.code c

/-- What a position that holds no entry reads as (spec/20_memory.md R69). -/
def Entry.zero : Entry := ⟨0, 0⟩

/-- What an arena position that holds no node reads as (spec/10_state.md R45, spec/20_memory.md R70). -/
def Node.zero : Node := ⟨false, 0, 0, 0, 0, 0⟩

/-- `HEAP[i]`. -/
def State.heapAt (s : State) (i : Nat) : Entry := s.heap.getD i Entry.zero

/-- `NODE[i]`. -/
def State.nodeAt (s : State) (i : Nat) : Node := s.node.getD i Node.zero

/-- `NIL` as the content of a node's field (spec/00_scope.md R4). -/
def nilPtr : Ptr := BitVec.ofNat 16 cfg.nil

/-! ### Registers -/

/-- `LEN[b]` (spec/10_state.md R30). -/
def State.len (s : State) : Bsel → Word
  | .b0 => s.len0
  | .b1 => s.len1

/-- The state with `LEN[b]` replaced. -/
def State.withLen (s : State) (b : Bsel) (v : Word) : State :=
  match b with
  | .b0 => { s with len0 := v }
  | .b1 => { s with len1 := v }

/-- `HSIZE`: the number of entries in the queue (spec/10_state.md R35, R44). -/
def State.hsize (s : State) : Word := BitVec.ofNat 32 s.heap.length

/-- `NNODE`: the number of nodes in the arena (spec/10_state.md R36, R45). -/
def State.nnode (s : State) : Word := BitVec.ofNat 32 s.node.length

/-- The register's index in space 0 (spec/10_state.md section 2). -/
def regIndex : Reg → Nat
  | .cmd => 0x00
  | .ctrl => 0x01
  | .status => 0x02
  | .err => 0x03
  | .errinfo => 0x04
  | .errcmd => 0x05
  | .asize => 0x08
  | .eob => 0x09
  | .dig1 => 0x0A
  | .dig2 => 0x0B
  | .len0 => 0x10
  | .len1 => 0x11
  | .bslen => 0x12
  | .mpos => 0x13
  | .arg0 => 0x18
  | .arg1 => 0x19
  | .res0 => 0x1A
  | .res1 => 0x1B
  | .hsize => 0x1C
  | .nnode => 0x1D
  | .root => 0x1E

/-- The register at an index of space 0, if there is one (spec/10_state.md section 2). -/
def regOfIndex (n : Nat) : Option Reg :=
  match n with
  | 0x00 => some .cmd
  | 0x01 => some .ctrl
  | 0x02 => some .status
  | 0x03 => some .err
  | 0x04 => some .errinfo
  | 0x05 => some .errcmd
  | 0x08 => some .asize
  | 0x09 => some .eob
  | 0x0A => some .dig1
  | 0x0B => some .dig2
  | 0x10 => some .len0
  | 0x11 => some .len1
  | 0x12 => some .bslen
  | 0x13 => some .mpos
  | 0x18 => some .arg0
  | 0x19 => some .arg1
  | 0x1A => some .res0
  | 0x1B => some .res1
  | 0x1C => some .hsize
  | 0x1D => some .nnode
  | 0x1E => some .root
  | _ => none

/-- The host's access to a register (spec/10_state.md section 2). -/
def regAccess : Reg → Access
  | .cmd | .ctrl => .wo
  | .status | .err | .errinfo | .errcmd | .res0 | .res1 | .hsize | .nnode | .root => .ro
  | .asize | .eob | .dig1 | .dig2 | .len0 | .len1 | .bslen | .mpos | .arg0 | .arg1 => .rw

/-- A register as the host reads it; the ports `CMD` and `CTRL` read as 0 (spec/10_state.md R25). -/
def State.readReg (s : State) : Reg → Word
  | .cmd | .ctrl => 0
  | .status => s.status
  | .err => s.err
  | .errinfo => s.errinfo
  | .errcmd => s.errcmd
  | .asize => s.asize
  | .eob => s.eob
  | .dig1 => s.dig1
  | .dig2 => s.dig2
  | .len0 => s.len0
  | .len1 => s.len1
  | .bslen => s.bslen
  | .mpos => s.mpos
  | .arg0 => s.arg0
  | .arg1 => s.arg1
  | .res0 => s.res0
  | .res1 => s.res1
  | .hsize => s.hsize
  | .nnode => s.nnode
  | .root => s.root

/-- A host write of a register that stores: an `RW` register takes all 32 bits, a write of an `RO` register is
ignored (spec/10_state.md R38). The two ports are not storage; their writes are in `State.writeCtrl` and HostPort.lean. -/
def State.writeReg (s : State) (v : Word) : Reg → State
  | .asize => { s with asize := v }
  | .eob => { s with eob := v }
  | .dig1 => { s with dig1 := v }
  | .dig2 => { s with dig2 := v }
  | .len0 => { s with len0 := v }
  | .len1 => { s with len1 := v }
  | .bslen => { s with bslen := v }
  | .mpos => { s with mpos := v }
  | .arg0 => { s with arg0 := v }
  | .arg1 => { s with arg1 := v }
  | .cmd | .ctrl | .status | .err | .errinfo | .errcmd | .res0 | .res1 | .hsize | .nnode | .root => s

/-! ### Reset and faults -/

/-- The reset function, used for the soft reset (spec/70_reset_and_hazards.md R281): the whole state of `ZPCORE`
becomes that of `State.reset`; the host's list and what it has read are the host's and stay. It is the only
return from the faulted state (spec/60_exceptions.md R261). -/
def State.softReset (s : State) : State :=
  { State.reset with pending := s.pending, pc := s.pc, reads := s.reads }

/-- `code(E)` (spec/60_exceptions.md R251). -/
def ErrorKind.code : ErrorKind → Word
  | .emptyQueue => 1
  | .invalidRunLength => 2
  | .duplicateMarker => 3
  | .unknownSymbol => 4
  | .illegalCommand => 5
  | .sequence => 6
  | .config => 7
  | .capacity => 8
  | .symbolRange => 9
  | .invalidTransform => 10

/-- Taking a fault: the four writes of spec/60_exceptions.md R250 and nothing else. `w` is the command word. -/
def State.raise (s : State) (w : Word) (r : Raised) : State :=
  { s with fault := true, err := r.kind.code, errinfo := BitVec.ofNat 32 r.info, errcmd := w }

/-- The scan of source elements in ascending index order, stopping at the first that fails
(spec/60_exceptions.md R254 point 6). -/
def scanFrom (test : Nat → Nat → Option Raised) (i : Nat) (vs : List Nat) : Option Raised :=
  match vs with
  | [] => none
  | v :: rest =>
    match test i v with
    | some r => some r
    | none => scanFrom test (i + 1) rest

/-- The frame of a command: ignored while `FAULT = 1` (spec/60_exceptions.md R256); a raised fault leaves the
record and no other effect (R250); else the command's effect. -/
def command (i : Instr) (result : Except Raised State) (s : State) : Host.Outcome State Fault Refusal :=
  if s.fault then .next s
  else
    match result with
    | .ok t => .next t
    | .error r => .next (s.raise (encode i) r)

/-! ### The address map -/

/-- An index within a memory's size, or nothing there (spec/20_memory.md R66). -/
def placeWithin (size index : Nat) (p : Place) : Place := if index < size then p else .unmapped

/-- What a host address names (spec/20_memory.md R62, R66). The sizes of `HEAP` and `NODE` here are their
capacities; an entry beyond the valid ones reads as 0 (R69, R70). -/
def locate (a : Word) : Place :=
  let index := bitField a 15 0
  if bitField a 31 20 = 0 then
    match bitField a 19 16 with
    | 0 =>
      match regOfIndex index with
      | some r => .reg r
      | none => .unmapped
    | 1 => placeWithin cfg.nmax index (.buf .b0 index)
    | 2 => placeWithin cfg.nmax index (.buf .b1 index)
    | 3 => placeWithin cfg.bmax index (.bs index)
    | 4 => placeWithin cfg.amax index (.freq index)
    | 5 => placeWithin (2 * cfg.heapmax) index (.heap index)
    | 6 => placeWithin (8 * cfg.nodemax) index (.node index)
    | 7 => placeWithin (4 * cfg.amax) index (.code index)
    | _ => .unmapped
  else .unmapped

/-- Word `index` of space 5 (spec/20_memory.md R69). -/
def State.heapWord (s : State) (index : Nat) : Word :=
  let e := s.heapAt (index / 2)
  if index % 2 = 0 then e.key else e.val

/-- Word `index` of space 6 (spec/20_memory.md R70). -/
def State.nodeWord (s : State) (index : Nat) : Word :=
  let n := s.nodeAt (index / 8)
  match index % 8 with
  | 0 => BitVec.ofNat 32 n.leaf.toNat
  | 1 => n.sym.setWidth 32
  | 2 => n.cnt
  | 3 => n.left.setWidth 32
  | 4 => n.right.setWidth 32
  | 5 => n.par.setWidth 32
  | _ => 0

/-- Code bits `32 * k` to `32 * k + 31` as a word, left-aligned, zeros beyond the length (spec/20_memory.md R71). -/
def codeWindow (bits : Bits) (k : Nat) : Word :=
  BitVec.ofNat 32 (((List.range 32).map fun t => (bits.getD (32 * k + t) false).toNat * 2 ^ (31 - t)).sum)

/-- Word `index` of space 7 (spec/20_memory.md R71). -/
def State.codeWord (s : State) (index : Nat) : Word :=
  let bits := (s.codeAt (index / 4)).getD []
  match index % 4 with
  | 0 => BitVec.ofNat 32 bits.length
  | 1 => codeWindow bits 0
  | 2 => codeWindow bits 1
  | _ => 0

/-- The word a place shows the host (spec/20_memory.md R63, R67 to R71). -/
def State.view (s : State) : Place → Word
  | .reg r => s.readReg r
  | .buf b i => (s.bufAt b i).setWidth 32
  | .bs i => (s.bsAt i).setWidth 32
  | .freq c => s.freqAt c
  | .heap i => s.heapWord i
  | .node i => s.nodeWord i
  | .code i => s.codeWord i
  | .unmapped => 0

/-- `MemRead(a)` (spec/20_memory.md R63). -/
def State.memRead (s : State) (a : Word) : Word := s.view (locate a)

/-- A host write of a place other than `CMD` and `CTRL`: an element takes the truncated value, a place that is
read-only or holds nothing ignores it (spec/20_memory.md R64, R67, R68). -/
def State.store (s : State) (v : Word) : Place → State
  | .reg r => s.writeReg v r
  | .buf b i => s.withBuf b (cellSet 0 (s.buf b) i (v.setWidth 16))
  | .bs i => { s with bs := cellSet 0 s.bs i (v.setWidth 8) }
  | .freq c => { s with freq := cellSet 0 s.freq c v }
  | .heap _ | .node _ | .code _ | .unmapped => s

/-- A host write of `CTRL`: soft reset when bit 0 of the data is 1, else nothing (spec/10_state.md R25). -/
def State.writeCtrl (s : State) (v : Word) : State := if v.getLsbD 0 then s.softReset else s

end Sys2Proof.Machine
end

