-- ==== Sys2Proof/Machine/Operands.lean ====
section
/-! DEFINITION. The operand forms of the commands (spec/30_encoding.md R93, R96): the source and destination
sequence a buffer select names, the bitstream's bits, the configuration checks of spec/60_exceptions.md R257,
and the digit symbols of spec/42_zrle.md R158. -/

namespace Sys2Proof.Machine

open Sys2Proof

/-- The buffer a transform writes: `BUF[1-b]` (spec/30_encoding.md R93). -/
def otherBuf : Bsel → Bsel
  | .b0 => .b1
  | .b1 => .b0

/-- `LEN[b]` as a number. -/
def State.lenNat (s : State) (b : Bsel) : Nat := (s.len b).toNat

/-- The sequence held by `BUF[b]`: elements `0 .. LEN[b]-1`, each the natural number it is
(spec/10_state.md R30, spec/20_memory.md R79). -/
def State.source (s : State) (b : Bsel) : List Nat :=
  (List.range (s.lenNat b)).map fun i => (s.bufAt b i).toNat

/-- Writing a sequence to a buffer: its elements from index 0 on, then its length into `LEN[d]`; no other
element changes (spec/10_state.md R41, R30). -/
def State.putSeq (s : State) (d : Bsel) (vs : List Nat) : State :=
  (s.withBuf d (writeFrom 0 (s.buf d) 0 (vs.map (BitVec.ofNat 16)))).withLen d (BitVec.ofNat 32 vs.length)

/-- `BitAt(j)` (spec/20_memory.md R80). -/
def State.bitAt (s : State) (j : Nat) : Bool := (s.bsAt (j / 8)).getLsbD (7 - j % 8)

/-- The bitstream: the `8 * BSLEN` bits of `BS[0 .. BSLEN-1]` in stream order (spec/10_state.md R31). -/
def State.stream (s : State) : Bits := (List.range (8 * s.bslen.toNat)).map s.bitAt

/-- One byte of `PackBits`: the sum over `t = 0 .. 7` of `bit(8k + t) * 2^(7 - t)` (spec/20_memory.md R80). -/
def packByte (bits : Bits) (k : Nat) : Byte :=
  BitVec.ofNat 8 (((List.range 8).map fun t => (bits.getD (8 * k + t) false).toNat * 2 ^ (7 - t)).sum)

/-- `PackBits(bits)`, padded with zero bits (spec/20_memory.md R80). -/
def packBits (bits : Bits) : List Byte := (List.range ((bits.length + 7) / 8)).map (packByte bits)

/-- `1 <= ASIZE <= AMAX` (spec/60_exceptions.md R257). -/
abbrev State.alphabetOk (s : State) : Prop := 1 ≤ s.asize.toNat ∧ s.asize.toNat ≤ cfg.amax

/-- The check of `HUF.CNT` and `HUF.ENC` (spec/44_huffman.md R207). -/
abbrev State.markerOk (s : State) : Prop := s.alphabetOk ∧ s.eob.toNat < s.asize.toNat

/-- The check of the two BWT commands (spec/40_bwt.md R113). -/
abbrev State.bwtOk (s : State) : Prop :=
  s.markerOk ∧ (s.eob.toNat = 0 ∨ s.eob.toNat = s.asize.toNat - 1)

/-- The check of the four ZRLE commands (spec/42_zrle.md R159). -/
abbrev State.digitsOk (s : State) : Prop :=
  s.dig1 ≠ s.dig2 ∧ s.dig1 ≠ 0 ∧ s.dig2 ≠ 0 ∧ s.dig1.toNat < 2 ^ cfg.symw ∧ s.dig2.toNat < 2 ^ cfg.symw

/-- `LEN[b] <= NMAX` (spec/60_exceptions.md R258). -/
abbrev State.lenOk (s : State) (b : Bsel) : Prop := s.lenNat b ≤ cfg.nmax

/-- The element test of the commands that index an array by symbol value: `SymbolRangeError(i)` when the value
is not below `A` (spec/60_exceptions.md R254). -/
def rangeTest (A : Nat) (i v : Nat) : Option Raised := if A ≤ v then some ⟨.symbolRange, i⟩ else none

/-- The element test of the commands that append the marker: range first, then `DuplicateMarkerError(i)`
(spec/60_exceptions.md R254). -/
def markerTest (A E : Nat) (i v : Nat) : Option Raised :=
  if A ≤ v then some ⟨.symbolRange, i⟩
  else if v = E then some ⟨.duplicateMarker, i⟩
  else none

/-- `Sym(d)` (spec/42_zrle.md R158). -/
def digitSym (d1 d2 : Nat) (d : Nat) : Nat := if d = 1 then d1 else d2

/-- `IsDigit(v)` (spec/42_zrle.md R158). -/
def isDigit (d1 d2 : Nat) (v : Nat) : Bool := v == d1 || v == d2

/-- `Dig(v)` (spec/42_zrle.md R158). -/
def digitOf (d1 : Nat) (v : Nat) : Nat := if v = d1 then 1 else 2

end Sys2Proof.Machine
end

