-- ==== Sys2Proof/Machine/Bwt.lean ====
section
/-! DEFINITION. The Rotation Sorter: `BWT.ENC`, `BWT.DEC` (spec/40_bwt.md). Working arrays are lists of numbers
made inside the command (spec/10_state.md R47). -/

namespace Sys2Proof.Machine

open Sys2Proof

/-- The key of an offset at shift `s`: `T[(o + s) mod n]` (R114). -/
def sortKey (T : List Nat) (s o : Nat) : Nat := T.getD ((o + s) % T.length) 0

/-- One stable counting-sort pass (R114): the offsets of key 0 in their old order, then those of key 1, and so
on. Bucket `c` starts at the number of smaller keys and is filled in the old order. -/
def sortPass (A : Nat) (T : List Nat) (s : Nat) (RI : List Nat) : List Nat :=
  (List.range A).flatMap fun c => RI.filter fun o => sortKey T s o == c

/-- The passes of shift `k - 1` down to 0 (R115). -/
def sortPasses (A : Nat) (T : List Nat) (k : Nat) (RI : List Nat) : List Nat :=
  match k with
  | 0 => RI
  | k + 1 => sortPasses A T k (sortPass A T k RI)

/-- `Sort(T, A)`: from the identity, one pass per shift from `n - 1` down to 0 (R115). -/
def sortRotations (A : Nat) (T : List Nat) : List Nat := sortPasses A T T.length (List.range T.length)

/-- The symbol before each sorted offset (R118). -/
def lastColumn (T RI : List Nat) : List Nat := RI.map fun o => T.getD ((o + T.length - 1) % T.length) 0

/-- The marker row: the index of offset 0 (R118). -/
def markerRow (RI : List Nat) : Nat := RI.idxOf 0

/-- The transform of a checked source and the marker row (R120). -/
def bwtForward (b : Bsel) (s : State) : State :=
  let T := s.source b ++ [s.eob.toNat]
  let RI := sortRotations s.asize.toNat T
  { s.putSeq (otherBuf b) (lastColumn T RI) with mpos := BitVec.ofNat 32 (markerRow RI) }

/-- `BWT.ENC b`: the checks in the order of R120, then the transform. -/
def bwtEncode (b : Bsel) (s : State) : Except Raised State :=
  if ¬ s.bwtOk then .error ⟨.config, 0⟩
  else if ¬ s.lenOk b then .error ⟨.capacity, 0⟩
  else if ¬ s.lenNat b + 1 ≤ cfg.nmax then .error ⟨.capacity, 0⟩
  else
    match scanFrom (markerTest s.asize.toNat s.eob.toNat) 0 (s.source b) with
    | some r => .error r
    | none => .ok (bwtForward b s)

/-- `BWT.ENC b` (R120). -/
def execBwtEnc (b : Bsel) (s : State) : Host.Outcome State Fault Refusal :=
  command (.bwtEnc b) (bwtEncode b s) s

/-- `LF[i]`: the number of smaller symbols plus the rank of `L[i]` among its equals (R122). -/
def lfIndex (L : List Nat) (i : Nat) : Nat :=
  let c := L.getD i 0
  L.countP (fun v => decide (v < c)) + (L.take i).count c

/-- The LF-mapping as a list (R122). -/
def lfMap (L : List Nat) : List Nat := (List.range L.length).map (lfIndex L)

/-- The rest of the walk, `k` symbols from row `p` on; nothing when it is back at row `P` (R124, R125). -/
def walkRows (L LF : List Nat) (P : Nat) (k p : Nat) : Option (List Nat) :=
  match k with
  | 0 => some []
  | k + 1 => if p = P then none else (walkRows L LF P k (LF.getD p 0)).map (L.getD p 0 :: ·)

/-- The emitted sequence `out` of the whole walk from row `P` (R126). -/
def walkAll (L : List Nat) (P : Nat) : Option (List Nat) :=
  let LF := lfMap L
  (walkRows L LF P (L.length - 1) (LF.getD P 0)).map (L.getD P 0 :: ·)

/-- The checks of the whole sequence and the walk of a last column (R126 points 5 and 6), then the block: the
emitted sequence reversed and stripped of the marker. -/
def bwtInverse (b : Bsel) (s : State) : Except Raised State :=
  let L := s.source b
  let P := s.mpos.toNat
  if ¬ (L.count s.eob.toNat = 1 ∧ L.getD P 0 = s.eob.toNat) then .error ⟨.invalidTransform, 0⟩
  else
    match walkAll L P with
    | none => .error ⟨.invalidTransform, 0⟩
    | some out => .ok (s.putSeq (otherBuf b) (out.reverse.take (L.length - 1)))

/-- `BWT.DEC b`: the checks in the order of R126, then the inverse. -/
def bwtDecode (b : Bsel) (s : State) : Except Raised State :=
  if ¬ s.bwtOk then .error ⟨.config, 0⟩
  else if ¬ s.lenOk b then .error ⟨.capacity, 0⟩
  else if ¬ (1 ≤ s.lenNat b ∧ s.mpos.toNat < s.lenNat b) then .error ⟨.invalidTransform, 0⟩
  else
    match scanFrom (rangeTest s.asize.toNat) 0 (s.source b) with
    | some r => .error r
    | none => bwtInverse b s

/-- `BWT.DEC b` (R126). -/
def execBwtDec (b : Bsel) (s : State) : Host.Outcome State Fault Refusal :=
  command (.bwtDec b) (bwtDecode b s) s

end Sys2Proof.Machine
end

