-- ==== Sys2Proof/Machine/Pq.lean ====
section
/-! DEFINITION. The Priority Queue: `PQ.CLR`, `PQ.INS`, `PQ.EXT`, and the two queue functions the Huffman build
uses as well (spec/43_pq.md). -/

namespace Sys2Proof.Machine

open Sys2Proof

/-- `Less(x, y)`: by unsigned key alone (R185). -/
def entryLess (x y : Entry) : Bool := decide (x.key.toNat < y.key.toNat)

/-- The entry at position `i` of a queue (R186). -/
def entryAt (H : List Entry) (i : Nat) : Entry := H.getD i Entry.zero

/-- Exchange the entries at positions `i` and `j`. -/
def swapAt (H : List Entry) (i j : Nat) : List Entry := (H.set i (entryAt H j)).set j (entryAt H i)

/-- `SiftUp(H, i)` (R187). `fuel` bounds the rounds; `i` rounds always suffice, since each makes `i` smaller. -/
def siftUp (fuel : Nat) (H : List Entry) (i : Nat) : List Entry :=
  match fuel with
  | 0 => H
  | fuel + 1 =>
    let p := (i - 1) / 2
    if i > 0 ∧ entryLess (entryAt H i) (entryAt H p) then siftUp fuel (swapAt H i p) p else H

/-- The child `SiftDown` picks at position `i`: the right one only if there is one and it is strictly smaller
than the left (R188). -/
def pickChild (H : List Entry) (i : Nat) : Nat :=
  let l := 2 * i + 1
  let r := 2 * i + 2
  if r < H.length ∧ entryLess (entryAt H r) (entryAt H l) then r else l

/-- `SiftDown(H, i)` (R188). `fuel` bounds the rounds; `len(H)` rounds always suffice. -/
def siftDown (fuel : Nat) (H : List Entry) (i : Nat) : List Entry :=
  match fuel with
  | 0 => H
  | fuel + 1 =>
    let c := pickChild H i
    if 2 * i + 1 < H.length ∧ entryLess (entryAt H c) (entryAt H i) then siftDown fuel (swapAt H c i) c else H

/-- `PqInsert(H, e)`: append, then sift up (R189). -/
def pqInsert (H : List Entry) (e : Entry) : List Entry := siftUp H.length (H ++ [e]) H.length

/-- `PqExtract(H)` for a queue that is not empty: swap the root with the last entry, shrink, sift down; the
entry taken out and the queue left (R189). -/
def pqExtract (H : List Entry) : Entry × List Entry :=
  let last := H.length - 1
  let H' := (swapAt H 0 last).take last
  (entryAt H 0, siftDown H'.length H' 0)

/-- `PQ.CLR` (R190). -/
def execPqClr (s : State) : Host.Outcome State Fault Refusal :=
  command .pqClr (.ok { s with heap := [] }) s

/-- `PQ.INS`: `(ARG0, ARG1)` into the queue (R192). -/
def pqInsertArgs (s : State) : Except Raised State :=
  if ¬ s.heap.length < cfg.heapmax then .error ⟨.capacity, 0⟩
  else .ok { s with heap := pqInsert s.heap ⟨s.arg0, s.arg1⟩ }

/-- `PQ.INS` (R192). -/
def execPqIns (s : State) : Host.Outcome State Fault Refusal :=
  command .pqIns (pqInsertArgs s) s

/-- `PQ.EXT`: the least entry out of the queue into `RES0`, `RES1` (R194). -/
def pqExtractResult (s : State) : Except Raised State :=
  if s.heap.length = 0 then .error ⟨.emptyQueue, 0⟩
  else
    let taken := pqExtract s.heap
    .ok { s with heap := taken.2, res0 := taken.1.key, res1 := taken.1.val }

/-- `PQ.EXT` (R194). -/
def execPqExt (s : State) : Host.Outcome State Fault Refusal :=
  command .pqExt (pqExtractResult s) s

end Sys2Proof.Machine
end

