-- ==== Sys2Proof/Machine/Huf.lean ====
section
/-! DEFINITION. The Huffman Coder: `HUF.CNT`, `HUF.BLD`, `HUF.TAB`, `HUF.ENC`, `HUF.DEC` (spec/44_huffman.md). -/

namespace Sys2Proof.Machine

open Sys2Proof

/-! ### HUF.CNT -/

/-- `FREQ[c]` after a count of the stream `S` (R210). -/
def countOf (A E : Nat) (S : List Nat) (c : Nat) : Nat :=
  if c = E then 1 else if c < A then S.count c else 0

/-- All `AMAX` counts of the source (R210). -/
def countsOf (b : Bsel) (s : State) : List Word :=
  (List.range cfg.amax).map fun c => BitVec.ofNat 32 (countOf s.asize.toNat s.eob.toNat (s.source b) c)

/-- `HUF.CNT b`: the checks in the order of R210, then all `AMAX` counts. -/
def hufCount (b : Bsel) (s : State) : Except Raised State :=
  if ¬ s.markerOk then .error ⟨.config, 0⟩
  else if ¬ s.lenOk b then .error ⟨.capacity, 0⟩
  else
    match scanFrom (markerTest s.asize.toNat s.eob.toNat) 0 (s.source b) with
    | some r => .error r
    | none => .ok { s with freq := writeFrom 0 s.freq 0 (countsOf b s) }

/-- `HUF.CNT b` (R210). -/
def execHufCnt (b : Bsel) (s : State) : Host.Outcome State Fault Refusal :=
  command (.hufCnt b) (hufCount b s) s

/-! ### HUF.BLD -/

/-- A leaf (R211). -/
def leafNode (c : Nat) (cnt : Word) : Node := ⟨true, BitVec.ofNat 16 c, cnt, nilPtr, nilPtr, nilPtr⟩

/-- An internal node: the first-extracted child is the left one (R212). -/
def innerNode (cnt : Word) (l r : Nat) : Node := ⟨false, 0, cnt, BitVec.ofNat 16 l, BitVec.ofNat 16 r, nilPtr⟩

/-- The counts `FREQ[0 .. A-1]`. -/
def State.counts (s : State) : List Word := (List.range s.asize.toNat).map s.freqAt

/-- The leaves in ascending symbol value, one per symbol of non-zero count (R211); `c` is the first count's symbol. -/
def leavesFrom (c : Nat) (counts : List Word) : List Node :=
  match counts with
  | [] => []
  | f :: rest => if f = 0 then leavesFrom (c + 1) rest else leafNode c f :: leavesFrom (c + 1) rest

/-- Insert the entries `(cnt, arena index)` of nodes in arena order; `j` is the first node's index (R213). -/
def enqueueFrom (j : Nat) (H : List Entry) (nodes : List Node) : List Entry :=
  match nodes with
  | [] => H
  | nd :: rest => enqueueFrom (j + 1) (pqInsert H ⟨nd.cnt, BitVec.ofNat 32 j⟩) rest

/-- `nodes[i].par <- t` (R213). -/
def setParent (nodes : List Node) (i t : Nat) : List Node :=
  nodes.modify i fun nd => { nd with par := BitVec.ofNat 16 t }

/-- One merge of the entries `x` (extracted first) and `y`: the new node, its children's parents, and the new
node's entry put into the queue `H` left after the two extracts (R212, R213). -/
def mergeNodes (nodes : List Node) (x y : Entry) (H : List Entry) : List Node × List Entry :=
  let t := nodes.length
  let cnt := BitVec.ofNat 32 (x.key.toNat + y.key.toNat)
  let grown := nodes ++ [innerNode cnt x.val.toNat y.val.toNat]
  (setParent (setParent grown x.val.toNat t) y.val.toNat t, pqInsert H ⟨cnt, BitVec.ofNat 32 t⟩)

/-- Two extracts and the merge of what they give (R212). -/
def mergeOnce (nodes : List Node) (H : List Entry) : List Node × List Entry :=
  let first := pqExtract H
  let second := pqExtract first.2
  mergeNodes nodes first.1 second.1 second.2

/-- Merge until one entry remains (R212). `fuel` bounds the rounds; `len(H)` rounds always suffice, since each
leaves one entry less. -/
def mergeAll (fuel : Nat) (nodes : List Node) (H : List Entry) : List Node × List Entry :=
  match fuel with
  | 0 => (nodes, H)
  | fuel + 1 =>
    if H.length > 1 then mergeAll fuel (mergeOnce nodes H).1 (mergeOnce nodes H).2
    else (nodes, H)

/-- The arena and the queue a build leaves: a function of the counts alone (R213, R214). -/
def buildTree (counts : List Word) : List Node × List Entry :=
  let leaves := leavesFrom 0 counts
  let H := enqueueFrom 0 [] leaves
  mergeAll H.length leaves H

/-- The exact sum of the counts (R213). -/
def countSum (counts : List Word) : Nat := (counts.map BitVec.toNat).sum

/-- The state with a built arena and queue in place (R213). -/
def State.installTree (s : State) (built : List Node × List Entry) : State :=
  { s with node := built.1, heap := built.2, root := (entryAt built.2 0).val }.markTree

/-- `HUF.BLD`: the checks in the order of R213, then the build. -/
def hufBuild (s : State) : Except Raised State :=
  if ¬ s.alphabetOk then .error ⟨.config, 0⟩
  else if countSum s.counts > 2 ^ cfg.cntw - 1 then .error ⟨.capacity, 0⟩
  else if s.counts.all (· == 0) then .error ⟨.emptyQueue, 0⟩
  else .ok (s.installTree (buildTree s.counts))

/-- `HUF.BLD` (R213). -/
def execHufBld (s : State) : Host.Outcome State Fault Refusal :=
  command .hufBld (hufBuild s) s

/-! ### HUF.TAB -/

/-- `CODE[c] <- w`; only entries below `AMAX` exist (spec/10_state.md R46). -/
def setCode (C : Cells (Option Bits)) (c : Nat) (w : Bits) : Cells (Option Bits) :=
  if c < cfg.amax then cellSet none C c (some w) else C

/-- `Walk(i, path)` (R220). Children have smaller indices than their node (spec/10_state.md R45), so `fuel` = the
number of nodes always suffices in an arena a build has left; elsewhere the walk ends when the fuel does. -/
def walkTree (nodes : List Node) (fuel : Nat) (i : Nat) (path : Bits) (C : Cells (Option Bits)) :
    Cells (Option Bits) :=
  match fuel with
  | 0 => C
  | fuel + 1 =>
    let nd := nodes.getD i Node.zero
    if nd.leaf then setCode C nd.sym.toNat path
    else
      walkTree nodes fuel nd.right.toNat (path ++ [true])
        (walkTree nodes fuel nd.left.toNat (path ++ [false]) C)

/-- The code table of a tree: `[0]` for a single leaf (R215), else the leaves' paths (R220). -/
def codesOf (nodes : List Node) (root : Nat) : Cells (Option Bits) :=
  let nd := nodes.getD root Node.zero
  if nd.leaf then setCode [] nd.sym.toNat [false] else walkTree nodes nodes.length root [] []

/-- `HUF.TAB`: the check of R220, then all `AMAX` entries anew. -/
def hufTable (s : State) : Except Raised State :=
  if ¬ s.treev then .error ⟨.sequence, 0⟩
  else .ok { s with code := codesOf s.node s.root.toNat }.markCode

/-- `HUF.TAB` (R220). -/
def execHufTab (s : State) : Host.Outcome State Fault Refusal :=
  command .hufTab (hufTable s) s

/-! ### HUF.ENC -/

/-- The element test of `HUF.ENC`: range, then marker, then `UnknownSymbolError(i)` (R225). -/
def codedTest (s : State) (i v : Nat) : Option Raised :=
  match markerTest s.asize.toNat s.eob.toNat i v with
  | some r => some r
  | none => if s.codeAt v = none then some ⟨.unknownSymbol, i⟩ else none

/-- The codeword of a symbol that has one. -/
def State.codeword (s : State) (c : Nat) : Bits := (s.codeAt c).getD []

/-- The bits of a stream: its symbols' codewords, then the marker's (R225). -/
def State.encodedBits (s : State) (S : List Nat) : Bits := S.flatMap s.codeword ++ s.codeword s.eob.toNat

/-- The state with a bit sequence in the bitstream memory (R225). -/
def State.putBits (s : State) (bits : Bits) : State :=
  { s with
    bs := writeFrom 0 s.bs 0 (packBits bits)
    bslen := BitVec.ofNat 32 (packBits bits).length
    res0 := BitVec.ofNat 32 bits.length }

/-- `HUF.ENC b`: the checks in the order of R225, then the packed bits. -/
def hufEncode (b : Bsel) (s : State) : Except Raised State :=
  if ¬ s.codev then .error ⟨.sequence, 0⟩
  else if ¬ s.markerOk then .error ⟨.config, 0⟩
  else if ¬ s.lenOk b then .error ⟨.capacity, 0⟩
  else
    match scanFrom (codedTest s) 0 (s.source b) with
    | some r => .error r
    | none =>
      if s.codeAt s.eob.toNat = none then .error ⟨.unknownSymbol, s.lenNat b⟩
      else if ((s.encodedBits (s.source b)).length + 7) / 8 > cfg.bmax then .error ⟨.capacity, 0⟩
      else .ok (s.putBits (s.encodedBits (s.source b)))

/-- `HUF.ENC b` (R225). -/
def execHufEnc (b : Bsel) (s : State) : Host.Outcome State Fault Refusal :=
  command (.hufEnc b) (hufEncode b s) s

/-! ### HUF.DEC -/

/-- The node a bit leads to from node `i`: at a leaf (the root of a single-leaf tree, R215) 0 stays and 1 is no
codeword; at an internal node 0 goes left and 1 right (R230). -/
def stepDown (nodes : List Node) (i : Nat) (bit : Bool) : Option Nat :=
  let nd := nodes.getD i Node.zero
  if nd.leaf then (if bit then none else some i)
  else some (if bit then nd.right else nd.left).toNat

/-- The decoder from bit position `pos` on (R230): `bits` are the bits still to come, `start` the position where
the codeword being read began, `i` the node reached, `len` the number of symbols emitted. It answers the symbols
still to be emitted and the position after the marker's codeword. -/
def decodeFrom (nodes : List Node) (root E : Nat) (pos start i len : Nat) (bits : Bits) :
    Except Raised (List Nat × Nat) :=
  match bits with
  | [] => .error ⟨.unknownSymbol, start⟩
  | bit :: rest =>
    match stepDown nodes i bit with
    | none => .error ⟨.unknownSymbol, start⟩
    | some j =>
      let nd := nodes.getD j Node.zero
      if ¬ nd.leaf then decodeFrom nodes root E (pos + 1) start j len rest
      else if nd.sym.toNat = E then .ok ([], pos + 1)
      else if len = cfg.nmax then .error ⟨.capacity, 0⟩
      else
        match decodeFrom nodes root E (pos + 1) (pos + 1) root (len + 1) rest with
        | .error r => .error r
        | .ok (out, stop) => .ok (nd.sym.toNat :: out, stop)

/-- `HUF.DEC b`: the checks before decoding in the order of R230, then the decoder. -/
def hufDecode (b : Bsel) (s : State) : Except Raised State :=
  if ¬ s.treev then .error ⟨.sequence, 0⟩
  else if s.bslen.toNat > cfg.bmax then .error ⟨.capacity, 0⟩
  else
    match decodeFrom s.node s.root.toNat s.eob.toNat 0 0 s.root.toNat 0 s.stream with
    | .error r => .error r
    | .ok (out, stop) => .ok { s.putSeq b out with res0 := BitVec.ofNat 32 stop }

/-- `HUF.DEC b` (R230). -/
def execHufDec (b : Bsel) (s : State) : Host.Outcome State Fault Refusal :=
  command (.hufDec b) (hufDecode b s) s

end Sys2Proof.Machine
end

