-- ==== Sys2Proof/Machine/Mtf.lean ====
section
/-! DEFINITION. The Rank List: `MTF.ENC`, `MTF.DEC` (spec/41_mtf.md). The Rank List is made anew by each command
(R140, R141). -/

namespace Sys2Proof.Machine

open Sys2Proof

/-- `MoveToFront(RL, r)` (R142). -/
def moveToFront (RL : List Nat) (r : Nat) : List Nat := RL.getD r 0 :: RL.eraseIdx r

/-- The ranks of a stream, from the Rank List `RL` on (R144). -/
def ranksOf (RL : List Nat) (vs : List Nat) : List Nat :=
  match vs with
  | [] => []
  | v :: rest => RL.idxOf v :: ranksOf (moveToFront RL (RL.idxOf v)) rest

/-- The symbols of a rank stream, from the Rank List `RL` on (R146). -/
def symbolsOf (RL : List Nat) (rs : List Nat) : List Nat :=
  match rs with
  | [] => []
  | r :: rest => RL.getD r 0 :: symbolsOf (moveToFront RL r) rest

/-- A command of the Rank List: the checks both share in their order (R143, R144, R146), then the output of `f`
from the canonical Rank List, as long as the input. -/
def mtfCommand (f : List Nat → List Nat → List Nat) (b : Bsel) (s : State) : Except Raised State :=
  if ¬ s.alphabetOk then .error ⟨.config, 0⟩
  else if ¬ s.lenOk b then .error ⟨.capacity, 0⟩
  else
    match scanFrom (rangeTest s.asize.toNat) 0 (s.source b) with
    | some r => .error r
    | none => .ok (s.putSeq (otherBuf b) (f (List.range s.asize.toNat) (s.source b)))

/-- `MTF.ENC b` (R144). -/
def execMtfEnc (b : Bsel) (s : State) : Host.Outcome State Fault Refusal :=
  command (.mtfEnc b) (mtfCommand ranksOf b s) s

/-- `MTF.DEC b` (R146). -/
def execMtfDec (b : Bsel) (s : State) : Host.Outcome State Fault Refusal :=
  command (.mtfDec b) (mtfCommand symbolsOf b s) s

end Sys2Proof.Machine
end

