-- ==== Sys2Proof/Machine/Zrl.lean ====
section
/-! DEFINITION. The Zero-Run Encoder and its numeral unit: `ZRL.ENC`, `ZRL.DEC`, `BIJ.ENC`, `BIJ.DEC`
(spec/42_zrle.md). -/

namespace Sys2Proof.Machine

open Sys2Proof

/-- The digits of `x` in the order the recurrence of R156 emits them, least significant first. `fuel` bounds the
rounds; `x` rounds always suffice, since each makes `x` smaller (R157). -/
def digitsEmitted (fuel x : Nat) : List Nat :=
  match fuel with
  | 0 => []
  | fuel + 1 =>
    if x = 0 then []
    else
      let q := (x + 1) / 2 - 1
      (x - 2 * q) :: digitsEmitted fuel q

/-- `BijDigits(x)`, most significant digit first (R156). -/
def bijDigits (x : Nat) : List Nat := (digitsEmitted x x).reverse

/-- `BijValue(d)` (R155). -/
def bijValue (d : List Nat) : Nat := d.foldl (fun k x => 2 * k + x) 0

/-- The Run Token of a run of `k` zeros; no token for no run (R160, R162). -/
def runToken (d1 d2 k : Nat) : List Nat :=
  if k = 0 then [] else (bijDigits k).map (digitSym d1 d2)

/-- The token stream of a rank stream (R162). `k` is the number of zeros of the run being read. -/
def tokensOf (d1 d2 : Nat) (k : Nat) (vs : List Nat) : List Nat :=
  match vs with
  | [] => runToken d1 d2 k
  | v :: rest =>
    if v = 0 then tokensOf d1 d2 (k + 1) rest
    else runToken d1 d2 k ++ v :: tokensOf d1 d2 0 rest

/-- The one left-to-right pass of R165 from element `i` on: `k` is the value of the digit group being read
(0 when none is), `len` the output's length so far. A group's zeros are emitted where the group ends. -/
def expandFrom (d1 d2 : Nat) (i k len : Nat) (vs : List Nat) : Except Raised (List Nat) :=
  match vs with
  | [] => if len + k > cfg.nmax then .error ⟨.capacity, 0⟩ else .ok (List.replicate k 0)
  | v :: rest =>
    if isDigit d1 d2 v then expandFrom d1 d2 (i + 1) (2 * k + digitOf d1 v) len rest
    else if len + k > cfg.nmax then .error ⟨.capacity, 0⟩
    else if v = 0 then .error ⟨.symbolRange, i⟩
    else if len + k + 1 > cfg.nmax then .error ⟨.capacity, 0⟩
    else
      match expandFrom d1 d2 (i + 1) 0 (len + k + 1) rest with
      | .error r => .error r
      | .ok out => .ok (List.replicate k 0 ++ v :: out)

/-- The element test of `ZRL.ENC`: a reserved digit value in the input (R162). -/
def reservedTest (d1 d2 : Nat) (i v : Nat) : Option Raised :=
  if isDigit d1 d2 v then some ⟨.symbolRange, i⟩ else none

/-- The element test of `BIJ.DEC`: an element that is no digit symbol (R172). -/
def digitTest (d1 d2 : Nat) (i v : Nat) : Option Raised :=
  if isDigit d1 d2 v then none else some ⟨.symbolRange, i⟩

/-- `ZRL.ENC b`: the checks in the order of R162, then the tokens. -/
def zrlEncode (b : Bsel) (s : State) : Except Raised State :=
  if ¬ s.digitsOk then .error ⟨.config, 0⟩
  else if ¬ s.lenOk b then .error ⟨.capacity, 0⟩
  else
    match scanFrom (reservedTest s.dig1.toNat s.dig2.toNat) 0 (s.source b) with
    | some r => .error r
    | none => .ok (s.putSeq (otherBuf b) (tokensOf s.dig1.toNat s.dig2.toNat 0 (s.source b)))

/-- `ZRL.ENC b` (R162). -/
def execZrlEnc (b : Bsel) (s : State) : Host.Outcome State Fault Refusal :=
  command (.zrlEnc b) (zrlEncode b s) s

/-- `ZRL.DEC b`: the checks before the scan in the order of R165, then the pass. -/
def zrlDecode (b : Bsel) (s : State) : Except Raised State :=
  if ¬ s.digitsOk then .error ⟨.config, 0⟩
  else if ¬ s.lenOk b then .error ⟨.capacity, 0⟩
  else
    match expandFrom s.dig1.toNat s.dig2.toNat 0 0 0 (s.source b) with
    | .error r => .error r
    | .ok out => .ok (s.putSeq (otherBuf b) out)

/-- `ZRL.DEC b` (R165). -/
def execZrlDec (b : Bsel) (s : State) : Host.Outcome State Fault Refusal :=
  command (.zrlDec b) (zrlDecode b s) s

/-- `BIJ.ENC b`: the checks in the order of R170, then the numeral of `ARG0` into the selected buffer itself. -/
def bijEncode (b : Bsel) (s : State) : Except Raised State :=
  if ¬ s.digitsOk then .error ⟨.config, 0⟩
  else if s.arg0.toNat = 0 then .error ⟨.invalidRunLength, 0⟩
  else .ok (s.putSeq b ((bijDigits s.arg0.toNat).map (digitSym s.dig1.toNat s.dig2.toNat)))

/-- `BIJ.ENC b` (R170). -/
def execBijEnc (b : Bsel) (s : State) : Host.Outcome State Fault Refusal :=
  command (.bijEnc b) (bijEncode b s) s

/-- The value of a sequence of digit symbols (R172). -/
def numeralOf (d1 : Nat) (vs : List Nat) : Nat := bijValue (vs.map (digitOf d1))

/-- `BIJ.DEC b`: the checks in the order of R172, then the value into `RES0`. -/
def bijDecode (b : Bsel) (s : State) : Except Raised State :=
  if ¬ s.digitsOk then .error ⟨.config, 0⟩
  else if ¬ s.lenOk b then .error ⟨.capacity, 0⟩
  else if s.lenNat b = 0 then .error ⟨.invalidRunLength, 0⟩
  else
    match scanFrom (digitTest s.dig1.toNat s.dig2.toNat) 0 (s.source b) with
    | some r => .error r
    | none =>
      if numeralOf s.dig1.toNat (s.source b) > 2 ^ cfg.regw - 1 then .error ⟨.capacity, 0⟩
      else .ok { s with res0 := BitVec.ofNat 32 (numeralOf s.dig1.toNat (s.source b)) }

/-- `BIJ.DEC b` (R172). -/
def execBijDec (b : Bsel) (s : State) : Host.Outcome State Fault Refusal :=
  command (.bijDec b) (bijDecode b s) s

end Sys2Proof.Machine
end

