-- ==== Sys2Proof/Machine/Dispatch.lean ====
section
/-! DEFINITION. The dispatch of the sixteen commands (spec/30_encoding.md R92), one arm each. -/

namespace Sys2Proof.Machine

open Sys2Proof

def exec (i : Instr) (s : State) : Host.Outcome State Fault Refusal :=
  match i with
  | .bwtEnc b => Sys2Proof.Machine.execBwtEnc b s
  | .bwtDec b => Sys2Proof.Machine.execBwtDec b s
  | .mtfEnc b => Sys2Proof.Machine.execMtfEnc b s
  | .mtfDec b => Sys2Proof.Machine.execMtfDec b s
  | .zrlEnc b => Sys2Proof.Machine.execZrlEnc b s
  | .zrlDec b => Sys2Proof.Machine.execZrlDec b s
  | .bijEnc b => Sys2Proof.Machine.execBijEnc b s
  | .bijDec b => Sys2Proof.Machine.execBijDec b s
  | .pqClr => Sys2Proof.Machine.execPqClr s
  | .pqIns => Sys2Proof.Machine.execPqIns s
  | .pqExt => Sys2Proof.Machine.execPqExt s
  | .hufCnt b => Sys2Proof.Machine.execHufCnt b s
  | .hufBld => Sys2Proof.Machine.execHufBld s
  | .hufTab => Sys2Proof.Machine.execHufTab s
  | .hufEnc b => Sys2Proof.Machine.execHufEnc b s
  | .hufDec b => Sys2Proof.Machine.execHufDec b s

end Sys2Proof.Machine
end

