-- ==== Sys2Proof/Machine/HostPort.lean ====
section
/-! DEFINITION. The host's transactions as the model's step runs them: issuing a command word
(spec/30_encoding.md R97), the two host primitives (spec/20_memory.md R63, R64), and the host's list of
transactions still to come with its position (spec/10_state.md R22, spec/00_scope.md R8). After them the host
pseudo-instructions (spec/30_encoding.md R99). -/

namespace Sys2Proof.Machine

open Sys2Proof

/-- A write of `CMD` with data `w`, in the order of R97: ignored while `FAULT = 1`; an illegal word raises
`IllegalCommandError`; else the command of the matching row executes. -/
def issueCommand (w : Word) (s : State) : Host.Outcome State Fault Refusal :=
  if s.fault then .next s
  else
    match decode w with
    | .error _ => .next (s.raise w ⟨.illegalCommand, 0⟩)
    | .ok i => exec i s

/-- `MemWrite(a, v)` (spec/20_memory.md R64). -/
def hostWrite (a v : Word) (s : State) : Host.Outcome State Fault Refusal :=
  match locate a with
  | .reg .cmd => issueCommand v s
  | .reg .ctrl => .next (s.writeCtrl v)
  | p => .next (s.store v p)

/-- `MemRead(a)`: no state of `ZPCORE` changes; the host keeps the word (spec/20_memory.md R63). -/
def hostRead (a : Word) (s : State) : Host.Outcome State Fault Refusal :=
  .next { s with reads := s.reads ++ [s.memRead a] }

/-- One transaction, an atomic step (spec/20_memory.md R65). -/
def transact (t : Transaction) (s : State) : Host.Outcome State Fault Refusal :=
  match t with
  | .read a => hostRead a s
  | .write a v => hostWrite a v s

/-- The host moves past its next transaction: its position advances by 1 (spec/10_state.md R22). -/
def State.advance (s : State) : State := { s with pending := s.pending.tail, pc := s.pc + 1 }

/-- The next step: the host's next transaction; with none left nothing happens (spec/00_scope.md R8,
spec/70_reset_and_hazards.md R280: the engine does nothing until the host's next transaction). -/
def hostStep (s : State) : Host.Outcome State Fault Refusal :=
  match s.pending with
  | [] => .next s
  | t :: _ => transact t s.advance

/-- The host address of the port `CMD` (spec/30_encoding.md R90). -/
def cmdAddr : Word := 0x00000#32

/-- The host has the word of `nbits` bits as the data of its next transaction, a write of `CMD`. -/
def State.withNextCommand (s : State) (nbits w : Nat) : State :=
  { s with pending := .write cmdAddr (BitVec.ofNat 32 (w % 2 ^ nbits)) :: s.pending.tail }

/-- The state with a program loaded: the host's list, not started (spec/30_encoding.md R100). -/
def State.loadProgram (s : State) (p : List Transaction) : State := { s with pending := p, pc := 0 }

/-! ### Host pseudo-instructions (spec/30_encoding.md R99) -/

/-- `wr X, v`. -/
def psWr (r : Reg) (v : Nat) : List Transaction := [.write (BitVec.ofNat 32 (regIndex r)) (BitVec.ofNat 32 v)]

/-- `rd X`. -/
def psRd (r : Reg) : List Transaction := [.read (BitVec.ofNat 32 (regIndex r))]

/-- `wrm S[i], v` for the space with base address `base`. -/
def psWrm (base i v : Nat) : List Transaction := [.write (BitVec.ofNat 32 (base + i)) (BitVec.ofNat 32 v)]

/-- `rdm S[i]` for the space with base address `base`. -/
def psRdm (base i : Nat) : List Transaction := [.read (BitVec.ofNat 32 (base + i))]

/-- The base address of `BUFb` (spec/20_memory.md R62). -/
def bufBase : Bsel → Nat
  | .b0 => 0x10000
  | .b1 => 0x20000

/-- The register `LENb`. -/
def lenReg : Bsel → Reg
  | .b0 => .len0
  | .b1 => .len1

/-- Writes of `vs` at `a`, `a + 1`, and so on. -/
def psLoad (a : Nat) (vs : List Nat) : List Transaction :=
  match vs with
  | [] => []
  | v :: rest => .write (BitVec.ofNat 32 a) (BitVec.ofNat 32 v) :: psLoad (a + 1) rest

/-- `ld.buf b, [v0, ...]`. -/
def psLdBuf (b : Bsel) (vs : List Nat) : List Transaction := psLoad (bufBase b) vs ++ psWr (lenReg b) vs.length

/-- `ld.bs [y0, ...]`. -/
def psLdBs (ys : List Nat) : List Transaction := psLoad 0x30000 ys ++ psWr .bslen ys.length

/-- `srst`. -/
def psSrst : List Transaction := psWr .ctrl 1

/-- A command mnemonic. -/
def psCmd (i : Instr) : List Transaction := [.write cmdAddr (encode i)]

end Sys2Proof.Machine
end

