-- ==== Sys2Proof/Machine/Step.lean ====
section
/-! DEFINITION. One step of the machine: the host's next transaction (spec/20_memory.md R65: host transactions
and commands are the only steps). There is no instruction fetch (spec/20_memory.md R78). -/

namespace Sys2Proof.Machine

open Sys2Proof

/-- One step. -/
def step (s : State) : Host.Outcome State Fault Refusal := hostStep s

/-- The state in which the next step issues the given command word: a command comes to the engine as the data of
a host write of `CMD`, so it becomes the host's next transaction. -/
def State.withFetchWord (s : State) (nbits w : Nat) : State := s.withNextCommand nbits w

end Sys2Proof.Machine
end

