-- ==== Sys2Proof/Safety.lean ====
section
/-! DEFINITION. What counts as a good run (spec/00_scope.md R8), the invariants of the machine, and the words of
the spec in which the statements of Certificates/ are written. Nothing here is used by the machine. -/

namespace Sys2Proof.Machine

open Sys2Proof

/-! ### Runs -/

/-- The state after `s`'s next `k` steps, if there is one. -/
def State.after (s : State) (k : Nat) : Option State :=
  match Host.Core.run core k s with
  | .next t => some t
  | .fault _ => none
  | .refused _ => none

/-- A run of the program `p` ends in `t`: it starts from the reset state and ends when the list is exhausted
(spec/00_scope.md R8). -/
def EndsIn (p : List Transaction) (t : State) : Prop := (State.reset.loadProgram p).after p.length = some t

/-- A good end (spec/00_scope.md R8, spec/60_exceptions.md R256). -/
def State.good (s : State) : Prop := s.fault = false

/-! ### The faults -/

/-- The errors each command can raise (spec/60_exceptions.md R253). -/
def canRaise : Instr → List ErrorKind
  | .bwtEnc _ => [.config, .capacity, .symbolRange, .duplicateMarker]
  | .bwtDec _ => [.config, .capacity, .invalidTransform, .symbolRange]
  | .mtfEnc _ | .mtfDec _ | .zrlEnc _ | .zrlDec _ => [.config, .capacity, .symbolRange]
  | .bijEnc _ => [.config, .invalidRunLength]
  | .bijDec _ => [.config, .capacity, .invalidRunLength, .symbolRange]
  | .pqClr => []
  | .pqIns => [.capacity]
  | .pqExt => [.emptyQueue]
  | .hufCnt _ => [.config, .capacity, .symbolRange, .duplicateMarker]
  | .hufBld => [.config, .capacity, .emptyQueue]
  | .hufTab => [.sequence]
  | .hufEnc _ => [.sequence, .config, .capacity, .symbolRange, .duplicateMarker, .unknownSymbol]
  | .hufDec _ => [.sequence, .capacity, .unknownSymbol]

/-- The commands that read `ASIZE` (spec/10_state.md R26, spec/60_exceptions.md R257). -/
def readsAsize : Instr → Bool
  | .bwtEnc _ | .bwtDec _ | .mtfEnc _ | .mtfDec _ | .hufCnt _ | .hufBld | .hufEnc _ => true
  | .zrlEnc _ | .zrlDec _ | .bijEnc _ | .bijDec _ | .pqClr | .pqIns | .pqExt | .hufTab | .hufDec _ => false

/-- The commands that read `EOB` (spec/10_state.md R27, spec/60_exceptions.md R257). -/
def readsEob : Instr → Bool
  | .bwtEnc _ | .bwtDec _ | .hufCnt _ | .hufEnc _ | .hufDec _ => true
  | .mtfEnc _ | .mtfDec _ | .zrlEnc _ | .zrlDec _ | .bijEnc _ | .bijDec _ | .pqClr | .pqIns | .pqExt
  | .hufBld | .hufTab => false

/-- The commands that read `DIG1` and `DIG2` (spec/10_state.md R28, R29, spec/60_exceptions.md R257). -/
def readsDigits : Instr → Bool
  | .zrlEnc _ | .zrlDec _ | .bijEnc _ | .bijDec _ => true
  | .bwtEnc _ | .bwtDec _ | .mtfEnc _ | .mtfDec _ | .pqClr | .pqIns | .pqExt | .hufCnt _ | .hufBld | .hufTab
  | .hufEnc _ | .hufDec _ => false

/-- The state with other values in the configuration registers that the command `i` does not read
(spec/60_exceptions.md R257). -/
def State.withConfigOutside (s : State) (i : Instr) (a e d1 d2 : Word) : State :=
  { s with
    asize := if readsAsize i then s.asize else a
    eob := if readsEob i then s.eob else e
    dig1 := if readsDigits i then s.dig1 else d1
    dig2 := if readsDigits i then s.dig2 else d2 }

/-- The fault record agrees with `STATUS.FAULT` (spec/10_state.md R24, spec/60_exceptions.md R250 to R253): no
record without a fault; with one, either an illegal word's or that of a command that can raise the error. -/
def RecordOk (s : State) : Prop :=
  if s.fault then
    (∃ e, decode s.errcmd = .error e ∧ s.err = ErrorKind.illegalCommand.code ∧ s.errinfo = 0) ∨
    (∃ i k, decode s.errcmd = .ok i ∧ k ∈ canRaise i ∧ s.err = k.code)
  else s.err = 0 ∧ s.errinfo = 0 ∧ s.errcmd = 0

/-! ### The queue -/

/-- The heap property (spec/43_pq.md R186). -/
def HeapOrdered (H : List Entry) : Prop :=
  ∀ i, 0 < i → i < H.length → (entryAt H ((i - 1) / 2)).key.toNat ≤ (entryAt H i).key.toNat

/-- The queue of a state: ordered and within its capacity (spec/43_pq.md R196, spec/10_state.md R35). -/
def QueueOk (s : State) : Prop := HeapOrdered s.heap ∧ s.heap.length ≤ cfg.heapmax

/-! ### The tree -/

/-- The node at an arena index. -/
def nodeOf (nodes : List Node) (i : Nat) : Node := nodes.getD i Node.zero

/-- The `k` leaves of an arena: nodes `0 .. k-1`, in strictly ascending symbol (spec/44_huffman.md R211, R214). -/
def LeavesOk (nodes : List Node) (k : Nat) : Prop :=
  (∀ i < k, (nodeOf nodes i).leaf = true ∧ (nodeOf nodes i).left = nilPtr ∧ (nodeOf nodes i).right = nilPtr ∧
    (nodeOf nodes i).sym.toNat < cfg.amax ∧ (nodeOf nodes i).cnt ≠ 0) ∧
  ∀ i j, i < j → j < k → (nodeOf nodes i).sym.toNat < (nodeOf nodes j).sym.toNat

/-- The internal nodes of an arena: nodes `k` on; two children of smaller index that name it as their parent,
and the sum of their counts (spec/10_state.md R45, spec/44_huffman.md R214). -/
def InnerOk (nodes : List Node) (k : Nat) : Prop :=
  ∀ i, k ≤ i → i < nodes.length →
    (nodeOf nodes i).leaf = false ∧ (nodeOf nodes i).sym = 0 ∧
    (nodeOf nodes i).left.toNat < i ∧ (nodeOf nodes i).right.toNat < i ∧
    (nodeOf nodes i).left ≠ (nodeOf nodes i).right ∧
    (nodeOf nodes (nodeOf nodes i).left.toNat).par.toNat = i ∧
    (nodeOf nodes (nodeOf nodes i).right.toNat).par.toNat = i ∧
    (nodeOf nodes i).cnt.toNat =
      (nodeOf nodes (nodeOf nodes i).left.toNat).cnt.toNat + (nodeOf nodes (nodeOf nodes i).right.toNat).cnt.toNat

/-- The parents of an arena: none of the root, and of every other node the node whose child it is
(spec/44_huffman.md R214). -/
def ParentsOk (nodes : List Node) : Prop :=
  (nodeOf nodes (nodes.length - 1)).par = nilPtr ∧
  ∀ i < nodes.length - 1,
    (nodeOf nodes i).par.toNat < nodes.length ∧
    (nodeOf nodes (nodeOf nodes i).par.toNat).leaf = false ∧
    ((nodeOf nodes (nodeOf nodes i).par.toNat).left.toNat = i ∨
      (nodeOf nodes (nodeOf nodes i).par.toNat).right.toNat = i)

/-- An arena of `k` leaves as a completed build leaves it; its root is the last node (spec/44_huffman.md R214). -/
def ArenaOk (nodes : List Node) (k : Nat) : Prop :=
  1 ≤ k ∧ k ≤ cfg.amax ∧ nodes.length = 2 * k - 1 ∧ LeavesOk nodes k ∧ InnerOk nodes k ∧ ParentsOk nodes

/-- The arena, the root and the two validity flags agree (spec/10_state.md R23, R36, R37, R45), and a valid code
table is the one of the arena (spec/44_huffman.md R220). -/
def TreeOk (s : State) : Prop :=
  (if s.treev then (∃ k, ArenaOk s.node k) ∧ s.root = BitVec.ofNat 32 (s.node.length - 1)
    else s.node = [] ∧ s.root = 0 ∧ s.codev = false) ∧
  (s.codev = true → s.code = codesOf s.node s.root.toNat)

/-- The node a path leads to from node `i` through internal nodes, 0 left and 1 right (spec/44_huffman.md R208). -/
def reach (nodes : List Node) (i : Nat) (path : Bits) : Option Nat :=
  match path with
  | [] => some i
  | bit :: rest =>
    if (nodeOf nodes i).leaf then none
    else reach nodes (if bit then (nodeOf nodes i).right else (nodeOf nodes i).left).toNat rest

/-- `p` is the codeword of symbol `c` in the tree at `root`: the path of its leaf, or `[0]` when the root is its
leaf (spec/44_huffman.md R208, R215). -/
def IsCodeword (nodes : List Node) (root : Nat) (p : Bits) (c : Nat) : Prop :=
  if (nodeOf nodes root).leaf then p = [false] ∧ (nodeOf nodes root).sym.toNat = c
  else ∃ j, reach nodes root p = some j ∧ (nodeOf nodes j).leaf = true ∧ (nodeOf nodes j).sym.toNat = c

/-- No codeword is the beginning of another (spec/44_huffman.md R221). -/
def PrefixFree (C : Cells (Option Bits)) : Prop :=
  ∀ c d p q, cellGet none C c = some p → cellGet none C d = some q → p <+: q → c = d

/-! ### The sequences -/

/-- The rotation of `T` at offset `o` (spec/40_bwt.md R111). -/
def rotation (T : List Nat) (o : Nat) : List Nat :=
  (List.range T.length).map fun j => T.getD ((o + j) % T.length) 0

/-- The Rank List after the symbols of `S`, one by one, were each taken from their place and put at index 0
(spec/41_mtf.md R141, R142, R144). -/
def rankListAfter (A : Nat) (S : List Nat) : List Nat := S.foldl (fun RL v => v :: RL.erase v) (List.range A)

/-- The Rank List after the elements at the ranks of `R`, one by one, were each put at index 0
(spec/41_mtf.md R141, R142, R146). -/
def rankListBy (A : Nat) (R : List Nat) : List Nat :=
  R.foldl (fun RL r => RL.getD r 0 :: (RL.take r ++ RL.drop (r + 1))) (List.range A)

/-- The buffer a command writes (spec/30_encoding.md R93). -/
def destination : Instr → Option Bsel
  | .bwtEnc b | .bwtDec b | .mtfEnc b | .mtfDec b | .zrlEnc b | .zrlDec b => some (otherBuf b)
  | .bijEnc b | .hufDec b => some b
  | .bijDec _ | .pqClr | .pqIns | .pqExt | .hufCnt _ | .hufBld | .hufTab | .hufEnc _ => none

/-- A legal source of the commands that append the marker: every element is a symbol and none is the marker
(spec/40_bwt.md R110, spec/44_huffman.md R205). -/
def MarkerFree (s : State) (b : Bsel) : Prop :=
  ∀ v ∈ s.source b, v < s.asize.toNat ∧ v ≠ s.eob.toNat

/-- A list of numeral digits (spec/42_zrle.md R155). -/
def Digits (d : List Nat) : Prop := ∀ x ∈ d, x = 1 ∨ x = 2

end Sys2Proof.Machine
end

