-- ==== Sys2Proof/Certificates/Slice0/Obligations.lean ====
section
/-! DEFINITION. The statements about ZPCORE for the provers, one definition each. -/

open Sys2Proof Sys2Proof.Machine

/-! ### Encoding -/

/-- spec/30_encoding.md R92, R98: words written out from the table decode to the commands they stand for. -/
def Obligations.CommandWordsDecode : Prop :=
  decode 0x00000010#32 = .ok (.bwtEnc .b0) ∧ decode 0x00000111#32 = .ok (.bwtDec .b1) ∧
  decode 0x00000020#32 = .ok (.mtfEnc .b0) ∧ decode 0x00000131#32 = .ok (.zrlDec .b1) ∧
  decode 0x00000041#32 = .ok .pqIns ∧ decode 0x00000051#32 = .ok .hufBld ∧
  decode 0x00000154#32 = .ok (.hufDec .b1) ∧ decode 0x00000140#32 = .error .selectSet ∧
  decode 0x00000210#32 = .error .reservedBits ∧ decode 0x00000000#32 = .error .unknownOpcode

/-- Decoding and encoding are inverse to each other on all commands and all words. -/
def Obligations.DecodeInvertsEncode : Prop :=
  (∀ i : Instr, i.wellFormed = true ∧ decode (encode i) = .ok i) ∧
  ∀ (w : Word) (i : Instr), decode w = .ok i → encode i = w

/-- The table of spec/30_encoding.md R92 as it is printed there: mnemonic, `op`, uses `b`, match, mask. -/
def specTable : List (String × Nat × Bool × Word × Word) :=
  [("BWT.ENC", 0x10, true, 0x00000010, 0xFFFFFEFF), ("BWT.DEC", 0x11, true, 0x00000011, 0xFFFFFEFF),
   ("MTF.ENC", 0x20, true, 0x00000020, 0xFFFFFEFF), ("MTF.DEC", 0x21, true, 0x00000021, 0xFFFFFEFF),
   ("ZRL.ENC", 0x30, true, 0x00000030, 0xFFFFFEFF), ("ZRL.DEC", 0x31, true, 0x00000031, 0xFFFFFEFF),
   ("BIJ.ENC", 0x32, true, 0x00000032, 0xFFFFFEFF), ("BIJ.DEC", 0x33, true, 0x00000033, 0xFFFFFEFF)] ++
  [("PQ.CLR", 0x40, false, 0x00000040, 0xFFFFFFFF), ("PQ.INS", 0x41, false, 0x00000041, 0xFFFFFFFF),
   ("PQ.EXT", 0x42, false, 0x00000042, 0xFFFFFFFF), ("HUF.CNT", 0x50, true, 0x00000050, 0xFFFFFEFF),
   ("HUF.BLD", 0x51, false, 0x00000051, 0xFFFFFFFF), ("HUF.TAB", 0x52, false, 0x00000052, 0xFFFFFFFF),
   ("HUF.ENC", 0x53, true, 0x00000053, 0xFFFFFEFF), ("HUF.DEC", 0x54, true, 0x00000054, 0xFFFFFEFF)]

/-- spec/30_encoding.md R92: a word selects the command of the row it matches, with `b` its bit 8 where the row
uses `b`; the decoder accepts no other word, and no word matches two rows. -/
def Obligations.DecodeSelectsByTableRow : Prop :=
  (∀ w : Word, ∀ row ∈ specTable, w &&& row.2.2.2.2 = row.2.2.2.1 →
    ∃ i, decode w = .ok i ∧ i.mnemonic = row.1 ∧ i.opcode = row.2.1 ∧
      i.select = if row.2.2.1 then some (if w.getLsbD 8 then .b1 else .b0) else none) ∧
  (∀ w i, decode w = .ok i → ∃ row ∈ specTable, w &&& row.2.2.2.2 = row.2.2.2.1 ∧ row.1 = i.mnemonic) ∧
  (∀ w : Word, ∀ row ∈ specTable, ∀ row' ∈ specTable,
    w &&& row.2.2.2.2 = row.2.2.2.1 → w &&& row'.2.2.2.2 = row'.2.2.2.1 → row = row')

/-- spec/30_encoding.md R94: which words are illegal, that 27 are not, and that issuing an illegal one raises
`IllegalCommandError` and has no other effect. -/
def Obligations.IllegalWordsAreExactly : Prop :=
  (∀ w : Word, (∃ e, decode w = .error e) ↔
    w.toNat / 512 ≠ 0 ∨
    w.toNat % 256 ∉ [0x10, 0x11, 0x20, 0x21, 0x30, 0x31, 0x32, 0x33, 0x40, 0x41, 0x42, 0x50, 0x51, 0x52, 0x53, 0x54] ∨
    (w.getLsbD 8 = true ∧ w.toNat % 256 ∈ [0x40, 0x41, 0x42, 0x51, 0x52])) ∧
  (∃ legal : List Word, legal.length = 27 ∧ legal.Nodup ∧ ∀ w, w ∈ legal ↔ ∃ i, decode w = .ok i) ∧
  ∀ (s : State) (w : Word) (e : Illegal), s.fault = false → decode w = .error e →
    transact (.write 0x00000#32 w) s = .next { s with fault := true, err := 5, errinfo := 0, errcmd := w }

/-! ### Steps, the host's transactions -/

/-- A step is the host's next transaction, after the host has moved past it (`pending` and `pc` are the host's
side, log entry 1); a step that writes a command's word to `CMD` is the execution of that command. -/
def Obligations.StepRunsDecodedCommand : Prop :=
  (∀ (s : State) (x : Transaction) (rest : List Transaction), s.pending = x :: rest →
    step s = transact x { s with pending := rest, pc := s.pc + 1 }) ∧
  ∀ (s : State) (w : Word) (i : Instr) (rest : List Transaction),
    s.pending = .write 0x00000#32 w :: rest → decode w = .ok i →
    step s = exec i { s with pending := rest, pc := s.pc + 1 }

/-- spec/30_encoding.md R97: a word written to `CMD` is ignored while `FAULT` is 1, raises `IllegalCommandError`
when it is illegal, and else is the execution of the command. -/
def Obligations.CommandPortFollowsDecodeOrder : Prop :=
  ∀ (s : State) (w : Word),
    (s.fault = true → transact (.write 0x00000#32 w) s = .next s) ∧
    (s.fault = false → ∀ e, decode w = .error e → transact (.write 0x00000#32 w) s = .next { s with
      fault := true, err := 5, errinfo := 0, errcmd := w }) ∧
    (s.fault = false → ∀ i, decode w = .ok i → transact (.write 0x00000#32 w) s = exec i s)

/-- spec/00_scope.md R7: every command and every transaction has a next state. That the model has no outcome of
another kind is log entry 14; that a step with no transaction left has a next state too is log entry 2. -/
def Obligations.EveryStepHasASuccessor : Prop :=
  (∀ (i : Instr) (s : State), ∃ t, exec i s = .next t) ∧
  (∀ (x : Transaction) (s : State), ∃ t, transact x s = .next t) ∧ ∀ s : State, ∃ t, step s = .next t

/-- The host's position (spec/10_state.md R22, log entry 1) advances by one per transaction, faulting or not, and
no command moves it; with no transaction left nothing happens (log entry 2). -/
def Obligations.PositionAdvancesByOne : Prop :=
  (∀ (s t : State) (x : Transaction) (rest : List Transaction),
    s.pending = x :: rest → step s = .next t → t.pc = s.pc + 1 ∧ t.pending = rest) ∧
  (∀ (i : Instr) (s t : State), exec i s = .next t → t.pc = s.pc ∧ t.pending = s.pending ∧ t.reads = s.reads) ∧
  ∀ s : State, s.pending = [] → step s = .next s

/-- spec/20_memory.md R63: a read changes no state of `ZPCORE`; the word it returns is kept on the host's side
(`reads`, log entry 3), so two reads with no step between them return the same word. -/
def Obligations.HostReadChangesNoState : Prop :=
  ∀ (s : State) (a : Word),
    transact (.read a) s = .next { s with reads := s.reads ++ [s.memRead a] } ∧
    ∀ t, transact (.read a) s = .next t →
      transact (.read a) t = .next { s with reads := s.reads ++ [s.memRead a, s.memRead a] }

/-- spec/20_memory.md R64: a write to any address but those of `CMD` and `CTRL` changes at most the one word at
that address; the fault record, the flags, the results, the queue, the arena and the code table stay. -/
def Obligations.HostWriteChangesOneWord : Prop :=
  ∀ (s t : State) (a v : Word), a ≠ 0x00000#32 → a ≠ 0x00001#32 → transact (.write a v) s = .next t →
    (∀ a' : Word, a' ≠ a → t.memRead a' = s.memRead a') ∧
    t.fault = s.fault ∧ t.treev = s.treev ∧ t.codev = s.codev ∧ t.err = s.err ∧ t.errinfo = s.errinfo ∧
    t.errcmd = s.errcmd ∧ t.res0 = s.res0 ∧ t.res1 = s.res1 ∧ t.root = s.root ∧
    t.heap = s.heap ∧ t.node = s.node ∧ t.code = s.code ∧
    t.pending = s.pending ∧ t.pc = s.pc ∧ t.reads = s.reads

/-- spec/10_state.md R38: a host write of an `RW` register stores all 32 bits and a later read returns them; a
write of an `RO` register is ignored (spec/20_memory.md R64). -/
def Obligations.RegisterWritesStoreAllBits : Prop :=
  ∀ (s : State) (r : Reg) (a v : Word), a.toNat = regIndex r →
    (regAccess r = .rw → ∃ t, transact (.write a v) s = .next t ∧ t.readReg r = v ∧ t.memRead a = v) ∧
    (regAccess r = .ro → transact (.write a v) s = .next s ∧ s.memRead a = s.readReg r) ∧
    (regAccess r = .wo → s.memRead a = 0)

/-- spec/20_memory.md R67, R68: the buffer, bitstream and frequency spaces show their elements and store the
truncated data; no length and no other element changes. -/
def Obligations.ReadWriteWindows : Prop :=
  ∀ (s : State) (v : Word) (i : Nat),
    (∀ b : Bsel, i < 4096 →
      let a := BitVec.ofNat 32 ((match b with | .b0 => 0x10000 | .b1 => 0x20000) + i)
      s.memRead a = (s.bufAt b i).setWidth 32 ∧
      ∃ t, transact (.write a v) s = .next t ∧ t.bufAt b i = v.setWidth 16 ∧
        (∀ j, j ≠ i → t.bufAt b j = s.bufAt b j) ∧
        t.buf (otherBuf b) = s.buf (otherBuf b) ∧ t.len0 = s.len0 ∧ t.len1 = s.len1) ∧
    (i < 16384 →
      s.memRead (BitVec.ofNat 32 (0x30000 + i)) = (s.bsAt i).setWidth 32 ∧
      ∃ t, transact (.write (BitVec.ofNat 32 (0x30000 + i)) v) s = .next t ∧
        t.bsAt i = v.setWidth 8 ∧ t.bslen = s.bslen ∧ ∀ j, j ≠ i → t.bsAt j = s.bsAt j) ∧
    (i < 512 →
      s.memRead (BitVec.ofNat 32 (0x40000 + i)) = s.freqAt i ∧
      ∃ t, transact (.write (BitVec.ofNat 32 (0x40000 + i)) v) s = .next t ∧
        t.freqAt i = v ∧ t.asize = s.asize ∧ ∀ j, j ≠ i → t.freqAt j = s.freqAt j)

/-- spec/20_memory.md R69, R70, R71: the read-only spaces and that writes to them are ignored, in states whose queue and arena are within their
capacities (the invariants `QueueOk` and `TreeOk` give that). -/
def Obligations.ReadOnlyWindows : Prop :=
  ∀ s : State, s.heap.length ≤ 512 → s.node.length ≤ 1023 →
    (∀ i < s.heap.length,
      s.memRead (BitVec.ofNat 32 (0x50000 + 2 * i)) = (s.heapAt i).key ∧
      s.memRead (BitVec.ofNat 32 (0x50000 + 2 * i + 1)) = (s.heapAt i).val) ∧
    (∀ j, 2 * s.heap.length ≤ j → j < 2 ^ 16 → s.memRead (BitVec.ofNat 32 (0x50000 + j)) = 0) ∧
    (∀ i < s.node.length,
      s.memRead (BitVec.ofNat 32 (0x60000 + 8 * i)) = (if (s.nodeAt i).leaf then 1 else 0) ∧
      s.memRead (BitVec.ofNat 32 (0x60000 + 8 * i + 1)) = (s.nodeAt i).sym.setWidth 32 ∧
      s.memRead (BitVec.ofNat 32 (0x60000 + 8 * i + 2)) = (s.nodeAt i).cnt ∧
      s.memRead (BitVec.ofNat 32 (0x60000 + 8 * i + 3)) = (s.nodeAt i).left.setWidth 32 ∧
      s.memRead (BitVec.ofNat 32 (0x60000 + 8 * i + 4)) = (s.nodeAt i).right.setWidth 32 ∧
      s.memRead (BitVec.ofNat 32 (0x60000 + 8 * i + 5)) = (s.nodeAt i).par.setWidth 32 ∧
      s.memRead (BitVec.ofNat 32 (0x60000 + 8 * i + 6)) = 0 ∧
      s.memRead (BitVec.ofNat 32 (0x60000 + 8 * i + 7)) = 0) ∧
    (∀ j, 8 * s.node.length ≤ j → j < 2 ^ 16 → s.memRead (BitVec.ofNat 32 (0x60000 + j)) = 0) ∧
    (∀ c < 512, ∀ bits : Bits, s.codeAt c = some bits ∨ (s.codeAt c = none ∧ bits = []) →
      s.memRead (BitVec.ofNat 32 (0x70000 + 4 * c)) = BitVec.ofNat 32 bits.length ∧
      (∀ j < 64, (s.memRead (BitVec.ofNat 32 (0x70000 + 4 * c + 1 + j / 32))).getLsbD (31 - j % 32) =
        bits.getD j false) ∧
      s.memRead (BitVec.ofNat 32 (0x70000 + 4 * c + 3)) = 0) ∧
    ∀ (space j : Nat) (v : Word), 5 ≤ space → space ≤ 7 → j < 2 ^ 16 →
      transact (.write (BitVec.ofNat 32 (0x10000 * space + j)) v) s = .next s

/-- spec/20_memory.md R66: an address that names nothing reads as 0 and ignores writes, and no fault results. -/
def Obligations.UnmappedAddressesDoNothing : Prop :=
  ∀ (s : State) (a v : Word),
    (a.toNat / 2 ^ 20 ≠ 0 ∨ 8 ≤ a.toNat / 2 ^ 16 % 16 ∨
      (a.toNat / 2 ^ 16 % 16 = 0 ∧ ∀ r, regIndex r ≠ a.toNat % 2 ^ 16) ∨
      (a.toNat / 2 ^ 16 % 16 = 1 ∧ 4096 ≤ a.toNat % 2 ^ 16) ∨
      (a.toNat / 2 ^ 16 % 16 = 2 ∧ 4096 ≤ a.toNat % 2 ^ 16) ∨
      (a.toNat / 2 ^ 16 % 16 = 3 ∧ 16384 ≤ a.toNat % 2 ^ 16) ∨
      (a.toNat / 2 ^ 16 % 16 = 4 ∧ 512 ≤ a.toNat % 2 ^ 16) ∨
      (a.toNat / 2 ^ 16 % 16 = 5 ∧ 2 * s.heap.length ≤ a.toNat % 2 ^ 16) ∨
      (a.toNat / 2 ^ 16 % 16 = 6 ∧ 8 * s.node.length ≤ a.toNat % 2 ^ 16) ∨
      (a.toNat / 2 ^ 16 % 16 = 7 ∧ 2048 ≤ a.toNat % 2 ^ 16)) →
    s.memRead a = 0 ∧ transact (.write a v) s = .next s

/-! ### Reset -/

/-- spec/10_state.md R50, spec/70_reset_and_hazards.md R286: the state after reset; every address reads 0. -/
def Obligations.ResetIsAllZero : Prop :=
  (∀ r, State.reset.readReg r = 0) ∧
  State.reset.fault = false ∧ State.reset.treev = false ∧ State.reset.codev = false ∧
  (∀ b i, State.reset.bufAt b i = 0) ∧ (∀ i, State.reset.bsAt i = 0) ∧ (∀ c, State.reset.freqAt c = 0) ∧
  State.reset.heap = [] ∧ State.reset.node = [] ∧ (∀ c, State.reset.codeAt c = none) ∧
  ∀ a : Word, State.reset.memRead a = 0

/-- spec/70_reset_and_hazards.md R281: the soft reset, faulted or not, and that no other transaction leaves the
faulted state. That the host's side (`pending`, `pc`, `reads`) stays is the model's reading (log entry 14) of
spec/10_state.md R22 and R48. -/
def Obligations.SoftResetRestoresReset : Prop :=
  (∀ (s : State) (v : Word),
    (v.getLsbD 0 = true → transact (.write 0x00001#32 v) s = .next { State.reset with
      pending := s.pending, pc := s.pc, reads := s.reads }) ∧
    (v.getLsbD 0 = false → transact (.write 0x00001#32 v) s = .next s)) ∧
  ∀ (s t : State) (x : Transaction), s.fault = true → transact x s = .next t → t.fault = false →
    ∃ v, x = .write 0x00001#32 v ∧ v.getLsbD 0 = true

/-! ### Faults -/

/-- spec/60_exceptions.md R256: `FAULT` is sticky, commands are ignored, the record stays; only the soft reset
leaves the faulted state. -/
def Obligations.FaultIsSticky : Prop :=
  (∀ (i : Instr) (s : State), s.fault = true → exec i s = .next s) ∧
  (∀ (s : State) (w : Word), s.fault = true → transact (.write 0x00000#32 w) s = .next s) ∧
  ∀ (s t : State) (x : Transaction), s.fault = true → transact x s = .next t →
    (t.fault = true ∧ t.err = s.err ∧ t.errinfo = s.errinfo ∧ t.errcmd = s.errcmd) ∨
    ∃ v, x = .write 0x00001#32 v ∧ v.getLsbD 0 = true

/-- spec/60_exceptions.md R250: a faulting command changes nothing but the fault record, which holds the word
written to `CMD`. -/
def Obligations.FaultIsPrecise : Prop :=
  (∀ (i : Instr) (s t : State), s.fault = false → exec i s = .next t → t.fault = true →
    ∃ r : Raised, t = { s with
      fault := true, err := r.kind.code, errinfo := BitVec.ofNat 32 r.info, errcmd := encode i }) ∧
  ∀ (s t : State) (w : Word), s.fault = false → transact (.write 0x00000#32 w) s = .next t → t.fault = true →
    ∃ r : Raised, t = { s with
      fault := true, err := r.kind.code, errinfo := BitVec.ofNat 32 r.info, errcmd := w }

/-- spec/60_exceptions.md R253: a faulting command leaves in `ERR` the code of an error of its row, and each error
of its row is raised in some state. -/
def Obligations.CommandsRaiseExactlyTheirErrors : Prop :=
  (∀ (i : Instr) (s t : State), s.fault = false → exec i s = .next t → t.fault = true →
    ∃ k ∈ canRaise i, t.err = k.code) ∧
  ∀ (i : Instr), ∀ k ∈ canRaise i,
    ∃ s t : State, s.fault = false ∧ exec i s = .next t ∧ t.fault = true ∧ t.err = k.code

/-- spec/60_exceptions.md R257, its checks: a command whose configuration registers hold a value it cannot use
raises `ConfigError`, and one whose row is empty never does; the validity flag of `HUF.ENC` is looked at first
(R254). What is read at all: ConfigurationOutsideTheRowIsNotRead. -/
def Obligations.UnusableConfigurationFaults : Prop :=
  ∀ (s : State), s.fault = false →
    let refused (i : Instr) : Prop := exec i s = .next { s with
      fault := true, err := 7, errinfo := 0, errcmd := encode i }
    let alphabet : Prop := 1 ≤ s.asize.toNat ∧ s.asize.toNat ≤ 512
    let marker : Prop := alphabet ∧ s.eob.toNat < s.asize.toNat
    let digits : Prop := s.dig1 ≠ s.dig2 ∧ s.dig1 ≠ 0 ∧ s.dig2 ≠ 0 ∧ s.dig1.toNat < 65536 ∧ s.dig2.toNat < 65536
    (∀ b, (refused (.bwtEnc b) ↔ ¬ (marker ∧ (s.eob.toNat = 0 ∨ s.eob.toNat = s.asize.toNat - 1))) ∧
      (refused (.bwtDec b) ↔ ¬ (marker ∧ (s.eob.toNat = 0 ∨ s.eob.toNat = s.asize.toNat - 1))) ∧
      (refused (.mtfEnc b) ↔ ¬ alphabet) ∧ (refused (.mtfDec b) ↔ ¬ alphabet) ∧
      (refused (.zrlEnc b) ↔ ¬ digits) ∧ (refused (.zrlDec b) ↔ ¬ digits) ∧
      (refused (.bijEnc b) ↔ ¬ digits) ∧ (refused (.bijDec b) ↔ ¬ digits) ∧
      (refused (.hufCnt b) ↔ ¬ marker) ∧ (refused (.hufEnc b) ↔ s.codev = true ∧ ¬ marker) ∧
      ¬ refused (.hufDec b)) ∧
    (refused .hufBld ↔ ¬ alphabet) ∧
    ¬ refused .pqClr ∧ ¬ refused .pqIns ∧ ¬ refused .pqExt ∧ ¬ refused .hufTab

/-- spec/60_exceptions.md R257: a command reads no configuration register outside its row. With any other values in
those registers it gives the same next state but for these values, which it leaves as they are. -/
def Obligations.ConfigurationOutsideTheRowIsNotRead : Prop :=
  ∀ (i : Instr) (s t : State) (a e d1 d2 : Word), exec i s = .next t →
    exec i (s.withConfigOutside i a e d1 d2) = .next (t.withConfigOutside i a e d1 d2)

/-- spec/60_exceptions.md R259: which command needs which validity flag. -/
def Obligations.MissingTreeOrTableFaults : Prop :=
  ∀ (s : State), s.fault = false →
    let refused (i : Instr) : Prop := exec i s = .next { s with
      fault := true, err := 6, errinfo := 0, errcmd := encode i }
    (refused .hufTab ↔ s.treev = false) ∧
    (∀ b, (refused (.hufDec b) ↔ s.treev = false) ∧ (refused (.hufEnc b) ↔ s.codev = false))

/-- The checks on lengths, on the queue's size and on the counts (spec/60_exceptions.md R254 point 5, R258): a
length register beyond its memory, a full queue, a sum of counts beyond 32 bits, counts that are all zero. -/
def Obligations.LengthAndCountChecksFault : Prop :=
  ∀ (s : State), s.fault = false →
    let refused (i : Instr) (code : Word) : Prop := exec i s = .next { s with
      fault := true, err := code, errinfo := 0, errcmd := encode i }
    (∀ b, (s.bwtOk → 4096 ≤ s.lenNat b → refused (.bwtEnc b) 8) ∧
      (4096 < s.lenNat b →
        (s.bwtOk → refused (.bwtDec b) 8) ∧ (s.alphabetOk → refused (.mtfEnc b) 8 ∧ refused (.mtfDec b) 8) ∧
        (s.digitsOk → refused (.zrlEnc b) 8 ∧ refused (.zrlDec b) 8 ∧ refused (.bijDec b) 8) ∧
        (s.markerOk → refused (.hufCnt b) 8 ∧ (s.codev = true → refused (.hufEnc b) 8))) ∧
      (s.treev = true → 16384 < s.bslen.toNat → refused (.hufDec b) 8)) ∧
    (512 ≤ s.heap.length → refused .pqIns 8) ∧
    (s.alphabetOk →
      (4294967295 < ((List.range s.asize.toNat).map fun c => (s.freqAt c).toNat).sum → refused .hufBld 8) ∧
      ((∀ c < s.asize.toNat, s.freqAt c = 0) → refused .hufBld 1))

/-- The scan of `BWT.ENC` and `HUF.CNT` (spec/60_exceptions.md R254 point 6): the first element that fails
decides, range before marker. -/
def Obligations.MarkerScanReportsFirstFailure : Prop :=
  ∀ (s : State) (b : Bsel) (j : Nat), s.fault = false → j < s.lenNat b →
    (∀ i < j, (s.bufAt b i).toNat < s.asize.toNat ∧ (s.bufAt b i).toNat ≠ s.eob.toNat) →
    let refused (code : Word) (i : Instr) : Prop := exec i s = .next { s with
      fault := true, err := code, errinfo := BitVec.ofNat 32 j, errcmd := encode i }
    (s.asize.toNat ≤ (s.bufAt b j).toNat →
      (s.bwtOk → s.lenNat b + 1 ≤ 4096 → refused 9 (.bwtEnc b)) ∧
      (s.markerOk → s.lenNat b ≤ 4096 → refused 9 (.hufCnt b))) ∧
    ((s.bufAt b j).toNat = s.eob.toNat →
      (s.bwtOk → s.lenNat b + 1 ≤ 4096 → refused 3 (.bwtEnc b)) ∧
      (s.markerOk → s.lenNat b ≤ 4096 → refused 3 (.hufCnt b)))

/-- The scans that look for a value out of range or of the wrong kind (spec/40_bwt.md R126, spec/41_mtf.md R144,
R146, spec/42_zrle.md R162, R172): `SymbolRangeError` with the index of the first such element. -/
def Obligations.RangeScanReportsFirstFailure : Prop :=
  ∀ (s : State) (b : Bsel) (j : Nat), s.fault = false → j < s.lenNat b → s.lenNat b ≤ 4096 →
    let refused (i : Instr) : Prop := exec i s = .next { s with
      fault := true, err := 9, errinfo := BitVec.ofNat 32 j, errcmd := encode i }
    let isDig (i : Nat) : Prop :=
      (s.bufAt b i).toNat = s.dig1.toNat ∨ (s.bufAt b i).toNat = s.dig2.toNat
    ((∀ i < j, (s.bufAt b i).toNat < s.asize.toNat) → s.asize.toNat ≤ (s.bufAt b j).toNat →
      (s.alphabetOk → refused (.mtfEnc b) ∧ refused (.mtfDec b)) ∧
      (s.bwtOk → s.mpos.toNat < s.lenNat b → refused (.bwtDec b))) ∧
    (s.digitsOk → (∀ i < j, ¬ isDig i) → isDig j → refused (.zrlEnc b)) ∧
    (s.digitsOk → (∀ i < j, isDig i) → ¬ isDig j → refused (.bijDec b))

/-! ### What commands leave alone -/

/-- The column "written by the engine" of spec/10_state.md section 2 and the memories' writers (R41 to R46): a
command changes a register or a memory only if it is listed for it; the configuration and operand registers and
the host's side never. -/
def Obligations.CommandsWriteOnlyWhatIsListed : Prop :=
  ∀ (i : Instr) (s t : State), exec i s = .next t →
    (t.asize = s.asize ∧ t.eob = s.eob ∧ t.dig1 = s.dig1 ∧ t.dig2 = s.dig2 ∧ t.arg0 = s.arg0 ∧ t.arg1 = s.arg1 ∧
      t.pending = s.pending ∧ t.pc = s.pc ∧ t.reads = s.reads) ∧
    (destination i ≠ some .b0 → t.buf0 = s.buf0 ∧ t.len0 = s.len0) ∧
    (destination i ≠ some .b1 → t.buf1 = s.buf1 ∧ t.len1 = s.len1) ∧
    ((∀ b, i ≠ .bwtEnc b) → t.mpos = s.mpos) ∧
    ((∀ b, i ≠ .hufEnc b) → t.bs = s.bs ∧ t.bslen = s.bslen) ∧
    ((∀ b, i ≠ .hufCnt b) → t.freq = s.freq) ∧
    ((∀ b, i ≠ .bijDec b ∧ i ≠ .hufEnc b ∧ i ≠ .hufDec b) → i ≠ .pqExt → t.res0 = s.res0) ∧
    (i ≠ .pqExt → t.res1 = s.res1) ∧
    (i ≠ .pqClr → i ≠ .pqIns → i ≠ .pqExt → i ≠ .hufBld → t.heap = s.heap) ∧
    (i ≠ .hufBld → t.node = s.node ∧ t.root = s.root ∧ t.treev = s.treev) ∧
    (i ≠ .hufTab → t.code = s.code) ∧
    (i ≠ .hufBld → i ≠ .hufTab → t.codev = s.codev) ∧
    (t.fault = s.fault → t.err = s.err ∧ t.errinfo = s.errinfo ∧ t.errcmd = s.errcmd)

/-- spec/10_state.md R41: a command writes its destination's elements below the new length only; the length of a
completed command's destination is within `NMAX`. -/
def Obligations.DestinationTailUnchanged : Prop :=
  ∀ (i : Instr) (s t : State) (d : Bsel), exec i s = .next t → destination i = some d →
    (∀ j, t.lenNat d ≤ j → t.bufAt d j = s.bufAt d j) ∧
    t.buf (otherBuf d) = s.buf (otherBuf d) ∧ t.len (otherBuf d) = s.len (otherBuf d) ∧
    (s.fault = false → t.fault = false → t.lenNat d ≤ 4096)

/-- spec/10_state.md R23: what sets and clears the two validity flags, and the word `STATUS` reads as. -/
def Obligations.ValidityFlagsFollowTheBuild : Prop :=
  (∀ (s t : State) (x : Transaction), transact x s = .next t → s.treev = true →
    t.treev = true ∨ ∃ v, x = .write 0x00001#32 v ∧ v.getLsbD 0 = true) ∧
  (∀ s t : State, s.fault = false → exec .hufBld s = .next t → t.fault = false →
    t.treev = true ∧ t.codev = false) ∧
  (∀ s t : State, s.fault = false → exec .hufTab s = .next t → t.fault = false → t.codev = true) ∧
  ∀ s : State, s.status.toNat / 8 = 0 ∧ s.status.getLsbD 0 = s.fault ∧ s.status.getLsbD 1 = s.treev ∧
    s.status.getLsbD 2 = s.codev

/-- What the model's sequence write does: the elements of the sequence, then nothing else of the buffer; the other
buffer and every other register stay. The results below are stated with it. -/
def Obligations.SequenceWriteStoresElements : Prop :=
  ∀ (s : State) (d : Bsel) (vs : List Nat), vs.length ≤ 4096 → (∀ v ∈ vs, v < 65536) →
    (s.putSeq d vs).source d = vs ∧ (s.putSeq d vs).lenNat d = vs.length ∧
    (∀ j, vs.length ≤ j → (s.putSeq d vs).bufAt d j = s.bufAt d j) ∧
    (s.putSeq d vs).buf (otherBuf d) = s.buf (otherBuf d) ∧ (s.putSeq d vs).len (otherBuf d) = s.len (otherBuf d) ∧
    ∃ m0 m1 l0 l1, s.putSeq d vs = { s with buf0 := m0, buf1 := m1, len0 := l0, len1 := l1 }

/-! ### Invariants -/

/-- The invariants hold at reset. -/
def Obligations.ResetMeetsInvariants : Prop :=
  Memory.wf State.reset ∧ RecordOk State.reset ∧ QueueOk State.reset ∧ TreeOk State.reset

/-- Every step keeps the memories in canonical form (the form is the model's own, log entry 6). -/
def Obligations.StepKeepsMemoriesCanonical : Prop :=
  ∀ s t : State, Memory.wf s → step s = .next t → Memory.wf t

/-- spec/10_state.md R24, spec/60_exceptions.md R251 to R253: every step keeps the fault record true to `FAULT`. -/
def Obligations.StepKeepsFaultRecord : Prop :=
  ∀ s t : State, RecordOk s → step s = .next t → RecordOk t

/-- spec/43_pq.md R196: every step keeps the heap property and the queue's bound. -/
def Obligations.StepKeepsQueueOrdered : Prop :=
  ∀ s t : State, QueueOk s → step s = .next t → QueueOk t

/-- spec/10_state.md R45, spec/44_huffman.md R214: every step keeps the arena a tree, with the root, the validity
flags and a valid code table in agreement. -/
def Obligations.StepKeepsTree : Prop :=
  ∀ s t : State, TreeOk s → step s = .next t → TreeOk t

/-! ### Rotation Sorter -/

/-- spec/40_bwt.md R111, R117, R118, R120: `BWT.ENC` completes, its Rotation Index is the permutation of the
offsets that puts the rotations in strict lexicographic order, the output is the symbol before each sorted offset
and `MPOS` the row of offset 0. -/
def Obligations.BwtEncSortsRotations : Prop :=
  ∀ (s : State) (b : Bsel), s.fault = false → s.bwtOk → s.lenNat b + 1 ≤ 4096 → MarkerFree s b →
    let T := s.source b ++ [s.eob.toNat]
    ∃ RI : List Nat, RI.Perm (List.range T.length) ∧
      RI.Pairwise (fun x y => rotation T x < rotation T y) ∧
      exec (.bwtEnc b) s = .next { s.putSeq (otherBuf b)
          (RI.map fun o => T.getD ((o + T.length - 1) % T.length) 0) with
        mpos := BitVec.ofNat 32 (RI.idxOf 0) }

/-- spec/40_bwt.md R116: every pass of the sort keeps the Rotation Index a permutation and is stable. -/
def Obligations.SortPassIsAStableSort : Prop :=
  ∀ (A shift : Nat) (T RI : List Nat), (∀ v ∈ T, v < A) → RI.Perm (List.range T.length) →
    (sortPass A T shift RI).Perm (List.range T.length) ∧
    (sortPass A T shift RI).Pairwise (fun x y => sortKey T shift x ≤ sortKey T shift y) ∧
    ∀ c, (sortPass A T shift RI).filter (fun o => sortKey T shift o == c) =
      RI.filter (fun o => sortKey T shift o == c)

/-- spec/40_bwt.md R123: the LF-mapping is a permutation for every last column; it keeps the order of equal
symbols and takes those of symbol `c` to the positions from the number of smaller symbols on. -/
def Obligations.LfMappingIsAPermutation : Prop :=
  ∀ L : List Nat,
    ((List.range L.length).map (lfIndex L)).Perm (List.range L.length) ∧
    ∀ (i c : Nat), L[i]? = some c →
      L.countP (fun v => decide (v < c)) ≤ lfIndex L i ∧
      lfIndex L i < L.countP (fun v => decide (v < c)) + L.count c ∧
      ∀ j, i < j → L[j]? = some c → lfIndex L i < lfIndex L j

/-- spec/40_bwt.md R124, R126: `BWT.DEC` on a valid input completes with the block the walk gives; on one whose
walk returns early, and on each other invalid input of R125, it raises `InvalidTransformError`. -/
def Obligations.BwtDecFollowsTheWalk : Prop :=
  ∀ (s : State) (b : Bsel), s.fault = false → s.bwtOk → s.lenNat b ≤ 4096 →
    let L := s.source b
    let P := s.mpos.toNat
    let n := s.lenNat b
    let refused : Prop := exec (.bwtDec b) s = .next { s with
      fault := true, err := 10, errinfo := 0, errcmd := encode (.bwtDec b) }
    (¬ (1 ≤ n ∧ P < n) → refused) ∧
    (1 ≤ n → P < n → (∀ v ∈ L, v < s.asize.toNat) →
      (¬ (L.count s.eob.toNat = 1 ∧ L.getD P 0 = s.eob.toNat) → refused) ∧
      (L.count s.eob.toNat = 1 → L.getD P 0 = s.eob.toNat →
        ((∃ k, 1 ≤ k ∧ k < n ∧ (lfIndex L)^[k] P = P) → refused) ∧
        ((∀ k, 1 ≤ k → k < n → (lfIndex L)^[k] P ≠ P) →
          exec (.bwtDec b) s = .next (s.putSeq (otherBuf b)
            ((List.range (n - 1)).map fun j => L.getD ((lfIndex L)^[n - 1 - j] P) 0)))))

/-- spec/40_bwt.md R127: `BWT.ENC b` then `BWT.DEC (1-b)` give the block back. -/
def Obligations.BwtRoundTrip : Prop :=
  ∀ (s : State) (b : Bsel), s.fault = false → s.bwtOk → s.lenNat b ≤ 4095 → MarkerFree s b →
    ∃ t u, exec (.bwtEnc b) s = .next t ∧ exec (.bwtDec (otherBuf b)) t = .next u ∧
      t.fault = false ∧ u.fault = false ∧ u.source b = s.source b ∧ u.len b = s.len b

/-! ### Rank List -/

/-- spec/41_mtf.md R144: `MTF.ENC` completes with each symbol's index in the Rank List of that moment. -/
def Obligations.MtfEncWritesRanks : Prop :=
  ∀ (s : State) (b : Bsel), s.fault = false → s.alphabetOk → s.lenNat b ≤ 4096 →
    (∀ v ∈ s.source b, v < s.asize.toNat) →
    exec (.mtfEnc b) s = .next (s.putSeq (otherBuf b) ((List.range (s.lenNat b)).map fun i =>
      (rankListAfter s.asize.toNat ((s.source b).take i)).idxOf ((s.source b).getD i 0)))

/-- spec/41_mtf.md R146: `MTF.DEC` completes with the symbol at each rank in the Rank List of that moment. -/
def Obligations.MtfDecWritesSymbols : Prop :=
  ∀ (s : State) (b : Bsel), s.fault = false → s.alphabetOk → s.lenNat b ≤ 4096 →
    (∀ v ∈ s.source b, v < s.asize.toNat) →
    exec (.mtfDec b) s = .next (s.putSeq (otherBuf b) ((List.range (s.lenNat b)).map fun i =>
      (rankListBy s.asize.toNat ((s.source b).take i)).getD ((s.source b).getD i 0) 0))

/-- spec/41_mtf.md R144, corner cases of what `MTF.ENC` writes: as many ranks as symbols, each below `ASIZE`; a
symbol repeated immediately gives 0; a symbol's first occurrence gives its own value plus the number of different
larger symbols seen before it. -/
def Obligations.MtfRanksOfFirstOccurrences : Prop :=
  ∀ (s : State) (b : Bsel), s.fault = false → s.alphabetOk → s.lenNat b ≤ 4096 →
    (∀ v ∈ s.source b, v < s.asize.toNat) →
    ∃ t, exec (.mtfEnc b) s = .next t ∧ t.fault = false ∧ t.lenNat (otherBuf b) = s.lenNat b ∧
      ∀ i < s.lenNat b,
        let v := (s.bufAt b i).toNat
        let seen := (s.source b).take i
        let rank := (t.bufAt (otherBuf b) i).toNat
        rank < s.asize.toNat ∧
        (seen.getLast? = some v → rank = 0) ∧
        (v ∉ seen → rank = v + (seen.dedup.filter fun x => decide (v < x)).length)

/-- spec/41_mtf.md R148, and the other direction of R146's corner case: the two commands invert each other. -/
def Obligations.MtfRoundTrip : Prop :=
  ∀ (s : State) (b : Bsel), s.fault = false → s.alphabetOk → s.lenNat b ≤ 4096 →
    (∀ v ∈ s.source b, v < s.asize.toNat) →
    (∃ t u, exec (.mtfEnc b) s = .next t ∧ exec (.mtfDec (otherBuf b)) t = .next u ∧
      t.fault = false ∧ u.fault = false ∧ u.source b = s.source b ∧ u.len b = s.len b) ∧
    (∃ t u, exec (.mtfDec b) s = .next t ∧ exec (.mtfEnc (otherBuf b)) t = .next u ∧
      t.fault = false ∧ u.fault = false ∧ u.source b = s.source b ∧ u.len b = s.len b)

/-! ### Zero-Run Encoder and numerals -/

/-- spec/42_zrle.md R157: the bijective numeral of a positive integer, its length, and its uniqueness. -/
def Obligations.NumeralIsUnique : Prop :=
  (∀ x, 1 ≤ x → Digits (bijDigits x) ∧ bijValue (bijDigits x) = x ∧
    (bijDigits x).length = Nat.log2 (x + 1) ∧ (bijDigits x).length ≤ x) ∧
  ∀ d : List Nat, d ≠ [] → Digits d → bijDigits (bijValue d) = d

/-- spec/42_zrle.md R162: `ZRL.ENC` completes. The source is written as runs of zeros, each ended by an element
that is neither 0 nor a digit symbol, with a last run at the end (any run may be empty); each run that is not
empty becomes its numeral, every other element passes through. The output has no zero and is never longer. -/
def Obligations.ZrlEncReplacesRuns : Prop :=
  ∀ (s : State) (b : Bsel) (runs : List (Nat × Nat)) (last : Nat),
    s.fault = false → s.digitsOk → s.lenNat b ≤ 4096 →
    (∀ p ∈ runs, p.2 ≠ 0 ∧ p.2 ≠ s.dig1.toNat ∧ p.2 ≠ s.dig2.toNat) →
    s.source b = runs.flatMap (fun p => List.replicate p.1 0 ++ [p.2]) ++ List.replicate last 0 →
    let token (k : Nat) : List Nat :=
      if k = 0 then [] else (bijDigits k).map fun d => if d = 1 then s.dig1.toNat else s.dig2.toNat
    let out : List Nat := runs.flatMap (fun p => token p.1 ++ [p.2]) ++ token last
    exec (.zrlEnc b) s = .next (s.putSeq (otherBuf b) out) ∧ 0 ∉ out ∧ out.length ≤ s.lenNat b

/-- spec/42_zrle.md R165: `ZRL.DEC`. The source is written as groups of digits, each ended by an element that is
neither 0 nor a digit symbol, with a last group (any group may be empty). If the expansion fits it completes; a
beginning of the source whose expansion does not fit raises `CapacityError`, whatever follows it (a literal 0
too); a literal 0 after a beginning that fits raises `SymbolRangeError` there. -/
def Obligations.ZrlDecExpandsGroups : Prop :=
  ∀ (s : State) (b : Bsel) (groups : List (List Nat × Nat)) (last : List Nat) (more : List Nat),
    s.fault = false → s.digitsOk → s.lenNat b ≤ 4096 →
    (∀ p ∈ groups, Digits p.1 ∧ p.2 ≠ 0 ∧ p.2 ≠ s.dig1.toNat ∧ p.2 ≠ s.dig2.toNat) → Digits last →
    let sym (d : Nat) : Nat := if d = 1 then s.dig1.toNat else s.dig2.toNat
    let tokens : List Nat := groups.flatMap (fun p => p.1.map sym ++ [p.2]) ++ last.map sym
    let out : List Nat :=
      groups.flatMap (fun p => List.replicate (bijValue p.1) 0 ++ [p.2]) ++ List.replicate (bijValue last) 0
    let refused (code : Word) (info : Nat) : Prop := exec (.zrlDec b) s = .next { s with
      fault := true, err := code, errinfo := BitVec.ofNat 32 info, errcmd := encode (.zrlDec b) }
    (s.source b = tokens → out.length ≤ 4096 → exec (.zrlDec b) s = .next (s.putSeq (otherBuf b) out)) ∧
    (s.source b = tokens ++ more → 4096 < out.length → refused 8 0) ∧
    (s.source b = tokens ++ 0 :: more → out.length ≤ 4096 → refused 9 tokens.length)

/-- spec/42_zrle.md R166: `ZRL.ENC b` then `ZRL.DEC (1-b)` give the stream back, and `ZRL.ENC` after a completed
`ZRL.DEC` gives the tokens back. -/
def Obligations.ZrlRoundTrip : Prop :=
  (∀ (s : State) (b : Bsel), s.fault = false → s.digitsOk → s.lenNat b ≤ 4096 →
    (∀ v ∈ s.source b, v ≠ s.dig1.toNat ∧ v ≠ s.dig2.toNat) →
    ∃ t u, exec (.zrlEnc b) s = .next t ∧ exec (.zrlDec (otherBuf b)) t = .next u ∧
      t.fault = false ∧ u.fault = false ∧ u.source b = s.source b ∧ u.len b = s.len b) ∧
  ∀ (s t : State) (b : Bsel), s.fault = false → exec (.zrlDec b) s = .next t → t.fault = false →
    ∃ u, exec (.zrlEnc (otherBuf b)) t = .next u ∧ u.fault = false ∧
      u.source b = s.source b ∧ u.len b = s.len b

/-- spec/42_zrle.md R170: `BIJ.ENC` writes the one digit sequence whose value is `ARG0`; 0 has none. -/
def Obligations.BijEncWritesTheNumeral : Prop :=
  ∀ (s : State) (b : Bsel), s.fault = false → s.digitsOk →
    (s.arg0 ≠ 0 → ∃ d : List Nat, d ≠ [] ∧ d.length ≤ 32 ∧ Digits d ∧ bijValue d = s.arg0.toNat ∧
      exec (.bijEnc b) s = .next (s.putSeq b
        (d.map fun x => if x = 1 then s.dig1.toNat else s.dig2.toNat))) ∧
    (s.arg0 = 0 → exec (.bijEnc b) s = .next { s with
      fault := true, err := 2, errinfo := 0, errcmd := encode (.bijEnc b) })


/-- spec/42_zrle.md R172, R174: `BIJ.DEC` puts the exact value of the digit symbols into `RES0` when it fits, and
so gives back the number `BIJ.ENC` has written. -/
def Obligations.BijDecReadsTheNumeral : Prop :=
  (∀ (s : State) (b : Bsel) (d : List Nat), s.fault = false → s.digitsOk → s.lenNat b ≤ 4096 → Digits d →
    s.source b = d.map (fun x => if x = 1 then s.dig1.toNat else s.dig2.toNat) →
    let refused (code : Word) : Prop := exec (.bijDec b) s = .next { s with
      fault := true, err := code, errinfo := 0, errcmd := encode (.bijDec b) }
    (d = [] → refused 2) ∧
    (d ≠ [] → bijValue d ≤ 4294967295 →
      exec (.bijDec b) s = .next { s with res0 := BitVec.ofNat 32 (bijValue d) }) ∧
    (4294967295 < bijValue d → refused 8)) ∧
  ∀ (s : State) (b : Bsel), s.fault = false → s.digitsOk → s.arg0 ≠ 0 →
    ∃ t u, exec (.bijEnc b) s = .next t ∧ exec (.bijDec b) t = .next u ∧
      t.fault = false ∧ u.fault = false ∧ u.res0 = s.arg0

/-! ### Priority Queue -/

/-- spec/43_pq.md R187, R188, R189: insert and extract are the loops `SiftUp` and `SiftDown` run to their end. The
loops are stated by their own equations, with any number of rounds that suffices. -/
def Obligations.QueueLoopsRunToTheirEnd : Prop :=
  (∀ (H : List Entry) (fuel i : Nat), i ≤ fuel →
    siftUp fuel H i =
      if 0 < i ∧ (entryAt H i).key.toNat < (entryAt H ((i - 1) / 2)).key.toNat then
        siftUp ((i - 1) / 2) (swapAt H i ((i - 1) / 2)) ((i - 1) / 2)
      else H) ∧
  (∀ (H : List Entry) (fuel i : Nat), H.length ≤ fuel + i →
    siftDown fuel H i =
      if H.length ≤ 2 * i + 1 then H
      else
        let c := if 2 * i + 2 < H.length ∧ (entryAt H (2 * i + 2)).key.toNat < (entryAt H (2 * i + 1)).key.toNat
          then 2 * i + 2 else 2 * i + 1
        if (entryAt H c).key.toNat < (entryAt H i).key.toNat then siftDown (H.length - c) (swapAt H c i) c else H) ∧
  (∀ (H : List Entry) (e : Entry), pqInsert H e = siftUp H.length (H ++ [e]) H.length) ∧
  ∀ (e l : Entry) (mid : List Entry),
    pqExtract (e :: (mid ++ [l])) = (e, siftDown (mid.length + 1) (l :: mid) 0) ∧ pqExtract [e] = (e, [])

/-- spec/43_pq.md R190: `PQ.CLR` completes with the empty queue and changes nothing else. -/
def Obligations.PqClrEmptiesTheQueue : Prop :=
  ∀ s : State, s.fault = false →
    exec .pqClr s = .next { s with heap := [] } ∧ ({ s with heap := [] } : State).hsize = 0

/-- spec/43_pq.md R192: `PQ.INS` inserts `(ARG0, ARG1)` in a queue that is not full; the new queue holds the old
entries and the new one, is ordered if the old one was, and an entry whose key is not below its parent's stays
last. A full queue raises `CapacityError`. -/
def Obligations.PqInsAddsTheEntry : Prop :=
  ∀ s : State, s.fault = false →
    (s.heap.length < 512 →
      let e : Entry := ⟨s.arg0, s.arg1⟩
      let H := pqInsert s.heap e
      exec .pqIns s = .next { s with heap := H } ∧
        ({ s with heap := H } : State).hsize = s.hsize + 1 ∧
        H.Perm (s.heap ++ [e]) ∧ (HeapOrdered s.heap → HeapOrdered H) ∧
        ((s.heap = [] ∨ (entryAt s.heap ((s.heap.length - 1) / 2)).key.toNat ≤ s.arg0.toNat) →
          H = s.heap ++ [e])) ∧
    (512 ≤ s.heap.length → exec .pqIns s = .next { s with
      fault := true, err := 8, errinfo := 0, errcmd := encode .pqIns })

/-- spec/43_pq.md R194: `PQ.EXT` in a queue that is not empty takes the root out, which in an ordered queue has the
least key, and leaves the other entries, ordered if they were; an empty queue raises `EmptyQueueError`. -/
def Obligations.PqExtTakesAMinimum : Prop :=
  ∀ s : State, s.fault = false →
    (∀ e : Entry, s.heap[0]? = some e →
      let H := (pqExtract s.heap).2
      exec .pqExt s = .next { s with heap := H, res0 := e.key, res1 := e.val } ∧
        (e :: H).Perm s.heap ∧
        (HeapOrdered s.heap → HeapOrdered H ∧ ∀ x ∈ s.heap, e.key.toNat ≤ x.key.toNat)) ∧
    (s.heap = [] → exec .pqExt s = .next { s with
      fault := true, err := 1, errinfo := 0, errcmd := encode .pqExt })

/-! ### Huffman Coder -/

/-- spec/44_huffman.md R210: `HUF.CNT` completes with all counts written, the marker counted once; the counts of
the alphabet sum to `m + 1`. -/
def Obligations.HufCntCountsTheStream : Prop :=
  ∀ (s : State) (b : Bsel), s.fault = false → s.markerOk → s.lenNat b ≤ 4096 → MarkerFree s b →
    ∃ F : Cells Word, exec (.hufCnt b) s = .next { s with freq := F } ∧
      (∀ c < 512, (cellGet 0 F c).toNat =
        if c = s.eob.toNat then 1 else if c < s.asize.toNat then (s.source b).count c else 0) ∧
      ((List.range s.asize.toNat).map fun c => (cellGet 0 F c).toNat).sum = s.lenNat b + 1

/-- spec/44_huffman.md R213, R214: `HUF.BLD` completes on any counts with a 32-bit sum that are not all zero; its
arena is a function of the counts below `ASIZE` alone; what the completed build guarantees, among it that each
internal node's children are the two least of the nodes without a parent so far, the lesser one left. -/
def Obligations.HufBldBuildsATree : Prop :=
  ∃ build : List Word → List Node, ∀ s : State, s.fault = false → s.alphabetOk →
    let counts := (List.range s.asize.toNat).map s.freqAt
    let total := (counts.map fun f => f.toNat).sum
    let symbols := (List.range s.asize.toNat).filter fun c => decide (s.freqAt c ≠ 0)
    let nodes := build counts
    total ≤ 4294967295 → symbols ≠ [] →
      exec .hufBld s = .next { s with
        node := nodes, root := BitVec.ofNat 32 (nodes.length - 1),
        heap := [⟨BitVec.ofNat 32 total, BitVec.ofNat 32 (nodes.length - 1)⟩],
        treev := true, codev := false } ∧
      ArenaOk nodes symbols.length ∧
      (nodes.take symbols.length).map (fun nd => nd.sym.toNat) = symbols ∧
      (nodes.take symbols.length).map (fun nd => nd.cnt) = symbols.map s.freqAt ∧
      (nodeOf nodes (nodes.length - 1)).cnt.toNat = total ∧
      ∀ i, symbols.length ≤ i → i < nodes.length →
        (nodeOf nodes (nodeOf nodes i).left.toNat).cnt.toNat ≤ (nodeOf nodes (nodeOf nodes i).right.toNat).cnt.toNat ∧
        (∀ j < i, i < (nodeOf nodes j).par.toNat →
          (nodeOf nodes (nodeOf nodes i).right.toNat).cnt.toNat ≤ (nodeOf nodes j).cnt.toNat) ∧
        ∀ j, i < j → j < nodes.length → (nodeOf nodes i).cnt.toNat ≤ (nodeOf nodes j).cnt.toNat

/-- spec/44_huffman.md R220, R221: `HUF.TAB` completes when there is a tree; in a tree as a build leaves it, the
entry of a symbol is the path of its leaf and every other entry is none, no codeword is the beginning of another
and none is empty. -/
def Obligations.HufTabWritesLeafPaths : Prop :=
  ∀ s : State, s.fault = false → s.treev = true →
    ∃ C : Cells (Option Bits), exec .hufTab s = .next { s with code := C, codev := true } ∧
      (TreeOk s →
        (∀ c p, cellGet none C c = some p ↔ IsCodeword s.node s.root.toNat p c) ∧
        PrefixFree C ∧ ∀ c p, cellGet none C c = some p → p ≠ [])

/-- spec/44_huffman.md R225, spec/20_memory.md R80: `HUF.ENC` completes; the bitstream holds the codewords of the
source's symbols, then the marker's, then zero bits to the end of the last byte; bytes beyond stay. -/
def Obligations.HufEncWritesCodewords : Prop :=
  ∀ (s : State) (b : Bsel) (word : Nat → Bits), s.fault = false → s.codev = true → s.markerOk →
    s.lenNat b ≤ 4096 → MarkerFree s b → (∀ v ∈ s.source b, s.codeAt v = some (word v)) →
    s.codeAt s.eob.toNat = some (word s.eob.toNat) →
    let bits := (s.source b ++ [s.eob.toNat]).flatMap word
    let bytes := (bits.length + 7) / 8
    (bytes ≤ 16384 →
      ∃ m : List Host.Cell,
        exec (.hufEnc b) s = .next { s with
          bs := m, bslen := BitVec.ofNat 32 bytes, res0 := BitVec.ofNat 32 bits.length } ∧
        (∀ j < 8 * bytes, ({ s with bs := m } : State).bitAt j = bits.getD j false) ∧
        ∀ k, bytes ≤ k → cellGet 0 m k = s.bsAt k) ∧
    (16384 < bytes → exec (.hufEnc b) s = .next { s with
      fault := true, err := 8, errinfo := 0, errcmd := encode (.hufEnc b) })

/-- The scan of `HUF.ENC` (spec/44_huffman.md R225, checks 4 and 5): the first element that fails decides, range
before marker before codeword; the marker's own missing codeword has the index `m`. -/
def Obligations.HufEncScanReportsFirstFailure : Prop :=
  ∀ (s : State) (b : Bsel) (j : Nat), s.fault = false → s.codev = true → s.markerOk → s.lenNat b ≤ 4096 →
    (∀ i < j, (s.bufAt b i).toNat < s.asize.toNat ∧ (s.bufAt b i).toNat ≠ s.eob.toNat ∧
      s.codeAt (s.bufAt b i).toNat ≠ none) →
    let refused (code : Word) : Prop := exec (.hufEnc b) s = .next { s with
      fault := true, err := code, errinfo := BitVec.ofNat 32 j, errcmd := encode (.hufEnc b) }
    (j < s.lenNat b →
      (s.asize.toNat ≤ (s.bufAt b j).toNat → refused 9) ∧
      ((s.bufAt b j).toNat = s.eob.toNat → refused 3) ∧
      ((s.bufAt b j).toNat < s.asize.toNat → (s.bufAt b j).toNat ≠ s.eob.toNat →
        s.codeAt (s.bufAt b j).toNat = none → refused 4)) ∧
    (j = s.lenNat b → s.codeAt s.eob.toNat = none → refused 4)

/-- spec/44_huffman.md R230, R232: `HUF.DEC`. The bitstream begins with codewords of symbols other than the marker
(their symbols are `words`' second parts). If the marker's codeword follows, it completes whatever comes after;
if the bits end inside a codeword, or the bit 1 meets a single-leaf tree, it raises `UnknownSymbolError` with the
position where that codeword began; if a further symbol follows `NMAX` of them it raises `CapacityError`. -/
def Obligations.HufDecFollowsCodewords : Prop :=
  ∀ (s : State) (b : Bsel) (words : List (Bits × Nat)) (p rest : Bits),
    s.fault = false → s.treev = true → s.bslen.toNat ≤ 16384 → words.length ≤ 4096 →
    (∀ w ∈ words, IsCodeword s.node s.root.toNat w.1 w.2 ∧ w.2 ≠ s.eob.toNat) →
    let bits := words.flatMap (fun w => w.1)
    let refused (code : Word) (info : Nat) : Prop := exec (.hufDec b) s = .next { s with
      fault := true, err := code, errinfo := BitVec.ofNat 32 info, errcmd := encode (.hufDec b) }
    (s.stream = bits ++ p ++ rest → IsCodeword s.node s.root.toNat p s.eob.toNat →
      exec (.hufDec b) s = .next { s.putSeq b (words.map fun w => w.2) with
        res0 := BitVec.ofNat 32 (bits.length + p.length) }) ∧
    (s.stream = bits ++ p →
      (p = [] ∨ ∃ j, reach s.node s.root.toNat p = some j ∧ (nodeOf s.node j).leaf = false) →
      refused 4 bits.length) ∧
    (s.stream = bits ++ true :: rest → (nodeOf s.node s.root.toNat).leaf = true → refused 4 bits.length) ∧
    (∀ c, s.stream = bits ++ p ++ rest → words.length = 4096 → c ≠ s.eob.toNat →
      IsCodeword s.node s.root.toNat p c → refused 8 0)

/-- spec/44_huffman.md R233: the whole Huffman round trip from the source buffer to the other one. -/
def Obligations.HufRoundTrip : Prop :=
  ∀ (s : State) (b : Bsel), s.fault = false → s.markerOk → s.lenNat b ≤ 4096 → MarkerFree s b →
    ∃ counted built coded, exec (.hufCnt b) s = .next counted ∧ exec .hufBld counted = .next built ∧
      exec .hufTab built = .next coded ∧ coded.fault = false ∧
      ((coded.encodedBits (s.source b)).length ≤ 8 * 16384 →
        ∃ sent received, exec (.hufEnc b) coded = .next sent ∧
          exec (.hufDec (otherBuf b)) sent = .next received ∧
          sent.fault = false ∧ received.fault = false ∧
          received.source (otherBuf b) = s.source b ∧ received.len (otherBuf b) = s.len b ∧
          received.res0 = sent.res0)
end

