-- ==== Sys2Proof/Laws/State.lean ====
section
/-! SUPPORT. What each named update of the state does to each field of the state. The updates written with
`{ s with … }` need no lemma: their fields reduce. -/

namespace Sys2Proof.Machine

open Sys2Proof

/-! ### A buffer replaced -/

@[simp] theorem State.withBuf_fault (s : State) (b : Bsel) (m : Cells Sym) : (s.withBuf b m).fault = s.fault := by cases b <;> rfl
@[simp] theorem State.withBuf_treev (s : State) (b : Bsel) (m : Cells Sym) : (s.withBuf b m).treev = s.treev := by cases b <;> rfl
@[simp] theorem State.withBuf_codev (s : State) (b : Bsel) (m : Cells Sym) : (s.withBuf b m).codev = s.codev := by cases b <;> rfl
@[simp] theorem State.withBuf_err (s : State) (b : Bsel) (m : Cells Sym) : (s.withBuf b m).err = s.err := by cases b <;> rfl
@[simp] theorem State.withBuf_errinfo (s : State) (b : Bsel) (m : Cells Sym) : (s.withBuf b m).errinfo = s.errinfo := by cases b <;> rfl
@[simp] theorem State.withBuf_errcmd (s : State) (b : Bsel) (m : Cells Sym) : (s.withBuf b m).errcmd = s.errcmd := by cases b <;> rfl
@[simp] theorem State.withBuf_asize (s : State) (b : Bsel) (m : Cells Sym) : (s.withBuf b m).asize = s.asize := by cases b <;> rfl
@[simp] theorem State.withBuf_eob (s : State) (b : Bsel) (m : Cells Sym) : (s.withBuf b m).eob = s.eob := by cases b <;> rfl
@[simp] theorem State.withBuf_dig1 (s : State) (b : Bsel) (m : Cells Sym) : (s.withBuf b m).dig1 = s.dig1 := by cases b <;> rfl
@[simp] theorem State.withBuf_dig2 (s : State) (b : Bsel) (m : Cells Sym) : (s.withBuf b m).dig2 = s.dig2 := by cases b <;> rfl
@[simp] theorem State.withBuf_len0 (s : State) (b : Bsel) (m : Cells Sym) : (s.withBuf b m).len0 = s.len0 := by cases b <;> rfl
@[simp] theorem State.withBuf_len1 (s : State) (b : Bsel) (m : Cells Sym) : (s.withBuf b m).len1 = s.len1 := by cases b <;> rfl
@[simp] theorem State.withBuf_bslen (s : State) (b : Bsel) (m : Cells Sym) : (s.withBuf b m).bslen = s.bslen := by cases b <;> rfl
@[simp] theorem State.withBuf_mpos (s : State) (b : Bsel) (m : Cells Sym) : (s.withBuf b m).mpos = s.mpos := by cases b <;> rfl
@[simp] theorem State.withBuf_arg0 (s : State) (b : Bsel) (m : Cells Sym) : (s.withBuf b m).arg0 = s.arg0 := by cases b <;> rfl
@[simp] theorem State.withBuf_arg1 (s : State) (b : Bsel) (m : Cells Sym) : (s.withBuf b m).arg1 = s.arg1 := by cases b <;> rfl
@[simp] theorem State.withBuf_res0 (s : State) (b : Bsel) (m : Cells Sym) : (s.withBuf b m).res0 = s.res0 := by cases b <;> rfl
@[simp] theorem State.withBuf_res1 (s : State) (b : Bsel) (m : Cells Sym) : (s.withBuf b m).res1 = s.res1 := by cases b <;> rfl
@[simp] theorem State.withBuf_root (s : State) (b : Bsel) (m : Cells Sym) : (s.withBuf b m).root = s.root := by cases b <;> rfl
@[simp] theorem State.withBuf_bs (s : State) (b : Bsel) (m : Cells Sym) : (s.withBuf b m).bs = s.bs := by cases b <;> rfl
@[simp] theorem State.withBuf_freq (s : State) (b : Bsel) (m : Cells Sym) : (s.withBuf b m).freq = s.freq := by cases b <;> rfl
@[simp] theorem State.withBuf_heap (s : State) (b : Bsel) (m : Cells Sym) : (s.withBuf b m).heap = s.heap := by cases b <;> rfl
@[simp] theorem State.withBuf_node (s : State) (b : Bsel) (m : Cells Sym) : (s.withBuf b m).node = s.node := by cases b <;> rfl
@[simp] theorem State.withBuf_code (s : State) (b : Bsel) (m : Cells Sym) : (s.withBuf b m).code = s.code := by cases b <;> rfl
@[simp] theorem State.withBuf_pending (s : State) (b : Bsel) (m : Cells Sym) : (s.withBuf b m).pending = s.pending := by cases b <;> rfl
@[simp] theorem State.withBuf_pc (s : State) (b : Bsel) (m : Cells Sym) : (s.withBuf b m).pc = s.pc := by cases b <;> rfl
@[simp] theorem State.withBuf_reads (s : State) (b : Bsel) (m : Cells Sym) : (s.withBuf b m).reads = s.reads := by cases b <;> rfl

@[simp] theorem State.withBuf_buf (s : State) (b : Bsel) (m : Cells Sym) : (s.withBuf b m).buf b = m := by
  cases b <;> rfl
@[simp] theorem State.withBuf_buf_other (s : State) (b : Bsel) (m : Cells Sym) :
    (s.withBuf b m).buf (otherBuf b) = s.buf (otherBuf b) := by cases b <;> rfl
@[simp] theorem State.withBuf_len (s : State) (b d : Bsel) (m : Cells Sym) : (s.withBuf b m).len d = s.len d := by
  cases b <;> cases d <;> rfl

/-! ### A length replaced -/

@[simp] theorem State.withLen_fault (s : State) (b : Bsel) (v : Word) : (s.withLen b v).fault = s.fault := by cases b <;> rfl
@[simp] theorem State.withLen_treev (s : State) (b : Bsel) (v : Word) : (s.withLen b v).treev = s.treev := by cases b <;> rfl
@[simp] theorem State.withLen_codev (s : State) (b : Bsel) (v : Word) : (s.withLen b v).codev = s.codev := by cases b <;> rfl
@[simp] theorem State.withLen_err (s : State) (b : Bsel) (v : Word) : (s.withLen b v).err = s.err := by cases b <;> rfl
@[simp] theorem State.withLen_errinfo (s : State) (b : Bsel) (v : Word) : (s.withLen b v).errinfo = s.errinfo := by cases b <;> rfl
@[simp] theorem State.withLen_errcmd (s : State) (b : Bsel) (v : Word) : (s.withLen b v).errcmd = s.errcmd := by cases b <;> rfl
@[simp] theorem State.withLen_asize (s : State) (b : Bsel) (v : Word) : (s.withLen b v).asize = s.asize := by cases b <;> rfl
@[simp] theorem State.withLen_eob (s : State) (b : Bsel) (v : Word) : (s.withLen b v).eob = s.eob := by cases b <;> rfl
@[simp] theorem State.withLen_dig1 (s : State) (b : Bsel) (v : Word) : (s.withLen b v).dig1 = s.dig1 := by cases b <;> rfl
@[simp] theorem State.withLen_dig2 (s : State) (b : Bsel) (v : Word) : (s.withLen b v).dig2 = s.dig2 := by cases b <;> rfl
@[simp] theorem State.withLen_bslen (s : State) (b : Bsel) (v : Word) : (s.withLen b v).bslen = s.bslen := by cases b <;> rfl
@[simp] theorem State.withLen_mpos (s : State) (b : Bsel) (v : Word) : (s.withLen b v).mpos = s.mpos := by cases b <;> rfl
@[simp] theorem State.withLen_arg0 (s : State) (b : Bsel) (v : Word) : (s.withLen b v).arg0 = s.arg0 := by cases b <;> rfl
@[simp] theorem State.withLen_arg1 (s : State) (b : Bsel) (v : Word) : (s.withLen b v).arg1 = s.arg1 := by cases b <;> rfl
@[simp] theorem State.withLen_res0 (s : State) (b : Bsel) (v : Word) : (s.withLen b v).res0 = s.res0 := by cases b <;> rfl
@[simp] theorem State.withLen_res1 (s : State) (b : Bsel) (v : Word) : (s.withLen b v).res1 = s.res1 := by cases b <;> rfl
@[simp] theorem State.withLen_root (s : State) (b : Bsel) (v : Word) : (s.withLen b v).root = s.root := by cases b <;> rfl
@[simp] theorem State.withLen_buf0 (s : State) (b : Bsel) (v : Word) : (s.withLen b v).buf0 = s.buf0 := by cases b <;> rfl
@[simp] theorem State.withLen_buf1 (s : State) (b : Bsel) (v : Word) : (s.withLen b v).buf1 = s.buf1 := by cases b <;> rfl
@[simp] theorem State.withLen_bs (s : State) (b : Bsel) (v : Word) : (s.withLen b v).bs = s.bs := by cases b <;> rfl
@[simp] theorem State.withLen_freq (s : State) (b : Bsel) (v : Word) : (s.withLen b v).freq = s.freq := by cases b <;> rfl
@[simp] theorem State.withLen_heap (s : State) (b : Bsel) (v : Word) : (s.withLen b v).heap = s.heap := by cases b <;> rfl
@[simp] theorem State.withLen_node (s : State) (b : Bsel) (v : Word) : (s.withLen b v).node = s.node := by cases b <;> rfl
@[simp] theorem State.withLen_code (s : State) (b : Bsel) (v : Word) : (s.withLen b v).code = s.code := by cases b <;> rfl
@[simp] theorem State.withLen_pending (s : State) (b : Bsel) (v : Word) : (s.withLen b v).pending = s.pending := by cases b <;> rfl
@[simp] theorem State.withLen_pc (s : State) (b : Bsel) (v : Word) : (s.withLen b v).pc = s.pc := by cases b <;> rfl
@[simp] theorem State.withLen_reads (s : State) (b : Bsel) (v : Word) : (s.withLen b v).reads = s.reads := by cases b <;> rfl

@[simp] theorem State.withLen_len (s : State) (b : Bsel) (v : Word) : (s.withLen b v).len b = v := by
  cases b <;> rfl
@[simp] theorem State.withLen_len_other (s : State) (b : Bsel) (v : Word) :
    (s.withLen b v).len (otherBuf b) = s.len (otherBuf b) := by cases b <;> rfl
@[simp] theorem State.withLen_buf (s : State) (b d : Bsel) (v : Word) : (s.withLen b v).buf d = s.buf d := by
  cases b <;> cases d <;> rfl

/-! ### A sequence written -/

@[simp] theorem State.putSeq_fault (s : State) (d : Bsel) (vs : List Nat) : (s.putSeq d vs).fault = s.fault := by cases d <;> rfl
@[simp] theorem State.putSeq_treev (s : State) (d : Bsel) (vs : List Nat) : (s.putSeq d vs).treev = s.treev := by cases d <;> rfl
@[simp] theorem State.putSeq_codev (s : State) (d : Bsel) (vs : List Nat) : (s.putSeq d vs).codev = s.codev := by cases d <;> rfl
@[simp] theorem State.putSeq_err (s : State) (d : Bsel) (vs : List Nat) : (s.putSeq d vs).err = s.err := by cases d <;> rfl
@[simp] theorem State.putSeq_errinfo (s : State) (d : Bsel) (vs : List Nat) : (s.putSeq d vs).errinfo = s.errinfo := by cases d <;> rfl
@[simp] theorem State.putSeq_errcmd (s : State) (d : Bsel) (vs : List Nat) : (s.putSeq d vs).errcmd = s.errcmd := by cases d <;> rfl
@[simp] theorem State.putSeq_asize (s : State) (d : Bsel) (vs : List Nat) : (s.putSeq d vs).asize = s.asize := by cases d <;> rfl
@[simp] theorem State.putSeq_eob (s : State) (d : Bsel) (vs : List Nat) : (s.putSeq d vs).eob = s.eob := by cases d <;> rfl
@[simp] theorem State.putSeq_dig1 (s : State) (d : Bsel) (vs : List Nat) : (s.putSeq d vs).dig1 = s.dig1 := by cases d <;> rfl
@[simp] theorem State.putSeq_dig2 (s : State) (d : Bsel) (vs : List Nat) : (s.putSeq d vs).dig2 = s.dig2 := by cases d <;> rfl
@[simp] theorem State.putSeq_bslen (s : State) (d : Bsel) (vs : List Nat) : (s.putSeq d vs).bslen = s.bslen := by cases d <;> rfl
@[simp] theorem State.putSeq_mpos (s : State) (d : Bsel) (vs : List Nat) : (s.putSeq d vs).mpos = s.mpos := by cases d <;> rfl
@[simp] theorem State.putSeq_arg0 (s : State) (d : Bsel) (vs : List Nat) : (s.putSeq d vs).arg0 = s.arg0 := by cases d <;> rfl
@[simp] theorem State.putSeq_arg1 (s : State) (d : Bsel) (vs : List Nat) : (s.putSeq d vs).arg1 = s.arg1 := by cases d <;> rfl
@[simp] theorem State.putSeq_res0 (s : State) (d : Bsel) (vs : List Nat) : (s.putSeq d vs).res0 = s.res0 := by cases d <;> rfl
@[simp] theorem State.putSeq_res1 (s : State) (d : Bsel) (vs : List Nat) : (s.putSeq d vs).res1 = s.res1 := by cases d <;> rfl
@[simp] theorem State.putSeq_root (s : State) (d : Bsel) (vs : List Nat) : (s.putSeq d vs).root = s.root := by cases d <;> rfl
@[simp] theorem State.putSeq_bs (s : State) (d : Bsel) (vs : List Nat) : (s.putSeq d vs).bs = s.bs := by cases d <;> rfl
@[simp] theorem State.putSeq_freq (s : State) (d : Bsel) (vs : List Nat) : (s.putSeq d vs).freq = s.freq := by cases d <;> rfl
@[simp] theorem State.putSeq_heap (s : State) (d : Bsel) (vs : List Nat) : (s.putSeq d vs).heap = s.heap := by cases d <;> rfl
@[simp] theorem State.putSeq_node (s : State) (d : Bsel) (vs : List Nat) : (s.putSeq d vs).node = s.node := by cases d <;> rfl
@[simp] theorem State.putSeq_code (s : State) (d : Bsel) (vs : List Nat) : (s.putSeq d vs).code = s.code := by cases d <;> rfl
@[simp] theorem State.putSeq_pending (s : State) (d : Bsel) (vs : List Nat) : (s.putSeq d vs).pending = s.pending := by cases d <;> rfl
@[simp] theorem State.putSeq_pc (s : State) (d : Bsel) (vs : List Nat) : (s.putSeq d vs).pc = s.pc := by cases d <;> rfl
@[simp] theorem State.putSeq_reads (s : State) (d : Bsel) (vs : List Nat) : (s.putSeq d vs).reads = s.reads := by cases d <;> rfl

@[simp] theorem State.putSeq_buf (s : State) (d : Bsel) (vs : List Nat) :
    (s.putSeq d vs).buf d = writeFrom 0 (s.buf d) 0 (vs.map (BitVec.ofNat 16)) := by cases d <;> rfl
@[simp] theorem State.putSeq_len (s : State) (d : Bsel) (vs : List Nat) :
    (s.putSeq d vs).len d = BitVec.ofNat 32 vs.length := by cases d <;> rfl
@[simp] theorem State.putSeq_buf_other (s : State) (d : Bsel) (vs : List Nat) :
    (s.putSeq d vs).buf (otherBuf d) = s.buf (otherBuf d) := by cases d <;> rfl
@[simp] theorem State.putSeq_len_other (s : State) (d : Bsel) (vs : List Nat) :
    (s.putSeq d vs).len (otherBuf d) = s.len (otherBuf d) := by cases d <;> rfl

/-! ### A fault taken -/

@[simp] theorem State.raise_fault (s : State) (w : Word) (r : Raised) : (s.raise w r).fault = true := rfl
@[simp] theorem State.raise_treev (s : State) (w : Word) (r : Raised) : (s.raise w r).treev = s.treev := rfl
@[simp] theorem State.raise_codev (s : State) (w : Word) (r : Raised) : (s.raise w r).codev = s.codev := rfl
@[simp] theorem State.raise_err (s : State) (w : Word) (r : Raised) : (s.raise w r).err = r.kind.code := rfl
@[simp] theorem State.raise_errinfo (s : State) (w : Word) (r : Raised) : (s.raise w r).errinfo = BitVec.ofNat 32 r.info := rfl
@[simp] theorem State.raise_errcmd (s : State) (w : Word) (r : Raised) : (s.raise w r).errcmd = w := rfl
@[simp] theorem State.raise_asize (s : State) (w : Word) (r : Raised) : (s.raise w r).asize = s.asize := rfl
@[simp] theorem State.raise_eob (s : State) (w : Word) (r : Raised) : (s.raise w r).eob = s.eob := rfl
@[simp] theorem State.raise_dig1 (s : State) (w : Word) (r : Raised) : (s.raise w r).dig1 = s.dig1 := rfl
@[simp] theorem State.raise_dig2 (s : State) (w : Word) (r : Raised) : (s.raise w r).dig2 = s.dig2 := rfl
@[simp] theorem State.raise_len0 (s : State) (w : Word) (r : Raised) : (s.raise w r).len0 = s.len0 := rfl
@[simp] theorem State.raise_len1 (s : State) (w : Word) (r : Raised) : (s.raise w r).len1 = s.len1 := rfl
@[simp] theorem State.raise_bslen (s : State) (w : Word) (r : Raised) : (s.raise w r).bslen = s.bslen := rfl
@[simp] theorem State.raise_mpos (s : State) (w : Word) (r : Raised) : (s.raise w r).mpos = s.mpos := rfl
@[simp] theorem State.raise_arg0 (s : State) (w : Word) (r : Raised) : (s.raise w r).arg0 = s.arg0 := rfl
@[simp] theorem State.raise_arg1 (s : State) (w : Word) (r : Raised) : (s.raise w r).arg1 = s.arg1 := rfl
@[simp] theorem State.raise_res0 (s : State) (w : Word) (r : Raised) : (s.raise w r).res0 = s.res0 := rfl
@[simp] theorem State.raise_res1 (s : State) (w : Word) (r : Raised) : (s.raise w r).res1 = s.res1 := rfl
@[simp] theorem State.raise_root (s : State) (w : Word) (r : Raised) : (s.raise w r).root = s.root := rfl
@[simp] theorem State.raise_buf0 (s : State) (w : Word) (r : Raised) : (s.raise w r).buf0 = s.buf0 := rfl
@[simp] theorem State.raise_buf1 (s : State) (w : Word) (r : Raised) : (s.raise w r).buf1 = s.buf1 := rfl
@[simp] theorem State.raise_bs (s : State) (w : Word) (r : Raised) : (s.raise w r).bs = s.bs := rfl
@[simp] theorem State.raise_freq (s : State) (w : Word) (r : Raised) : (s.raise w r).freq = s.freq := rfl
@[simp] theorem State.raise_heap (s : State) (w : Word) (r : Raised) : (s.raise w r).heap = s.heap := rfl
@[simp] theorem State.raise_node (s : State) (w : Word) (r : Raised) : (s.raise w r).node = s.node := rfl
@[simp] theorem State.raise_code (s : State) (w : Word) (r : Raised) : (s.raise w r).code = s.code := rfl
@[simp] theorem State.raise_pending (s : State) (w : Word) (r : Raised) : (s.raise w r).pending = s.pending := rfl
@[simp] theorem State.raise_pc (s : State) (w : Word) (r : Raised) : (s.raise w r).pc = s.pc := rfl
@[simp] theorem State.raise_reads (s : State) (w : Word) (r : Raised) : (s.raise w r).reads = s.reads := rfl

@[simp] theorem State.raise_buf (s : State) (w : Word) (r : Raised) (b : Bsel) : (s.raise w r).buf b = s.buf b := by
  cases b <;> rfl
@[simp] theorem State.raise_len (s : State) (w : Word) (r : Raised) (b : Bsel) : (s.raise w r).len b = s.len b := by
  cases b <;> rfl
@[simp] theorem State.raise_bufAt (s : State) (w : Word) (r : Raised) (b : Bsel) (i : Nat) :
    (s.raise w r).bufAt b i = s.bufAt b i := by cases b <;> rfl
@[simp] theorem State.raise_source (s : State) (w : Word) (r : Raised) (b : Bsel) :
    (s.raise w r).source b = s.source b := by cases b <;> rfl

/-! ### The flags -/

@[simp] theorem State.markTree_fault (s : State) : (s.markTree).fault = s.fault := rfl
@[simp] theorem State.markTree_treev (s : State) : (s.markTree).treev = true := rfl
@[simp] theorem State.markTree_codev (s : State) : (s.markTree).codev = false := rfl
@[simp] theorem State.markTree_err (s : State) : (s.markTree).err = s.err := rfl
@[simp] theorem State.markTree_errinfo (s : State) : (s.markTree).errinfo = s.errinfo := rfl
@[simp] theorem State.markTree_errcmd (s : State) : (s.markTree).errcmd = s.errcmd := rfl
@[simp] theorem State.markTree_asize (s : State) : (s.markTree).asize = s.asize := rfl
@[simp] theorem State.markTree_eob (s : State) : (s.markTree).eob = s.eob := rfl
@[simp] theorem State.markTree_dig1 (s : State) : (s.markTree).dig1 = s.dig1 := rfl
@[simp] theorem State.markTree_dig2 (s : State) : (s.markTree).dig2 = s.dig2 := rfl
@[simp] theorem State.markTree_len0 (s : State) : (s.markTree).len0 = s.len0 := rfl
@[simp] theorem State.markTree_len1 (s : State) : (s.markTree).len1 = s.len1 := rfl
@[simp] theorem State.markTree_bslen (s : State) : (s.markTree).bslen = s.bslen := rfl
@[simp] theorem State.markTree_mpos (s : State) : (s.markTree).mpos = s.mpos := rfl
@[simp] theorem State.markTree_arg0 (s : State) : (s.markTree).arg0 = s.arg0 := rfl
@[simp] theorem State.markTree_arg1 (s : State) : (s.markTree).arg1 = s.arg1 := rfl
@[simp] theorem State.markTree_res0 (s : State) : (s.markTree).res0 = s.res0 := rfl
@[simp] theorem State.markTree_res1 (s : State) : (s.markTree).res1 = s.res1 := rfl
@[simp] theorem State.markTree_root (s : State) : (s.markTree).root = s.root := rfl
@[simp] theorem State.markTree_buf0 (s : State) : (s.markTree).buf0 = s.buf0 := rfl
@[simp] theorem State.markTree_buf1 (s : State) : (s.markTree).buf1 = s.buf1 := rfl
@[simp] theorem State.markTree_bs (s : State) : (s.markTree).bs = s.bs := rfl
@[simp] theorem State.markTree_freq (s : State) : (s.markTree).freq = s.freq := rfl
@[simp] theorem State.markTree_heap (s : State) : (s.markTree).heap = s.heap := rfl
@[simp] theorem State.markTree_node (s : State) : (s.markTree).node = s.node := rfl
@[simp] theorem State.markTree_code (s : State) : (s.markTree).code = s.code := rfl
@[simp] theorem State.markTree_pending (s : State) : (s.markTree).pending = s.pending := rfl
@[simp] theorem State.markTree_pc (s : State) : (s.markTree).pc = s.pc := rfl
@[simp] theorem State.markTree_reads (s : State) : (s.markTree).reads = s.reads := rfl

/-! ### The code table is valid -/

@[simp] theorem State.markCode_fault (s : State) : (s.markCode).fault = s.fault := rfl
@[simp] theorem State.markCode_treev (s : State) : (s.markCode).treev = s.treev := rfl
@[simp] theorem State.markCode_codev (s : State) : (s.markCode).codev = true := rfl
@[simp] theorem State.markCode_err (s : State) : (s.markCode).err = s.err := rfl
@[simp] theorem State.markCode_errinfo (s : State) : (s.markCode).errinfo = s.errinfo := rfl
@[simp] theorem State.markCode_errcmd (s : State) : (s.markCode).errcmd = s.errcmd := rfl
@[simp] theorem State.markCode_asize (s : State) : (s.markCode).asize = s.asize := rfl
@[simp] theorem State.markCode_eob (s : State) : (s.markCode).eob = s.eob := rfl
@[simp] theorem State.markCode_dig1 (s : State) : (s.markCode).dig1 = s.dig1 := rfl
@[simp] theorem State.markCode_dig2 (s : State) : (s.markCode).dig2 = s.dig2 := rfl
@[simp] theorem State.markCode_len0 (s : State) : (s.markCode).len0 = s.len0 := rfl
@[simp] theorem State.markCode_len1 (s : State) : (s.markCode).len1 = s.len1 := rfl
@[simp] theorem State.markCode_bslen (s : State) : (s.markCode).bslen = s.bslen := rfl
@[simp] theorem State.markCode_mpos (s : State) : (s.markCode).mpos = s.mpos := rfl
@[simp] theorem State.markCode_arg0 (s : State) : (s.markCode).arg0 = s.arg0 := rfl
@[simp] theorem State.markCode_arg1 (s : State) : (s.markCode).arg1 = s.arg1 := rfl
@[simp] theorem State.markCode_res0 (s : State) : (s.markCode).res0 = s.res0 := rfl
@[simp] theorem State.markCode_res1 (s : State) : (s.markCode).res1 = s.res1 := rfl
@[simp] theorem State.markCode_root (s : State) : (s.markCode).root = s.root := rfl
@[simp] theorem State.markCode_buf0 (s : State) : (s.markCode).buf0 = s.buf0 := rfl
@[simp] theorem State.markCode_buf1 (s : State) : (s.markCode).buf1 = s.buf1 := rfl
@[simp] theorem State.markCode_bs (s : State) : (s.markCode).bs = s.bs := rfl
@[simp] theorem State.markCode_freq (s : State) : (s.markCode).freq = s.freq := rfl
@[simp] theorem State.markCode_heap (s : State) : (s.markCode).heap = s.heap := rfl
@[simp] theorem State.markCode_node (s : State) : (s.markCode).node = s.node := rfl
@[simp] theorem State.markCode_code (s : State) : (s.markCode).code = s.code := rfl
@[simp] theorem State.markCode_pending (s : State) : (s.markCode).pending = s.pending := rfl
@[simp] theorem State.markCode_pc (s : State) : (s.markCode).pc = s.pc := rfl
@[simp] theorem State.markCode_reads (s : State) : (s.markCode).reads = s.reads := rfl

/-! ### A built tree in place -/

@[simp] theorem State.installTree_fault (s : State) (built : List Node × List Entry) : (s.installTree built).fault = s.fault := rfl
@[simp] theorem State.installTree_treev (s : State) (built : List Node × List Entry) : (s.installTree built).treev = true := rfl
@[simp] theorem State.installTree_codev (s : State) (built : List Node × List Entry) : (s.installTree built).codev = false := rfl
@[simp] theorem State.installTree_err (s : State) (built : List Node × List Entry) : (s.installTree built).err = s.err := rfl
@[simp] theorem State.installTree_errinfo (s : State) (built : List Node × List Entry) : (s.installTree built).errinfo = s.errinfo := rfl
@[simp] theorem State.installTree_errcmd (s : State) (built : List Node × List Entry) : (s.installTree built).errcmd = s.errcmd := rfl
@[simp] theorem State.installTree_asize (s : State) (built : List Node × List Entry) : (s.installTree built).asize = s.asize := rfl
@[simp] theorem State.installTree_eob (s : State) (built : List Node × List Entry) : (s.installTree built).eob = s.eob := rfl
@[simp] theorem State.installTree_dig1 (s : State) (built : List Node × List Entry) : (s.installTree built).dig1 = s.dig1 := rfl
@[simp] theorem State.installTree_dig2 (s : State) (built : List Node × List Entry) : (s.installTree built).dig2 = s.dig2 := rfl
@[simp] theorem State.installTree_len0 (s : State) (built : List Node × List Entry) : (s.installTree built).len0 = s.len0 := rfl
@[simp] theorem State.installTree_len1 (s : State) (built : List Node × List Entry) : (s.installTree built).len1 = s.len1 := rfl
@[simp] theorem State.installTree_bslen (s : State) (built : List Node × List Entry) : (s.installTree built).bslen = s.bslen := rfl
@[simp] theorem State.installTree_mpos (s : State) (built : List Node × List Entry) : (s.installTree built).mpos = s.mpos := rfl
@[simp] theorem State.installTree_arg0 (s : State) (built : List Node × List Entry) : (s.installTree built).arg0 = s.arg0 := rfl
@[simp] theorem State.installTree_arg1 (s : State) (built : List Node × List Entry) : (s.installTree built).arg1 = s.arg1 := rfl
@[simp] theorem State.installTree_res0 (s : State) (built : List Node × List Entry) : (s.installTree built).res0 = s.res0 := rfl
@[simp] theorem State.installTree_res1 (s : State) (built : List Node × List Entry) : (s.installTree built).res1 = s.res1 := rfl
@[simp] theorem State.installTree_root (s : State) (built : List Node × List Entry) : (s.installTree built).root = (entryAt built.2 0).val := rfl
@[simp] theorem State.installTree_buf0 (s : State) (built : List Node × List Entry) : (s.installTree built).buf0 = s.buf0 := rfl
@[simp] theorem State.installTree_buf1 (s : State) (built : List Node × List Entry) : (s.installTree built).buf1 = s.buf1 := rfl
@[simp] theorem State.installTree_bs (s : State) (built : List Node × List Entry) : (s.installTree built).bs = s.bs := rfl
@[simp] theorem State.installTree_freq (s : State) (built : List Node × List Entry) : (s.installTree built).freq = s.freq := rfl
@[simp] theorem State.installTree_heap (s : State) (built : List Node × List Entry) : (s.installTree built).heap = built.2 := rfl
@[simp] theorem State.installTree_node (s : State) (built : List Node × List Entry) : (s.installTree built).node = built.1 := rfl
@[simp] theorem State.installTree_code (s : State) (built : List Node × List Entry) : (s.installTree built).code = s.code := rfl
@[simp] theorem State.installTree_pending (s : State) (built : List Node × List Entry) : (s.installTree built).pending = s.pending := rfl
@[simp] theorem State.installTree_pc (s : State) (built : List Node × List Entry) : (s.installTree built).pc = s.pc := rfl
@[simp] theorem State.installTree_reads (s : State) (built : List Node × List Entry) : (s.installTree built).reads = s.reads := rfl

/-! ### A bit sequence in place -/

@[simp] theorem State.putBits_fault (s : State) (bits : Bits) : (s.putBits bits).fault = s.fault := rfl
@[simp] theorem State.putBits_treev (s : State) (bits : Bits) : (s.putBits bits).treev = s.treev := rfl
@[simp] theorem State.putBits_codev (s : State) (bits : Bits) : (s.putBits bits).codev = s.codev := rfl
@[simp] theorem State.putBits_err (s : State) (bits : Bits) : (s.putBits bits).err = s.err := rfl
@[simp] theorem State.putBits_errinfo (s : State) (bits : Bits) : (s.putBits bits).errinfo = s.errinfo := rfl
@[simp] theorem State.putBits_errcmd (s : State) (bits : Bits) : (s.putBits bits).errcmd = s.errcmd := rfl
@[simp] theorem State.putBits_asize (s : State) (bits : Bits) : (s.putBits bits).asize = s.asize := rfl
@[simp] theorem State.putBits_eob (s : State) (bits : Bits) : (s.putBits bits).eob = s.eob := rfl
@[simp] theorem State.putBits_dig1 (s : State) (bits : Bits) : (s.putBits bits).dig1 = s.dig1 := rfl
@[simp] theorem State.putBits_dig2 (s : State) (bits : Bits) : (s.putBits bits).dig2 = s.dig2 := rfl
@[simp] theorem State.putBits_len0 (s : State) (bits : Bits) : (s.putBits bits).len0 = s.len0 := rfl
@[simp] theorem State.putBits_len1 (s : State) (bits : Bits) : (s.putBits bits).len1 = s.len1 := rfl
@[simp] theorem State.putBits_bslen (s : State) (bits : Bits) : (s.putBits bits).bslen = BitVec.ofNat 32 (packBits bits).length := rfl
@[simp] theorem State.putBits_mpos (s : State) (bits : Bits) : (s.putBits bits).mpos = s.mpos := rfl
@[simp] theorem State.putBits_arg0 (s : State) (bits : Bits) : (s.putBits bits).arg0 = s.arg0 := rfl
@[simp] theorem State.putBits_arg1 (s : State) (bits : Bits) : (s.putBits bits).arg1 = s.arg1 := rfl
@[simp] theorem State.putBits_res0 (s : State) (bits : Bits) : (s.putBits bits).res0 = BitVec.ofNat 32 bits.length := rfl
@[simp] theorem State.putBits_res1 (s : State) (bits : Bits) : (s.putBits bits).res1 = s.res1 := rfl
@[simp] theorem State.putBits_root (s : State) (bits : Bits) : (s.putBits bits).root = s.root := rfl
@[simp] theorem State.putBits_buf0 (s : State) (bits : Bits) : (s.putBits bits).buf0 = s.buf0 := rfl
@[simp] theorem State.putBits_buf1 (s : State) (bits : Bits) : (s.putBits bits).buf1 = s.buf1 := rfl
@[simp] theorem State.putBits_bs (s : State) (bits : Bits) : (s.putBits bits).bs = writeFrom 0 s.bs 0 (packBits bits) := rfl
@[simp] theorem State.putBits_freq (s : State) (bits : Bits) : (s.putBits bits).freq = s.freq := rfl
@[simp] theorem State.putBits_heap (s : State) (bits : Bits) : (s.putBits bits).heap = s.heap := rfl
@[simp] theorem State.putBits_node (s : State) (bits : Bits) : (s.putBits bits).node = s.node := rfl
@[simp] theorem State.putBits_code (s : State) (bits : Bits) : (s.putBits bits).code = s.code := rfl
@[simp] theorem State.putBits_pending (s : State) (bits : Bits) : (s.putBits bits).pending = s.pending := rfl
@[simp] theorem State.putBits_pc (s : State) (bits : Bits) : (s.putBits bits).pc = s.pc := rfl
@[simp] theorem State.putBits_reads (s : State) (bits : Bits) : (s.putBits bits).reads = s.reads := rfl

/-! ### The host moves on -/

@[simp] theorem State.advance_fault (s : State) : (s.advance).fault = s.fault := rfl
@[simp] theorem State.advance_treev (s : State) : (s.advance).treev = s.treev := rfl
@[simp] theorem State.advance_codev (s : State) : (s.advance).codev = s.codev := rfl
@[simp] theorem State.advance_err (s : State) : (s.advance).err = s.err := rfl
@[simp] theorem State.advance_errinfo (s : State) : (s.advance).errinfo = s.errinfo := rfl
@[simp] theorem State.advance_errcmd (s : State) : (s.advance).errcmd = s.errcmd := rfl
@[simp] theorem State.advance_asize (s : State) : (s.advance).asize = s.asize := rfl
@[simp] theorem State.advance_eob (s : State) : (s.advance).eob = s.eob := rfl
@[simp] theorem State.advance_dig1 (s : State) : (s.advance).dig1 = s.dig1 := rfl
@[simp] theorem State.advance_dig2 (s : State) : (s.advance).dig2 = s.dig2 := rfl
@[simp] theorem State.advance_len0 (s : State) : (s.advance).len0 = s.len0 := rfl
@[simp] theorem State.advance_len1 (s : State) : (s.advance).len1 = s.len1 := rfl
@[simp] theorem State.advance_bslen (s : State) : (s.advance).bslen = s.bslen := rfl
@[simp] theorem State.advance_mpos (s : State) : (s.advance).mpos = s.mpos := rfl
@[simp] theorem State.advance_arg0 (s : State) : (s.advance).arg0 = s.arg0 := rfl
@[simp] theorem State.advance_arg1 (s : State) : (s.advance).arg1 = s.arg1 := rfl
@[simp] theorem State.advance_res0 (s : State) : (s.advance).res0 = s.res0 := rfl
@[simp] theorem State.advance_res1 (s : State) : (s.advance).res1 = s.res1 := rfl
@[simp] theorem State.advance_root (s : State) : (s.advance).root = s.root := rfl
@[simp] theorem State.advance_buf0 (s : State) : (s.advance).buf0 = s.buf0 := rfl
@[simp] theorem State.advance_buf1 (s : State) : (s.advance).buf1 = s.buf1 := rfl
@[simp] theorem State.advance_bs (s : State) : (s.advance).bs = s.bs := rfl
@[simp] theorem State.advance_freq (s : State) : (s.advance).freq = s.freq := rfl
@[simp] theorem State.advance_heap (s : State) : (s.advance).heap = s.heap := rfl
@[simp] theorem State.advance_node (s : State) : (s.advance).node = s.node := rfl
@[simp] theorem State.advance_code (s : State) : (s.advance).code = s.code := rfl
@[simp] theorem State.advance_pending (s : State) : (s.advance).pending = s.pending.tail := rfl
@[simp] theorem State.advance_pc (s : State) : (s.advance).pc = s.pc + 1 := rfl
@[simp] theorem State.advance_reads (s : State) : (s.advance).reads = s.reads := rfl

/-! ### The soft reset -/

@[simp] theorem State.softReset_fault (s : State) : (s.softReset).fault = State.reset.fault := rfl
@[simp] theorem State.softReset_treev (s : State) : (s.softReset).treev = State.reset.treev := rfl
@[simp] theorem State.softReset_codev (s : State) : (s.softReset).codev = State.reset.codev := rfl
@[simp] theorem State.softReset_err (s : State) : (s.softReset).err = State.reset.err := rfl
@[simp] theorem State.softReset_errinfo (s : State) : (s.softReset).errinfo = State.reset.errinfo := rfl
@[simp] theorem State.softReset_errcmd (s : State) : (s.softReset).errcmd = State.reset.errcmd := rfl
@[simp] theorem State.softReset_asize (s : State) : (s.softReset).asize = State.reset.asize := rfl
@[simp] theorem State.softReset_eob (s : State) : (s.softReset).eob = State.reset.eob := rfl
@[simp] theorem State.softReset_dig1 (s : State) : (s.softReset).dig1 = State.reset.dig1 := rfl
@[simp] theorem State.softReset_dig2 (s : State) : (s.softReset).dig2 = State.reset.dig2 := rfl
@[simp] theorem State.softReset_len0 (s : State) : (s.softReset).len0 = State.reset.len0 := rfl
@[simp] theorem State.softReset_len1 (s : State) : (s.softReset).len1 = State.reset.len1 := rfl
@[simp] theorem State.softReset_bslen (s : State) : (s.softReset).bslen = State.reset.bslen := rfl
@[simp] theorem State.softReset_mpos (s : State) : (s.softReset).mpos = State.reset.mpos := rfl
@[simp] theorem State.softReset_arg0 (s : State) : (s.softReset).arg0 = State.reset.arg0 := rfl
@[simp] theorem State.softReset_arg1 (s : State) : (s.softReset).arg1 = State.reset.arg1 := rfl
@[simp] theorem State.softReset_res0 (s : State) : (s.softReset).res0 = State.reset.res0 := rfl
@[simp] theorem State.softReset_res1 (s : State) : (s.softReset).res1 = State.reset.res1 := rfl
@[simp] theorem State.softReset_root (s : State) : (s.softReset).root = State.reset.root := rfl
@[simp] theorem State.softReset_buf0 (s : State) : (s.softReset).buf0 = State.reset.buf0 := rfl
@[simp] theorem State.softReset_buf1 (s : State) : (s.softReset).buf1 = State.reset.buf1 := rfl
@[simp] theorem State.softReset_bs (s : State) : (s.softReset).bs = State.reset.bs := rfl
@[simp] theorem State.softReset_freq (s : State) : (s.softReset).freq = State.reset.freq := rfl
@[simp] theorem State.softReset_heap (s : State) : (s.softReset).heap = State.reset.heap := rfl
@[simp] theorem State.softReset_node (s : State) : (s.softReset).node = State.reset.node := rfl
@[simp] theorem State.softReset_code (s : State) : (s.softReset).code = State.reset.code := rfl
@[simp] theorem State.softReset_pending (s : State) : (s.softReset).pending = s.pending := rfl
@[simp] theorem State.softReset_pc (s : State) : (s.softReset).pc = s.pc := rfl
@[simp] theorem State.softReset_reads (s : State) : (s.softReset).reads = s.reads := rfl

/-! ### Other values in the configuration registers that a command does not read -/

@[simp] theorem State.withConfigOutside_fault (s : State) (i : Instr) (a e d1 d2 : Word) : (s.withConfigOutside i a e d1 d2).fault = s.fault := rfl
@[simp] theorem State.withConfigOutside_treev (s : State) (i : Instr) (a e d1 d2 : Word) : (s.withConfigOutside i a e d1 d2).treev = s.treev := rfl
@[simp] theorem State.withConfigOutside_codev (s : State) (i : Instr) (a e d1 d2 : Word) : (s.withConfigOutside i a e d1 d2).codev = s.codev := rfl
@[simp] theorem State.withConfigOutside_err (s : State) (i : Instr) (a e d1 d2 : Word) : (s.withConfigOutside i a e d1 d2).err = s.err := rfl
@[simp] theorem State.withConfigOutside_errinfo (s : State) (i : Instr) (a e d1 d2 : Word) : (s.withConfigOutside i a e d1 d2).errinfo = s.errinfo := rfl
@[simp] theorem State.withConfigOutside_errcmd (s : State) (i : Instr) (a e d1 d2 : Word) : (s.withConfigOutside i a e d1 d2).errcmd = s.errcmd := rfl
@[simp] theorem State.withConfigOutside_asize (s : State) (i : Instr) (a e d1 d2 : Word) : (s.withConfigOutside i a e d1 d2).asize = if readsAsize i then s.asize else a := rfl
@[simp] theorem State.withConfigOutside_eob (s : State) (i : Instr) (a e d1 d2 : Word) : (s.withConfigOutside i a e d1 d2).eob = if readsEob i then s.eob else e := rfl
@[simp] theorem State.withConfigOutside_dig1 (s : State) (i : Instr) (a e d1 d2 : Word) : (s.withConfigOutside i a e d1 d2).dig1 = if readsDigits i then s.dig1 else d1 := rfl
@[simp] theorem State.withConfigOutside_dig2 (s : State) (i : Instr) (a e d1 d2 : Word) : (s.withConfigOutside i a e d1 d2).dig2 = if readsDigits i then s.dig2 else d2 := rfl
@[simp] theorem State.withConfigOutside_len0 (s : State) (i : Instr) (a e d1 d2 : Word) : (s.withConfigOutside i a e d1 d2).len0 = s.len0 := rfl
@[simp] theorem State.withConfigOutside_len1 (s : State) (i : Instr) (a e d1 d2 : Word) : (s.withConfigOutside i a e d1 d2).len1 = s.len1 := rfl
@[simp] theorem State.withConfigOutside_bslen (s : State) (i : Instr) (a e d1 d2 : Word) : (s.withConfigOutside i a e d1 d2).bslen = s.bslen := rfl
@[simp] theorem State.withConfigOutside_mpos (s : State) (i : Instr) (a e d1 d2 : Word) : (s.withConfigOutside i a e d1 d2).mpos = s.mpos := rfl
@[simp] theorem State.withConfigOutside_arg0 (s : State) (i : Instr) (a e d1 d2 : Word) : (s.withConfigOutside i a e d1 d2).arg0 = s.arg0 := rfl
@[simp] theorem State.withConfigOutside_arg1 (s : State) (i : Instr) (a e d1 d2 : Word) : (s.withConfigOutside i a e d1 d2).arg1 = s.arg1 := rfl
@[simp] theorem State.withConfigOutside_res0 (s : State) (i : Instr) (a e d1 d2 : Word) : (s.withConfigOutside i a e d1 d2).res0 = s.res0 := rfl
@[simp] theorem State.withConfigOutside_res1 (s : State) (i : Instr) (a e d1 d2 : Word) : (s.withConfigOutside i a e d1 d2).res1 = s.res1 := rfl
@[simp] theorem State.withConfigOutside_root (s : State) (i : Instr) (a e d1 d2 : Word) : (s.withConfigOutside i a e d1 d2).root = s.root := rfl
@[simp] theorem State.withConfigOutside_buf0 (s : State) (i : Instr) (a e d1 d2 : Word) : (s.withConfigOutside i a e d1 d2).buf0 = s.buf0 := rfl
@[simp] theorem State.withConfigOutside_buf1 (s : State) (i : Instr) (a e d1 d2 : Word) : (s.withConfigOutside i a e d1 d2).buf1 = s.buf1 := rfl
@[simp] theorem State.withConfigOutside_bs (s : State) (i : Instr) (a e d1 d2 : Word) : (s.withConfigOutside i a e d1 d2).bs = s.bs := rfl
@[simp] theorem State.withConfigOutside_freq (s : State) (i : Instr) (a e d1 d2 : Word) : (s.withConfigOutside i a e d1 d2).freq = s.freq := rfl
@[simp] theorem State.withConfigOutside_heap (s : State) (i : Instr) (a e d1 d2 : Word) : (s.withConfigOutside i a e d1 d2).heap = s.heap := rfl
@[simp] theorem State.withConfigOutside_node (s : State) (i : Instr) (a e d1 d2 : Word) : (s.withConfigOutside i a e d1 d2).node = s.node := rfl
@[simp] theorem State.withConfigOutside_code (s : State) (i : Instr) (a e d1 d2 : Word) : (s.withConfigOutside i a e d1 d2).code = s.code := rfl
@[simp] theorem State.withConfigOutside_pending (s : State) (i : Instr) (a e d1 d2 : Word) : (s.withConfigOutside i a e d1 d2).pending = s.pending := rfl
@[simp] theorem State.withConfigOutside_pc (s : State) (i : Instr) (a e d1 d2 : Word) : (s.withConfigOutside i a e d1 d2).pc = s.pc := rfl
@[simp] theorem State.withConfigOutside_reads (s : State) (i : Instr) (a e d1 d2 : Word) : (s.withConfigOutside i a e d1 d2).reads = s.reads := rfl

/-! ### The other buffer -/

@[simp] theorem otherBuf_otherBuf (b : Bsel) : otherBuf (otherBuf b) = b := by cases b <;> rfl
@[simp] theorem otherBuf_ne (b : Bsel) : otherBuf b ≠ b := by cases b <;> decide
@[simp] theorem ne_otherBuf (b : Bsel) : b ≠ otherBuf b := by cases b <;> decide

/-- A buffer is the given one or the other one. -/
theorem eq_or_eq_otherBuf (b d : Bsel) : d = b ∨ d = otherBuf b := by cases b <;> cases d <;> decide

end Sys2Proof.Machine
end

