-- ==== Sys2Proof/Laws/Memory.lean ====
section
/-! SUPPORT. The laws of the memories: read after write, the canonical form and that every memory operation keeps
it, and that equal memories are equal lists. -/

namespace Sys2Proof.Machine

open Sys2Proof

variable {α : Type}

/-! ### Reading after one write -/

@[simp] theorem cellGet_nil (d : α) (i : Nat) : cellGet d [] i = d := rfl

theorem cellGet_cons (d : α) (k : Nat) (v : α) (m : Cells α) (i : Nat) :
    cellGet d ((k, v) :: m) i = if k = i then v else cellGet d m i := rfl

theorem cellErase_cons (k : Nat) (v : α) (m : Cells α) (i : Nat) :
    cellErase ((k, v) :: m) i = if k = i then cellErase m i else (k, v) :: cellErase m i := by
  by_cases h : k = i <;> simp [cellErase, h]

theorem cellGet_cellErase (d : α) (m : Cells α) (i j : Nat) :
    cellGet d (cellErase m i) j = if j = i then d else cellGet d m j := by
  induction m with
  | nil => simp [cellErase]
  | cons c rest ih =>
    obtain ⟨k, w⟩ := c
    rw [cellErase_cons]
    by_cases hk : k = i
    · subst hk
      rw [if_pos rfl, ih, cellGet_cons]
      by_cases hj : j = k
      · simp [hj]
      · simp [hj, Ne.symm hj]
    · rw [if_neg hk, cellGet_cons, cellGet_cons, ih]
      by_cases hkj : k = j
      · subst hkj
        simp [hk]
      · simp [hkj]

/-- Where no entry has the index, the inserted one is read. -/
theorem cellGet_cellInsert (d : α) (m : Cells α) (i j : Nat) (v : α) (h : ∀ c ∈ m, c.1 ≠ i) :
    cellGet d (cellInsert m i v) j = if j = i then v else cellGet d m j := by
  induction m with
  | nil =>
    by_cases hj : j = i
    · simp [cellInsert, cellGet_cons, hj]
    · simp [cellInsert, cellGet_cons, hj, Ne.symm hj]
  | cons c rest ih =>
    obtain ⟨k, w⟩ := c
    have hk : k ≠ i := h (k, w) (by simp)
    have hrest : ∀ c ∈ rest, c.1 ≠ i := fun c hc => h c (by simp [hc])
    unfold cellInsert
    by_cases hlt : i < k
    · rw [if_pos hlt, cellGet_cons]
      by_cases hj : j = i
      · simp [hj]
      · simp [hj, Ne.symm hj]
    · rw [if_neg hlt, cellGet_cons, cellGet_cons, ih hrest]
      by_cases hkj : k = j
      · subst hkj
        simp [hk]
      · simp [hkj]

theorem cellErase_index_ne (m : Cells α) (i : Nat) : ∀ c ∈ cellErase m i, c.1 ≠ i := by
  intro c hc
  simpa [cellErase] using (List.mem_filter.mp hc).2

/-- Read after write, at every index. -/
theorem cellGet_cellSet [DecidableEq α] (d : α) (m : Cells α) (i j : Nat) (v : α) :
    cellGet d (cellSet d m i v) j = if j = i then v else cellGet d m j := by
  unfold cellSet
  by_cases hv : v = d
  · rw [if_pos hv, cellGet_cellErase, hv]
  · rw [if_neg hv, cellGet_cellInsert d _ i j v (cellErase_index_ne m i), cellGet_cellErase]
    by_cases hj : j = i <;> simp [hj]

@[simp] theorem cellGet_cellSet_self [DecidableEq α] (d : α) (m : Cells α) (i : Nat) (v : α) :
    cellGet d (cellSet d m i v) i = v := by simp [cellGet_cellSet]

@[simp] theorem cellGet_cellSet_ne [DecidableEq α] (d : α) (m : Cells α) {i j : Nat} (v : α) (h : j ≠ i) :
    cellGet d (cellSet d m i v) j = cellGet d m j := by simp [cellGet_cellSet, h]

/-! ### Reading after a sequence of writes -/

/-- A sequence written at `i` reads back from `i` on; every other index is as before. -/
theorem cellGet_writeFrom [DecidableEq α] (d : α) (m : Cells α) (i j : Nat) (vs : List α) :
    cellGet d (writeFrom d m i vs) j =
      if i ≤ j ∧ j < i + vs.length then vs.getD (j - i) d else cellGet d m j := by
  induction vs generalizing m i with
  | nil =>
    have h : ¬ (i ≤ j ∧ j < i) := by omega
    simp [writeFrom, h]
  | cons v rest ih =>
    rw [writeFrom, ih, cellGet_cellSet]
    by_cases hj : j = i
    · subst hj
      simp
    · by_cases hin : i + 1 ≤ j ∧ j < i + 1 + rest.length
      · have h2 : i ≤ j ∧ j < i + (v :: rest).length := by simp only [List.length_cons]; omega
        rw [if_pos hin, if_pos h2, show j - i = (j - (i + 1)) + 1 by omega, List.getD_cons_succ]
      · have h2 : ¬ (i ≤ j ∧ j < i + (v :: rest).length) := by simp only [List.length_cons]; omega
        rw [if_neg hin, if_neg h2, if_neg hj]

/-- A sequence written at 0, below its length. -/
theorem cellGet_writeFrom_lt [DecidableEq α] (d : α) (m : Cells α) (j : Nat) (vs : List α) (h : j < vs.length) :
    cellGet d (writeFrom d m 0 vs) j = vs.getD j d := by
  rw [cellGet_writeFrom, if_pos (by omega)]; simp

/-- A sequence written at 0, from its length on. -/
theorem cellGet_writeFrom_ge [DecidableEq α] (d : α) (m : Cells α) (j : Nat) (vs : List α) (h : vs.length ≤ j) :
    cellGet d (writeFrom d m 0 vs) j = cellGet d m j := by
  rw [cellGet_writeFrom, if_neg (by omega)]

/-! ### The canonical form -/

theorem cellsWf_nil (d : α) (size : Nat) : cellsWf d size ([] : Cells α) := by simp [cellsWf]

theorem cellsWf_cellErase (d : α) (size : Nat) (m : Cells α) (i : Nat) (h : cellsWf d size m) :
    cellsWf d size (cellErase m i) :=
  ⟨h.1.sublist List.filter_sublist, fun c hc => h.2 c (List.mem_filter.mp hc).1⟩

theorem mem_cellInsert (m : Cells α) (i : Nat) (v : α) (c : Nat × α) (h : c ∈ cellInsert m i v) :
    c = (i, v) ∨ c ∈ m := by
  induction m with
  | nil => simpa [cellInsert] using h
  | cons e rest ih =>
    obtain ⟨k, w⟩ := e
    unfold cellInsert at h
    by_cases hlt : i < k
    · rw [if_pos hlt] at h
      simpa using h
    · rw [if_neg hlt] at h
      rcases List.mem_cons.mp h with h | h
      · exact .inr (by simp [h])
      · rcases ih h with h | h
        · exact .inl h
        · exact .inr (by simp [h])

theorem pairwise_cellInsert (m : Cells α) (i : Nat) (v : α) (h : m.Pairwise (fun a b => a.1 < b.1))
    (hi : ∀ c ∈ m, c.1 ≠ i) : (cellInsert m i v).Pairwise (fun a b => a.1 < b.1) := by
  induction m with
  | nil => simp [cellInsert]
  | cons e rest ih =>
    obtain ⟨k, w⟩ := e
    obtain ⟨hhead, htail⟩ := List.pairwise_cons.mp h
    have hk : k ≠ i := hi (k, w) (by simp)
    unfold cellInsert
    by_cases hlt : i < k
    · rw [if_pos hlt]
      refine List.pairwise_cons.mpr ⟨fun c hc => ?_, h⟩
      rcases List.mem_cons.mp hc with rfl | hc
      · exact hlt
      · exact Nat.lt_trans hlt (hhead c hc)
    · rw [if_neg hlt]
      refine List.pairwise_cons.mpr ⟨fun c hc => ?_, ih htail fun c hc => hi c (by simp [hc])⟩
      rcases mem_cellInsert rest i v c hc with rfl | hc
      · show k < i
        omega
      · exact hhead c hc

/-- A write within the memory keeps the canonical form. -/
theorem cellsWf_cellSet [DecidableEq α] (d : α) (size : Nat) (m : Cells α) (i : Nat) (v : α)
    (h : cellsWf d size m) (hi : i < size) : cellsWf d size (cellSet d m i v) := by
  unfold cellSet
  by_cases hv : v = d
  · rw [if_pos hv]
    exact cellsWf_cellErase d size m i h
  · rw [if_neg hv]
    have he := cellsWf_cellErase d size m i h
    refine ⟨pairwise_cellInsert _ i v he.1 (cellErase_index_ne m i), fun c hc => ?_⟩
    rcases mem_cellInsert _ i v c hc with rfl | hc
    · exact ⟨hi, hv⟩
    · exact he.2 c hc

/-- A sequence of writes within the memory keeps the canonical form. -/
theorem cellsWf_writeFrom [DecidableEq α] (d : α) (size : Nat) (m : Cells α) (i : Nat) (vs : List α)
    (h : cellsWf d size m) (hi : i + vs.length ≤ size) : cellsWf d size (writeFrom d m i vs) := by
  induction vs generalizing m i with
  | nil => exact h
  | cons v rest ih =>
    simp only [List.length_cons] at hi
    exact ih _ _ (cellsWf_cellSet d size m i v h (by omega)) (by omega)

/-- An index that is not listed reads as the default. -/
theorem cellGet_of_index_lt (d : α) (m : Cells α) (i : Nat) (h : ∀ c ∈ m, i < c.1) : cellGet d m i = d := by
  induction m with
  | nil => rfl
  | cons e rest ih =>
    obtain ⟨k, w⟩ := e
    have hk : i < k := h (k, w) (by simp)
    rw [cellGet_cons, if_neg (by omega), ih fun c hc => h c (by simp [hc])]

/-- Equal memories are equal lists: two canonical memories that read alike are the same. -/
theorem cellsWf_ext (d : α) (size : Nat) (m m' : Cells α) (h : cellsWf d size m) (h' : cellsWf d size m')
    (heq : ∀ i, cellGet d m i = cellGet d m' i) : m = m' := by
  induction m generalizing m' with
  | nil =>
    cases m' with
    | nil => rfl
    | cons e rest =>
      have := heq e.1
      rw [cellGet_nil, cellGet_cons, if_pos rfl] at this
      exact absurd this.symm (h'.2 e (by simp)).2
  | cons e rest ih =>
    obtain ⟨k, w⟩ := e
    obtain ⟨hhead, htail⟩ := List.pairwise_cons.mp h.1
    cases m' with
    | nil =>
      have := heq k
      rw [cellGet_cons, if_pos rfl, cellGet_nil] at this
      exact absurd this (h.2 (k, w) (by simp)).2
    | cons e' rest' =>
      obtain ⟨k', w'⟩ := e'
      obtain ⟨hhead', htail'⟩ := List.pairwise_cons.mp h'.1
      have hkk : k = k' := by
        rcases Nat.lt_trichotomy k k' with hlt | heq' | hgt
        · have h1 := heq k
          rw [cellGet_cons, if_pos rfl, cellGet_of_index_lt d _ k] at h1
          · exact absurd h1 (h.2 (k, w) (by simp)).2
          · intro c hc
            rcases List.mem_cons.mp hc with rfl | hc
            · exact hlt
            · exact Nat.lt_trans hlt (hhead' c hc)
        · exact heq'
        · have h1 := heq k'
          rw [cellGet_cons (k := k'), if_pos rfl, cellGet_of_index_lt d _ k'] at h1
          · exact absurd h1.symm (h'.2 (k', w') (by simp)).2
          · intro c hc
            rcases List.mem_cons.mp hc with rfl | hc
            · exact hgt
            · exact Nat.lt_trans hgt (hhead c hc)
      subst hkk
      have hww : w = w' := by
        have := heq k
        rwa [cellGet_cons, if_pos rfl, cellGet_cons, if_pos rfl] at this
      subst hww
      congr 1
      refine ih rest' ⟨htail, fun c hc => h.2 c (by simp [hc])⟩ ⟨htail', fun c hc => h'.2 c (by simp [hc])⟩ fun i => ?_
      have hi := heq i
      rw [cellGet_cons, cellGet_cons] at hi
      by_cases hik : k = i
      · subst hik
        rw [cellGet_of_index_lt d rest k hhead, cellGet_of_index_lt d rest' k hhead']
      · rwa [if_neg hik, if_neg hik] at hi

/-! ### The memories of a state -/

/-- The reset memories are canonical. -/
theorem reset_memory_wf : Memory.wf State.reset := by
  exact ⟨cellsWf_nil _ _, cellsWf_nil _ _, cellsWf_nil _ _, cellsWf_nil _ _, cellsWf_nil _ _⟩

theorem Memory.wf_buf (s : State) (h : Memory.wf s) (b : Bsel) : cellsWf 0 cfg.nmax (s.buf b) := by
  cases b
  · exact h.1
  · exact h.2.1

theorem Memory.wf_withBuf (s : State) (h : Memory.wf s) (b : Bsel) (m : Cells Sym) (hm : cellsWf 0 cfg.nmax m) :
    Memory.wf (s.withBuf b m) := by
  cases b
  · exact ⟨hm, h.2⟩
  · exact ⟨h.1, hm, h.2.2⟩

/-- Writing a sequence that fits keeps the memories canonical. -/
theorem Memory.wf_putSeq (s : State) (h : Memory.wf s) (d : Bsel) (vs : List Nat) (hvs : vs.length ≤ cfg.nmax) :
    Memory.wf (s.putSeq d vs) := by
  have hm := cellsWf_writeFrom 0 cfg.nmax (s.buf d) 0 (vs.map (BitVec.ofNat 16)) (Memory.wf_buf s h d) (by simpa using hvs)
  have := Memory.wf_withBuf s h d _ hm
  cases d <;> exact this

/-- Writing bits that fit keeps the memories canonical. -/
theorem Memory.wf_putBits (s : State) (h : Memory.wf s) (bits : Bits) (hb : (bits.length + 7) / 8 ≤ cfg.bmax) :
    Memory.wf (s.putBits bits) :=
  ⟨h.1, h.2.1, cellsWf_writeFrom 0 cfg.bmax s.bs 0 (packBits bits) h.2.2.1 (by simpa [packBits] using hb), h.2.2.2⟩

/-- Taking a fault leaves the memories alone. -/
theorem Memory.wf_raise (s : State) (h : Memory.wf s) (w : Word) (r : Raised) : Memory.wf (s.raise w r) := h

/-- The soft reset leaves the canonical empty memories. -/
theorem Memory.wf_softReset (s : State) : Memory.wf s.softReset := reset_memory_wf

/-- The host moving on leaves the memories alone. -/
theorem Memory.wf_advance (s : State) (h : Memory.wf s) : Memory.wf s.advance := h

/-- A code table entry set keeps the canonical form. -/
theorem cellsWf_setCode (C : Cells (Option Bits)) (c : Nat) (w : Bits) (h : cellsWf none cfg.amax C) :
    cellsWf none cfg.amax (setCode C c w) := by
  unfold setCode
  by_cases hc : c < cfg.amax
  · rw [if_pos hc]
    exact cellsWf_cellSet none cfg.amax C c (some w) h hc
  · rwa [if_neg hc]

/-- Every code table made from an arena is canonical. -/
theorem cellsWf_walkTree (nodes : List Node) (fuel i : Nat) (path : Bits) (C : Cells (Option Bits))
    (h : cellsWf none cfg.amax C) : cellsWf none cfg.amax (walkTree nodes fuel i path C) := by
  induction fuel generalizing i path C with
  | zero => exact h
  | succ fuel ih =>
    simp only [walkTree]
    split
    · exact cellsWf_setCode _ _ _ h
    · exact ih _ _ _ (ih _ _ _ h)

theorem cellsWf_codesOf (nodes : List Node) (root : Nat) : cellsWf none cfg.amax (codesOf nodes root) := by
  simp only [codesOf]
  split
  · exact cellsWf_setCode _ _ _ (cellsWf_nil _ _)
  · exact cellsWf_walkTree _ _ _ _ _ (cellsWf_nil _ _)

end Sys2Proof.Machine
end

