-- ==== Sys2Proof/Laws/Ops.lean ====
section
/-! SUPPORT. What each shared operation can do, said once: the parameters' values, the scan, sequences, the address
map, the frame of a command, the host's transactions and the step. -/

namespace Sys2Proof.Machine

open Sys2Proof

/-! ### The parameters -/

@[simp] theorem cfg_symw : cfg.symw = 16 := rfl
@[simp] theorem cfg_nmax : cfg.nmax = 4096 := rfl
@[simp] theorem cfg_amax : cfg.amax = 512 := rfl
@[simp] theorem cfg_bmax : cfg.bmax = 16384 := rfl
@[simp] theorem cfg_cntw : cfg.cntw = 32 := rfl
@[simp] theorem cfg_regw : cfg.regw = 32 := rfl
@[simp] theorem cfg_heapmax : cfg.heapmax = 512 := rfl
@[simp] theorem cfg_nodemax : cfg.nodemax = 1023 := rfl
@[simp] theorem cfg_nil : cfg.nil = 0xFFFF := rfl

/-- The values meet the constraints of spec/00_scope.md R5. -/
theorem cfg_ok : cfg.Ok := by decide

/-! ### The scan -/

/-- A scan finds nothing exactly when no element fails. -/
theorem scanFrom_eq_none_iff (test : Nat → Nat → Option Raised) (i : Nat) (vs : List Nat) :
    scanFrom test i vs = none ↔ ∀ (j v : Nat), vs[j]? = some v → test (i + j) v = none := by
  induction vs generalizing i with
  | nil => simp [scanFrom]
  | cons v rest ih =>
    unfold scanFrom
    constructor
    · intro h j w hj
      cases ht : test i v with
      | some r => simp [ht] at h
      | none =>
        rw [ht] at h
        cases j with
        | zero =>
          simp only [List.getElem?_cons_zero, Option.some.injEq] at hj
          subst hj
          simpa using ht
        | succ j =>
          have := (ih (i + 1)).mp h j w (by simpa using hj)
          rwa [show i + 1 + j = i + (j + 1) by omega] at this
    · intro h
      have h0 : test i v = none := by simpa using h 0 v rfl
      rw [h0]
      refine (ih (i + 1)).mpr fun j w hj => ?_
      rw [show i + 1 + j = i + (j + 1) by omega]
      exact h (j + 1) w (by simpa using hj)

/-- A scan reports the first element that fails. -/
theorem scanFrom_eq_some_of_first (test : Nat → Nat → Option Raised) (i j : Nat) (vs : List Nat) (v : Nat) (r : Raised)
    (hj : vs[j]? = some v) (hbad : test (i + j) v = some r)
    (hok : ∀ (k w : Nat), k < j → vs[k]? = some w → test (i + k) w = none) : scanFrom test i vs = some r := by
  induction vs generalizing i j with
  | nil => simp at hj
  | cons w rest ih =>
    unfold scanFrom
    cases j with
    | zero =>
      simp only [List.getElem?_cons_zero, Option.some.injEq] at hj
      subst hj
      simp only [Nat.add_zero] at hbad
      rw [hbad]
    | succ j =>
      have h0 : test i w = none := by simpa using hok 0 w (by omega) rfl
      rw [h0]
      refine ih (i + 1) j (by simpa using hj) ?_ fun k u hk hu => ?_
      · rw [show i + 1 + j = i + (j + 1) by omega]
        exact hbad
      · rw [show i + 1 + k = i + (k + 1) by omega]
        exact hok (k + 1) u (by omega) (by simpa using hu)

/-- What a scan reports is what some element's test reports. -/
theorem scanFrom_some (test : Nat → Nat → Option Raised) (i : Nat) (vs : List Nat) (r : Raised)
    (h : scanFrom test i vs = some r) : ∃ (j v : Nat), vs[j]? = some v ∧ test (i + j) v = some r := by
  induction vs generalizing i with
  | nil => simp [scanFrom] at h
  | cons w rest ih =>
    unfold scanFrom at h
    cases ht : test i w with
    | some r' =>
      rw [ht] at h
      exact ⟨0, w, rfl, by simpa [ht] using h⟩
    | none =>
      rw [ht] at h
      obtain ⟨j, v, hj, hv⟩ := ih (i + 1) h
      exact ⟨j + 1, v, by simpa using hj, by rwa [show i + (j + 1) = i + 1 + j by omega]⟩

theorem rangeTest_eq_none_iff (A i v : Nat) : rangeTest A i v = none ↔ v < A := by
  unfold rangeTest
  by_cases h : A ≤ v
  · simp only [if_pos h, reduceCtorEq, false_iff]
    omega
  · simp only [if_neg h, true_iff]
    omega

theorem markerTest_eq_none_iff (A E i v : Nat) : markerTest A E i v = none ↔ v < A ∧ v ≠ E := by
  unfold markerTest
  by_cases h : A ≤ v
  · simp only [if_pos h, reduceCtorEq, false_iff]
    omega
  · by_cases hE : v = E
    · simp only [if_neg h, if_pos hE, reduceCtorEq, false_iff]
      exact fun h' => h'.2 hE
    · simp only [if_neg h, if_neg hE, true_iff]
      omega

/-- A scan for values out of range. -/
theorem scan_range_eq_none_iff (A : Nat) (vs : List Nat) :
    scanFrom (rangeTest A) 0 vs = none ↔ ∀ v ∈ vs, v < A := by
  rw [scanFrom_eq_none_iff]
  simp only [rangeTest_eq_none_iff]
  constructor
  · intro h v hv
    obtain ⟨j, hj⟩ := List.mem_iff_getElem?.mp hv
    exact h j v hj
  · intro h j v hj
    exact h v (List.mem_iff_getElem?.mpr ⟨j, hj⟩)

/-- A scan for values out of range or equal to the marker. -/
theorem scan_marker_eq_none_iff (A E : Nat) (vs : List Nat) :
    scanFrom (markerTest A E) 0 vs = none ↔ ∀ v ∈ vs, v < A ∧ v ≠ E := by
  rw [scanFrom_eq_none_iff]
  simp only [markerTest_eq_none_iff]
  constructor
  · intro h v hv
    obtain ⟨j, hj⟩ := List.mem_iff_getElem?.mp hv
    exact h j v hj
  · intro h j v hj
    exact h v (List.mem_iff_getElem?.mpr ⟨j, hj⟩)

/-! ### Sequences -/

@[simp] theorem source_length (s : State) (b : Bsel) : (s.source b).length = s.lenNat b := by simp [State.source]

theorem source_getElem? (s : State) (b : Bsel) (i : Nat) :
    (s.source b)[i]? = if i < s.lenNat b then some (s.bufAt b i).toNat else none := by
  by_cases h : i < s.lenNat b <;> simp [State.source, h]

theorem mem_source (s : State) (b : Bsel) (v : Nat) :
    v ∈ s.source b ↔ ∃ i < s.lenNat b, (s.bufAt b i).toNat = v := by
  simp [State.source]

theorem source_lt (s : State) (b : Bsel) : ∀ v ∈ s.source b, v < 65536 := by
  intro v hv
  obtain ⟨i, -, rfl⟩ := (mem_source s b v).mp hv
  exact (s.bufAt b i).isLt

/-- A buffer's sequence depends on that buffer and its length alone. -/
theorem source_congr (s t : State) (b d : Bsel) (hbuf : t.buf d = s.buf b) (hlen : t.len d = s.len b) :
    t.source d = s.source b := by
  simp only [State.source, State.lenNat, State.bufAt, hbuf, hlen]

theorem putSeq_lenNat (s : State) (d : Bsel) (vs : List Nat) (h : vs.length ≤ cfg.nmax) :
    (s.putSeq d vs).lenNat d = vs.length := by
  rw [cfg_nmax] at h
  rw [State.lenNat, State.putSeq_len, BitVec.toNat_ofNat]
  omega

/-- Writing a sequence leaves the other buffer's sequence alone. -/
theorem putSeq_source_other (s : State) (d : Bsel) (vs : List Nat) :
    (s.putSeq d vs).source (otherBuf d) = s.source (otherBuf d) :=
  source_congr s _ _ _ (by simp) (by simp)

/-! ### The address map -/

/-- The two directions of the register numbering agree. -/
theorem regOfIndex_regIndex (r : Reg) : regOfIndex (regIndex r) = some r := by cases r <;> rfl

/-! ### The frame of a command -/

/-- Everything a command can do: nothing while a fault is recorded; its effect; or the fault record. -/
theorem command_cases (i : Instr) (result : Except Raised State) (s t : State)
    (h : command i result s = .next t) :
    (s.fault = true ∧ t = s) ∨
    (s.fault = false ∧ result = .ok t) ∨
    (s.fault = false ∧ ∃ r, result = .error r ∧ t = s.raise (encode i) r) := by
  unfold command at h
  cases hf : s.fault with
  | true =>
    rw [hf, if_pos rfl] at h
    exact .inl ⟨rfl, (Host.Outcome.next.inj h).symm⟩
  | false =>
    rw [hf, if_neg (by simp)] at h
    cases result with
    | ok u => exact .inr (.inl ⟨rfl, by rw [Host.Outcome.next.inj h]⟩)
    | error r => exact .inr (.inr ⟨rfl, r, rfl, (Host.Outcome.next.inj h).symm⟩)

theorem command_ignored (i : Instr) (result : Except Raised State) (s : State) (h : s.fault = true) :
    command i result s = .next s := by simp [command, h]

theorem command_ok (i : Instr) (s t : State) (h : s.fault = false) : command i (.ok t) s = .next t := by
  simp [command, h]

theorem command_error (i : Instr) (r : Raised) (s : State) (h : s.fault = false) :
    command i (.error r) s = .next (s.raise (encode i) r) := by simp [command, h]

/-! ### Transactions and steps -/

/-- Everything issuing a word can do. -/
theorem issueCommand_cases (w : Word) (s : State) :
    (s.fault = true ∧ issueCommand w s = .next s) ∨
    (s.fault = false ∧ ∃ e, decode w = .error e ∧ issueCommand w s = .next (s.raise w ⟨.illegalCommand, 0⟩)) ∨
    (s.fault = false ∧ ∃ i, decode w = .ok i ∧ issueCommand w s = exec i s) := by
  unfold issueCommand
  cases hf : s.fault with
  | true => exact .inl ⟨rfl, rfl⟩
  | false =>
    cases hd : decode w with
    | error e => exact .inr (.inl ⟨rfl, e, rfl, rfl⟩)
    | ok i => exact .inr (.inr ⟨rfl, i, rfl, rfl⟩)

/-- Everything a transaction can do: a read is noted; a write issues a command, works on `CTRL`, or stores. -/
theorem transact_cases (x : Transaction) (s : State) :
    (∃ a, x = .read a ∧ transact x s = .next { s with reads := s.reads ++ [s.memRead a] }) ∨
    (∃ a w, x = .write a w ∧ locate a = .reg .cmd ∧ transact x s = issueCommand w s) ∨
    (∃ a v, x = .write a v ∧ locate a = .reg .ctrl ∧ transact x s = .next (s.writeCtrl v)) ∨
    ∃ a v, x = .write a v ∧ locate a ≠ .reg .cmd ∧ locate a ≠ .reg .ctrl ∧
      transact x s = .next (s.store v (locate a)) := by
  cases x with
  | read a => exact .inl ⟨a, rfl, rfl⟩
  | write a v =>
    refine .inr ?_
    by_cases h1 : locate a = .reg .cmd
    · exact .inl ⟨a, v, rfl, h1, by simp [transact, hostWrite, h1]⟩
    · by_cases h2 : locate a = .reg .ctrl
      · exact .inr (.inl ⟨a, v, rfl, h2, by simp [transact, hostWrite, h2]⟩)
      · refine .inr (.inr ⟨a, v, rfl, h1, h2, ?_⟩)
        simp only [transact, hostWrite]

/-- Everything a step can do. -/
theorem step_cases (s : State) :
    (s.pending = [] ∧ step s = .next s) ∨
    ∃ x rest, s.pending = x :: rest ∧ s.advance = { s with pending := rest, pc := s.pc + 1 } ∧
      step s = transact x s.advance := by
  cases hp : s.pending with
  | nil => exact .inl ⟨rfl, by simp [step, hostStep, hp]⟩
  | cons x rest => exact .inr ⟨x, rest, rfl, by simp [State.advance, hp], by simp [step, hostStep, hp]⟩

/-- Where `CMD` and `CTRL` are, and nothing else is there. -/
theorem locate_cmd : locate 0x00000#32 = .reg .cmd := by decide

theorem locate_ctrl : locate 0x00001#32 = .reg .ctrl := by decide

/-- A place is within its memory (spec/20_memory.md R62). -/
def PlaceOk : Place → Prop
  | .reg _ | .unmapped => True
  | .buf _ i => i < cfg.nmax
  | .bs i => i < cfg.bmax
  | .freq c => c < cfg.amax
  | .heap i => i < 2 * cfg.heapmax
  | .node i => i < 8 * cfg.nodemax
  | .code i => i < 4 * cfg.amax

theorem placeOk_placeWithin (size index : Nat) (p : Place) (h : index < size → PlaceOk p) :
    PlaceOk (placeWithin size index p) := by
  unfold placeWithin
  split
  · exact h ‹_›
  · trivial

/-- Every place the address map gives is within its memory (spec/20_memory.md R62, R66). -/
theorem locate_within (a : Word) : PlaceOk (locate a) := by
  unfold locate
  dsimp only
  by_cases h : bitField a 31 20 = 0
  · rw [if_pos h]
    generalize bitField a 19 16 = space
    split
    · cases regOfIndex (bitField a 15 0) <;> trivial
    all_goals first
      | exact placeOk_placeWithin _ _ _ id
      | trivial
  · rw [if_neg h]
    trivial

/-- A host write of a place within its memory keeps the memories canonical. -/
theorem Memory.wf_store (s : State) (h : Memory.wf s) (a v : Word) : Memory.wf (s.store v (locate a)) := by
  have hin := locate_within a
  cases hl : locate a with
  | reg r => cases r <;> exact h
  | buf b i =>
    rw [hl] at hin
    exact Memory.wf_withBuf s h b _ (cellsWf_cellSet 0 cfg.nmax _ i _ (Memory.wf_buf s h b) hin)
  | bs i =>
    rw [hl] at hin
    exact ⟨h.1, h.2.1, cellsWf_cellSet 0 cfg.bmax s.bs i _ h.2.2.1 hin, h.2.2.2⟩
  | freq c =>
    rw [hl] at hin
    exact ⟨h.1, h.2.1, h.2.2.1, cellsWf_cellSet 0 cfg.amax s.freq c v h.2.2.2.1 hin, h.2.2.2.2⟩
  | heap i => exact h
  | node i => exact h
  | code i => exact h
  | unmapped => exact h

end Sys2Proof.Machine
end

