-- ==== Sys2Proof/Laws/Exec.lean ====
section
/-! SUPPORT. What each command does, said once: `exec` is the frame over one result per command, and a result is a
completed state exactly when the command's checks pass. -/

namespace Sys2Proof.Machine

open Sys2Proof

/-! ### One result per command -/

/-- What a command does to a state without a recorded fault: its effect, or what it raises. -/
def effect (i : Instr) (s : State) : Except Raised State :=
  match i with
  | .bwtEnc b => bwtEncode b s
  | .bwtDec b => bwtDecode b s
  | .mtfEnc b => mtfCommand ranksOf b s
  | .mtfDec b => mtfCommand symbolsOf b s
  | .zrlEnc b => zrlEncode b s
  | .zrlDec b => zrlDecode b s
  | .bijEnc b => bijEncode b s
  | .bijDec b => bijDecode b s
  | .pqClr => .ok { s with heap := [] }
  | .pqIns => pqInsertArgs s
  | .pqExt => pqExtractResult s
  | .hufCnt b => hufCount b s
  | .hufBld => hufBuild s
  | .hufTab => hufTable s
  | .hufEnc b => hufEncode b s
  | .hufDec b => hufDecode b s

theorem exec_eq_command (i : Instr) (s : State) : exec i s = command i (effect i s) s := by cases i <;> rfl

/-- Everything a command can do. -/
theorem exec_cases (i : Instr) (s t : State) (h : exec i s = .next t) :
    (s.fault = true ∧ t = s) ∨
    (s.fault = false ∧ effect i s = .ok t) ∨
    (s.fault = false ∧ ∃ r, effect i s = .error r ∧ t = s.raise (encode i) r) :=
  command_cases i (effect i s) s t (exec_eq_command i s ▸ h)

theorem exec_of_ok (i : Instr) (s t : State) (hf : s.fault = false) (h : effect i s = .ok t) :
    exec i s = .next t := by rw [exec_eq_command, h, command_ok i s t hf]

theorem exec_of_error (i : Instr) (s : State) (r : Raised) (hf : s.fault = false) (h : effect i s = .error r) :
    exec i s = .next (s.raise (encode i) r) := by rw [exec_eq_command, h, command_error i r s hf]

/-- A completed command is one whose result is a state. -/
theorem effect_of_completed (i : Instr) (s t : State) (hf : s.fault = false) (h : exec i s = .next t)
    (ht : t.fault = false) : effect i s = .ok t := by
  rcases exec_cases i s t h with ⟨hs, -⟩ | ⟨-, ho⟩ | ⟨-, r, -, rfl⟩
  · rw [hf] at hs; cases hs
  · exact ho
  · simp at ht

/-! ### Checks -/

/-- A check that fails raises; one that passes goes on. -/
theorem check_ok {p : Prop} [Decidable p] (r : Raised) (x : Except Raised State) (t : State) :
    (if ¬ p then Except.error r else x) = Except.ok t ↔ p ∧ x = .ok t := by
  by_cases h : p <;> simp [h]

/-- A check written the other way round. -/
theorem check_not_ok {p : Prop} [Decidable p] (r : Raised) (x : Except Raised State) (t : State) :
    (if p then Except.error r else x) = Except.ok t ↔ ¬ p ∧ x = .ok t := by
  by_cases h : p <;> simp [h]

/-! ### When each command completes, and with what state -/

theorem bwtEncode_ok (b : Bsel) (s t : State) :
    bwtEncode b s = .ok t ↔ s.bwtOk ∧ s.lenNat b + 1 ≤ cfg.nmax ∧ MarkerFree s b ∧ t = bwtForward b s := by
  have hscan := scan_marker_eq_none_iff s.asize.toNat s.eob.toNat (s.source b)
  unfold bwtEncode
  rw [check_ok, check_ok, check_ok]
  cases h : scanFrom (markerTest s.asize.toNat s.eob.toNat) 0 (s.source b) with
  | some r =>
    rw [h] at hscan
    have hno : ¬ MarkerFree s b := fun hm => by simpa using hscan.mpr hm
    simp [hno]
  | none =>
    have hyes : MarkerFree s b := hscan.mp h
    simp only [Except.ok.injEq, hyes, true_and, eq_comm (a := t)]
    constructor
    · rintro ⟨h1, -, h3, h4⟩
      exact ⟨h1, h3, h4⟩
    · rintro ⟨h1, h3, h4⟩
      exact ⟨h1, by unfold State.lenOk; omega, h3, h4⟩

theorem bwtDecode_ok (b : Bsel) (s t : State) :
    bwtDecode b s = .ok t ↔ s.bwtOk ∧ s.lenOk b ∧ (1 ≤ s.lenNat b ∧ s.mpos.toNat < s.lenNat b) ∧
      (∀ v ∈ s.source b, v < s.asize.toNat) ∧
      ((s.source b).count s.eob.toNat = 1 ∧ (s.source b).getD s.mpos.toNat 0 = s.eob.toNat) ∧
      ∃ out, walkAll (s.source b) s.mpos.toNat = some out ∧
        t = s.putSeq (otherBuf b) (out.reverse.take ((s.source b).length - 1)) := by
  have hscan := scan_range_eq_none_iff s.asize.toNat (s.source b)
  unfold bwtDecode
  rw [check_ok, check_ok, check_ok]
  cases h : scanFrom (rangeTest s.asize.toNat) 0 (s.source b) with
  | some r =>
    rw [h] at hscan
    have hno : ¬ ∀ v ∈ s.source b, v < s.asize.toNat := fun hm => by simpa using hscan.mpr hm
    simp only [reduceCtorEq, and_false, false_iff]
    exact fun hh => hno hh.2.2.2.1
  | none =>
    have hyes := hscan.mp h
    unfold bwtInverse
    dsimp only
    rw [check_ok]
    cases walkAll (s.source b) s.mpos.toNat with
    | none => simp
    | some out =>
      simp only [Except.ok.injEq, Option.some.injEq, exists_eq_left', eq_comm (a := t)]
      exact ⟨fun hh => ⟨hh.1, hh.2.1, hh.2.2.1, hyes, hh.2.2.2⟩, fun hh => ⟨hh.1, hh.2.1, hh.2.2.1, hh.2.2.2.2⟩⟩

theorem mtfCommand_ok (f : List Nat → List Nat → List Nat) (b : Bsel) (s t : State) :
    mtfCommand f b s = .ok t ↔ s.alphabetOk ∧ s.lenOk b ∧ (∀ v ∈ s.source b, v < s.asize.toNat) ∧
      t = s.putSeq (otherBuf b) (f (List.range s.asize.toNat) (s.source b)) := by
  have hscan := scan_range_eq_none_iff s.asize.toNat (s.source b)
  unfold mtfCommand
  rw [check_ok, check_ok]
  cases h : scanFrom (rangeTest s.asize.toNat) 0 (s.source b) with
  | some r =>
    rw [h] at hscan
    have hno : ¬ ∀ v ∈ s.source b, v < s.asize.toNat := fun hm => by simpa using hscan.mpr hm
    simp only [reduceCtorEq, and_false, false_iff]
    exact fun hh => hno hh.2.2.1
  | none =>
    have hyes := hscan.mp h
    simp only [Except.ok.injEq, eq_comm (a := t)]
    exact ⟨fun hh => ⟨hh.1, hh.2.1, hyes, hh.2.2⟩, fun hh => ⟨hh.1, hh.2.1, hh.2.2.2⟩⟩

theorem reservedTest_eq_none_iff (d1 d2 i v : Nat) : reservedTest d1 d2 i v = none ↔ v ≠ d1 ∧ v ≠ d2 := by
  unfold reservedTest isDigit
  by_cases h1 : v = d1 <;> by_cases h2 : v = d2 <;> simp [h1, h2]

theorem digitTest_eq_none_iff (d1 d2 i v : Nat) : digitTest d1 d2 i v = none ↔ v = d1 ∨ v = d2 := by
  unfold digitTest isDigit
  by_cases h1 : v = d1 <;> by_cases h2 : v = d2 <;> simp [h1, h2]

/-- A scan whose test ignores the index finds nothing exactly when every element passes. -/
theorem scan_eq_none_iff_forall (test : Nat → Nat → Option Raised) (p : Nat → Prop) (vs : List Nat)
    (htest : ∀ i v, test i v = none ↔ p v) : scanFrom test 0 vs = none ↔ ∀ v ∈ vs, p v := by
  rw [scanFrom_eq_none_iff]
  simp only [htest]
  constructor
  · intro h v hv
    obtain ⟨j, hj⟩ := List.mem_iff_getElem?.mp hv
    exact h j v hj
  · intro h j v hj
    exact h v (List.mem_iff_getElem?.mpr ⟨j, hj⟩)

theorem zrlEncode_ok (b : Bsel) (s t : State) :
    zrlEncode b s = .ok t ↔ s.digitsOk ∧ s.lenOk b ∧
      (∀ v ∈ s.source b, v ≠ s.dig1.toNat ∧ v ≠ s.dig2.toNat) ∧
      t = s.putSeq (otherBuf b) (tokensOf s.dig1.toNat s.dig2.toNat 0 (s.source b)) := by
  have hscan := scan_eq_none_iff_forall (reservedTest s.dig1.toNat s.dig2.toNat) _ (s.source b)
    fun i v => reservedTest_eq_none_iff s.dig1.toNat s.dig2.toNat i v
  unfold zrlEncode
  rw [check_ok, check_ok]
  cases h : scanFrom (reservedTest s.dig1.toNat s.dig2.toNat) 0 (s.source b) with
  | some r =>
    rw [h] at hscan
    simp only [reduceCtorEq, and_false, false_iff]
    exact fun hh => by simpa using hscan.mpr hh.2.2.1
  | none =>
    have hyes := hscan.mp h
    simp only [Except.ok.injEq, eq_comm (a := t)]
    exact ⟨fun hh => ⟨hh.1, hh.2.1, hyes, hh.2.2⟩, fun hh => ⟨hh.1, hh.2.1, hh.2.2.2⟩⟩

theorem zrlDecode_ok (b : Bsel) (s t : State) :
    zrlDecode b s = .ok t ↔ s.digitsOk ∧ s.lenOk b ∧
      ∃ out, expandFrom s.dig1.toNat s.dig2.toNat 0 0 0 (s.source b) = .ok out ∧
        t = s.putSeq (otherBuf b) out := by
  unfold zrlDecode
  rw [check_ok, check_ok]
  cases expandFrom s.dig1.toNat s.dig2.toNat 0 0 0 (s.source b) with
  | error r => simp
  | ok out =>
    simp only [Except.ok.injEq, exists_eq_left']
    rw [eq_comm (a := t)]

theorem bijEncode_ok (b : Bsel) (s t : State) :
    bijEncode b s = .ok t ↔ s.digitsOk ∧ s.arg0.toNat ≠ 0 ∧
      t = s.putSeq b ((bijDigits s.arg0.toNat).map (digitSym s.dig1.toNat s.dig2.toNat)) := by
  unfold bijEncode
  rw [check_ok, check_not_ok, Except.ok.injEq, eq_comm (a := t)]

theorem bijDecode_ok (b : Bsel) (s t : State) :
    bijDecode b s = .ok t ↔ s.digitsOk ∧ s.lenOk b ∧ s.lenNat b ≠ 0 ∧
      (∀ v ∈ s.source b, v = s.dig1.toNat ∨ v = s.dig2.toNat) ∧
      numeralOf s.dig1.toNat (s.source b) ≤ 4294967295 ∧
      t = { s with res0 := BitVec.ofNat 32 (numeralOf s.dig1.toNat (s.source b)) } := by
  have hscan := scan_eq_none_iff_forall (digitTest s.dig1.toNat s.dig2.toNat) _ (s.source b)
    fun i v => digitTest_eq_none_iff s.dig1.toNat s.dig2.toNat i v
  unfold bijDecode
  rw [check_ok, check_ok, check_not_ok]
  cases h : scanFrom (digitTest s.dig1.toNat s.dig2.toNat) 0 (s.source b) with
  | some r =>
    rw [h] at hscan
    simp only [reduceCtorEq, and_false, false_iff]
    exact fun hh => by simpa using hscan.mpr hh.2.2.2.1
  | none =>
    have hyes := hscan.mp h
    dsimp only
    rw [check_not_ok, Nat.not_lt, Except.ok.injEq, eq_comm (a := t)]
    exact ⟨fun hh => ⟨hh.1, hh.2.1, hh.2.2.1, hyes, hh.2.2.2⟩, fun hh => ⟨hh.1, hh.2.1, hh.2.2.1, hh.2.2.2.2⟩⟩

theorem pqInsertArgs_ok (s t : State) :
    pqInsertArgs s = .ok t ↔ s.heap.length < cfg.heapmax ∧
      t = { s with heap := pqInsert s.heap ⟨s.arg0, s.arg1⟩ } := by
  unfold pqInsertArgs
  rw [check_ok, Except.ok.injEq, eq_comm (a := t)]

theorem pqExtractResult_ok (s t : State) :
    pqExtractResult s = .ok t ↔ s.heap.length ≠ 0 ∧
      t = { s with
        heap := (pqExtract s.heap).2, res0 := (pqExtract s.heap).1.key, res1 := (pqExtract s.heap).1.val } := by
  unfold pqExtractResult
  rw [check_not_ok, Except.ok.injEq, eq_comm (a := t)]

theorem hufCount_ok (b : Bsel) (s t : State) :
    hufCount b s = .ok t ↔ s.markerOk ∧ s.lenOk b ∧ MarkerFree s b ∧
      t = { s with freq := writeFrom 0 s.freq 0 (countsOf b s) } := by
  have hscan := scan_marker_eq_none_iff s.asize.toNat s.eob.toNat (s.source b)
  unfold hufCount
  rw [check_ok, check_ok]
  cases h : scanFrom (markerTest s.asize.toNat s.eob.toNat) 0 (s.source b) with
  | some r =>
    rw [h] at hscan
    simp only [reduceCtorEq, and_false, false_iff]
    exact fun hh => by simpa using hscan.mpr hh.2.2.1
  | none =>
    have hyes : MarkerFree s b := hscan.mp h
    simp only [Except.ok.injEq, eq_comm (a := t)]
    exact ⟨fun hh => ⟨hh.1, hh.2.1, hyes, hh.2.2⟩, fun hh => ⟨hh.1, hh.2.1, hh.2.2.2⟩⟩

theorem hufBuild_ok (s t : State) :
    hufBuild s = .ok t ↔ s.alphabetOk ∧ countSum s.counts ≤ 4294967295 ∧ s.counts.all (· == 0) = false ∧
      t = s.installTree (buildTree s.counts) := by
  unfold hufBuild
  rw [check_ok, check_not_ok, check_not_ok, Except.ok.injEq, eq_comm (a := t), Nat.not_lt, Bool.not_eq_true]
  rfl

theorem hufTable_ok (s t : State) :
    hufTable s = .ok t ↔ s.treev = true ∧ t = { s with code := codesOf s.node s.root.toNat, codev := true } := by
  unfold hufTable
  rw [check_ok, Except.ok.injEq, eq_comm (a := t)]
  rfl

theorem hufEncode_ok (b : Bsel) (s t : State) :
    hufEncode b s = .ok t ↔ s.codev = true ∧ s.markerOk ∧ s.lenOk b ∧
      (∀ v ∈ s.source b, v < s.asize.toNat ∧ v ≠ s.eob.toNat ∧ s.codeAt v ≠ none) ∧
      s.codeAt s.eob.toNat ≠ none ∧ ((s.encodedBits (s.source b)).length + 7) / 8 ≤ cfg.bmax ∧
      t = s.putBits (s.encodedBits (s.source b)) := by
  have htest : ∀ i v, codedTest s i v = none ↔ v < s.asize.toNat ∧ v ≠ s.eob.toNat ∧ s.codeAt v ≠ none := by
    intro i v
    unfold codedTest
    cases hm : markerTest s.asize.toNat s.eob.toNat i v with
    | some r =>
      have : ¬ (v < s.asize.toNat ∧ v ≠ s.eob.toNat) := fun h => by
        rw [(markerTest_eq_none_iff _ _ i v).mpr h] at hm
        cases hm
      simp only [reduceCtorEq, false_iff]
      exact fun h => this ⟨h.1, h.2.1⟩
    | none =>
      have := (markerTest_eq_none_iff _ _ i v).mp hm
      by_cases hc : s.codeAt v = none <;> simp [hc, this.1, this.2]
  have hscan := scan_eq_none_iff_forall (codedTest s) _ (s.source b) htest
  unfold hufEncode
  rw [check_ok, check_ok, check_ok]
  cases h : scanFrom (codedTest s) 0 (s.source b) with
  | some r =>
    rw [h] at hscan
    simp only [reduceCtorEq, and_false, false_iff]
    exact fun hh => by simpa using hscan.mpr hh.2.2.2.1
  | none =>
    have hyes := hscan.mp h
    dsimp only
    rw [check_not_ok, check_not_ok, Nat.not_lt, Except.ok.injEq, eq_comm (a := t)]
    exact ⟨fun hh => ⟨hh.1, hh.2.1, hh.2.2.1, hyes, hh.2.2.2⟩, fun hh => ⟨hh.1, hh.2.1, hh.2.2.1, hh.2.2.2.2⟩⟩

theorem hufDecode_ok (b : Bsel) (s t : State) :
    hufDecode b s = .ok t ↔ s.treev = true ∧ s.bslen.toNat ≤ cfg.bmax ∧
      ∃ out stop, decodeFrom s.node s.root.toNat s.eob.toNat 0 0 s.root.toNat 0 s.stream = .ok (out, stop) ∧
        t = { s.putSeq b out with res0 := BitVec.ofNat 32 stop } := by
  unfold hufDecode
  rw [check_ok, check_not_ok, Nat.not_lt]
  cases decodeFrom s.node s.root.toNat s.eob.toNat 0 0 s.root.toNat 0 s.stream with
  | error r => simp
  | ok p =>
    obtain ⟨out, stop⟩ := p
    simp only [Except.ok.injEq, Prod.mk.injEq]
    constructor
    · rintro ⟨h1, h2, h3⟩
      exact ⟨h1, h2, out, stop, ⟨rfl, rfl⟩, h3.symm⟩
    · rintro ⟨h1, h2, o, p, ⟨rfl, rfl⟩, h3⟩
      exact ⟨h1, h2, h3.symm⟩

end Sys2Proof.Machine
end

