-- ==== Sys2Proof/Laws/Units.lean ====
section
/-! SUPPORT. The working functions of the units, one lemma each for what it does to lengths and contents: the queue
loops, the Rank List, the sort, the numerals, the bit packing. -/

namespace Sys2Proof.Machine

open Sys2Proof

/-! ### The queue -/

@[simp] theorem swapAt_length (H : List Entry) (i j : Nat) : (swapAt H i j).length = H.length := by simp [swapAt]

/-- Exchanging two entries of a queue only reorders it. -/
theorem swapAt_perm (H : List Entry) (i j : Nat) (hi : i < H.length) (hj : j < H.length) :
    (swapAt H i j).Perm H := by
  have h := List.set_set_perm hi hj
  simpa [swapAt, entryAt, hi, hj] using h

/-- Sifting up only reorders the queue. -/
theorem siftUp_perm (fuel : Nat) (H : List Entry) (i : Nat) (hi : i < H.length) : (siftUp fuel H i).Perm H := by
  induction fuel generalizing H i with
  | zero => exact .refl H
  | succ fuel ih =>
    simp only [siftUp]
    split
    · have hp : (i - 1) / 2 < H.length := by omega
      exact (ih _ _ (by simpa using hp)).trans (swapAt_perm H i _ hi hp)
    · exact .refl H

/-- The child that is picked is one of the two. -/
theorem pickChild_eq (H : List Entry) (i : Nat) :
    pickChild H i = 2 * i + 1 ∨ (pickChild H i = 2 * i + 2 ∧ 2 * i + 2 < H.length) := by
  simp only [pickChild]
  split
  · exact .inr ⟨rfl, (‹_ ∧ _›).1⟩
  · exact .inl rfl

/-- Sifting down only reorders the queue. -/
theorem siftDown_perm (fuel : Nat) (H : List Entry) (i : Nat) (hi : i ≤ H.length) : (siftDown fuel H i).Perm H := by
  induction fuel generalizing H i with
  | zero => exact .refl H
  | succ fuel ih =>
    simp only [siftDown]
    split
    · rename_i h
      have hc : pickChild H i < H.length := by
        rcases pickChild_eq H i with he | ⟨he, hl⟩ <;> omega
      exact (ih _ _ (by simpa using Nat.le_of_lt hc)).trans (swapAt_perm H _ i hc (by omega))
    · exact .refl H

/-- An insert adds one entry. -/
theorem pqInsert_perm (H : List Entry) (e : Entry) : (pqInsert H e).Perm (H ++ [e]) :=
  siftUp_perm _ _ _ (by simp)

@[simp] theorem pqInsert_length (H : List Entry) (e : Entry) : (pqInsert H e).length = H.length + 1 := by
  simpa using (pqInsert_perm H e).length_eq

/-- An extract takes the root out. -/
theorem pqExtract_fst (H : List Entry) : (pqExtract H).1 = entryAt H 0 := rfl

@[simp] theorem pqExtract_snd_length (H : List Entry) : (pqExtract H).2.length = H.length - 1 := by
  have h := (siftDown_perm ((swapAt H 0 (H.length - 1)).take (H.length - 1)).length
    ((swapAt H 0 (H.length - 1)).take (H.length - 1)) 0 (by omega)).length_eq
  simpa [pqExtract] using h

/-! ### The Rank List -/

/-- Moving an element of the list to the front only reorders it. -/
theorem moveToFront_perm (RL : List Nat) (r : Nat) (h : r < RL.length) : (moveToFront RL r).Perm RL := by
  simpa [moveToFront, h] using List.getElem_cons_eraseIdx_perm h

theorem moveToFront_length (RL : List Nat) (r : Nat) (h : r < RL.length) :
    (moveToFront RL r).length = RL.length := (moveToFront_perm RL r h).length_eq

@[simp] theorem ranksOf_length (RL vs : List Nat) : (ranksOf RL vs).length = vs.length := by
  induction vs generalizing RL with
  | nil => rfl
  | cons v rest ih => simp [ranksOf, ih]

@[simp] theorem symbolsOf_length (RL rs : List Nat) : (symbolsOf RL rs).length = rs.length := by
  induction rs generalizing RL with
  | nil => rfl
  | cons r rest ih => simp [symbolsOf, ih]

/-! ### The sort and the walk -/

/-- The key of an offset is a symbol of the block. -/
theorem sortKey_mem (T : List Nat) (shift o : Nat) (h : T ≠ []) : sortKey T shift o ∈ T := by
  have hpos : 0 < T.length := List.length_pos_iff.mpr h
  have hlt := Nat.mod_lt (o + shift) hpos
  simp [sortKey, hlt]

@[simp] theorem lastColumn_length (T RI : List Nat) : (lastColumn T RI).length = RI.length := by simp [lastColumn]

@[simp] theorem lfMap_length (L : List Nat) : (lfMap L).length = L.length := by simp [lfMap]

/-- A walk that ends emits as many symbols as it has rounds. -/
theorem walkRows_length (L LF : List Nat) (P k p : Nat) (out : List Nat) (h : walkRows L LF P k p = some out) :
    out.length = k := by
  induction k generalizing p out with
  | zero => simp only [walkRows, Option.some.injEq] at h; simp [← h]
  | succ k ih =>
    simp only [walkRows] at h
    split at h
    · cases h
    · obtain ⟨o, ho, rfl⟩ := Option.map_eq_some_iff.mp h
      simp [ih _ _ ho]

/-! ### Numerals -/

theorem digitsEmitted_length_le (fuel x : Nat) : (digitsEmitted fuel x).length ≤ x := by
  induction fuel generalizing x with
  | zero => simp [digitsEmitted]
  | succ fuel ih =>
    simp only [digitsEmitted]
    split
    · simp
    · have := ih ((x + 1) / 2 - 1)
      simp only [List.length_cons]
      omega

theorem digitsEmitted_digits (fuel x : Nat) : ∀ d ∈ digitsEmitted fuel x, d = 1 ∨ d = 2 := by
  induction fuel generalizing x with
  | zero => simp [digitsEmitted]
  | succ fuel ih =>
    simp only [digitsEmitted]
    split
    · simp
    · intro d hd
      rcases List.mem_cons.mp hd with rfl | hd
      · omega
      · exact ih _ d hd

/-- A run's token is never longer than the run. -/
theorem runToken_length_le (d1 d2 k : Nat) : (runToken d1 d2 k).length ≤ k := by
  unfold runToken
  split
  · simp
  · simpa [bijDigits] using digitsEmitted_length_le k k

/-- The token stream is never longer than the run being read and the rest of the stream. -/
theorem tokensOf_length_le (d1 d2 k : Nat) (vs : List Nat) :
    (tokensOf d1 d2 k vs).length ≤ k + vs.length := by
  induction vs generalizing k with
  | nil => simpa [tokensOf] using runToken_length_le d1 d2 k
  | cons v rest ih =>
    simp only [tokensOf]
    split
    · have := ih (k + 1)
      simp only [List.length_cons]
      omega
    · have := ih 0
      have := runToken_length_le d1 d2 k
      simp only [List.length_append, List.length_cons]
      omega

/-- An expansion that does not fault fits the buffer. -/
theorem expandFrom_length_le (d1 d2 i k len : Nat) (vs out : List Nat)
    (h : expandFrom d1 d2 i k len vs = .ok out) : len + out.length ≤ cfg.nmax := by
  induction vs generalizing i k len out with
  | nil =>
    simp only [expandFrom] at h
    split at h
    · cases h
    · cases h
      simp only [List.length_replicate]
      omega
  | cons v rest ih =>
    simp only [expandFrom] at h
    split at h
    · exact ih _ _ _ _ h
    · split at h
      · cases h
      · split at h
        · cases h
        · split at h
          · cases h
          · split at h
            · cases h
            · rename_i o ho
              cases h
              have := ih _ _ _ _ ho
              simp only [List.length_append, List.length_replicate, List.length_cons]
              omega

/-! ### The bitstream -/

@[simp] theorem packBits_length (bits : Bits) : (packBits bits).length = (bits.length + 7) / 8 := by simp [packBits]

@[simp] theorem stream_length (s : State) : s.stream.length = 8 * s.bslen.toNat := by simp [State.stream]

@[simp] theorem countsOf_length (b : Bsel) (s : State) : (countsOf b s).length = cfg.amax := by simp [countsOf]

/-- A decoding that does not fault fits the buffer. -/
theorem decodeFrom_length_le (nodes : List Node) (root E pos start i len : Nat) (bits : Bits) (out : List Nat)
    (stop : Nat) (hlen : len ≤ cfg.nmax) (h : decodeFrom nodes root E pos start i len bits = .ok (out, stop)) :
    len + out.length ≤ cfg.nmax := by
  induction bits generalizing pos start i len out stop with
  | nil => simp [decodeFrom] at h
  | cons bit rest ih =>
    simp only [decodeFrom] at h
    split at h
    · cases h
    · split at h
      · exact ih _ _ _ _ _ _ hlen h
      · split at h
        · cases h
          simpa using hlen
        · split at h
          · cases h
          · rename_i hne
            split at h
            · cases h
            · rename_i o p ho
              cases h
              have := ih _ _ _ _ _ _ (by omega) ho
              simp only [List.length_cons]
              omega

end Sys2Proof.Machine
end

