-- ==== Sys2Proof/Laws/PerInstr.lean ====
section
/-! SUPPORT. Statements made per instruction. `EncodedForm`: the command's fields are well formed, they are what its
word splits into, and its word meets the match and mask of its row (spec/30_encoding.md R91, R92). -/

namespace Sys2Proof.Laws.EncodedForm

open Sys2Proof

/-- The encoded form of one command. -/
def Statement (i : Instr) : Prop :=
  i.wellFormed = true ∧ splitWord (encode i) = i.fields ∧ encode i &&& i.rowMask = i.rowMatch

theorem bwtEnc (b : Bsel) : Statement (.bwtEnc b) := by
  cases b <;> exact ⟨by decide, by decide, by decide⟩

theorem bwtDec (b : Bsel) : Statement (.bwtDec b) := by
  cases b <;> exact ⟨by decide, by decide, by decide⟩

theorem mtfEnc (b : Bsel) : Statement (.mtfEnc b) := by
  cases b <;> exact ⟨by decide, by decide, by decide⟩

theorem mtfDec (b : Bsel) : Statement (.mtfDec b) := by
  cases b <;> exact ⟨by decide, by decide, by decide⟩

theorem zrlEnc (b : Bsel) : Statement (.zrlEnc b) := by
  cases b <;> exact ⟨by decide, by decide, by decide⟩

theorem zrlDec (b : Bsel) : Statement (.zrlDec b) := by
  cases b <;> exact ⟨by decide, by decide, by decide⟩

theorem bijEnc (b : Bsel) : Statement (.bijEnc b) := by
  cases b <;> exact ⟨by decide, by decide, by decide⟩

theorem bijDec (b : Bsel) : Statement (.bijDec b) := by
  cases b <;> exact ⟨by decide, by decide, by decide⟩

theorem pqClr : Statement .pqClr := ⟨by decide, by decide, by decide⟩

theorem pqIns : Statement .pqIns := ⟨by decide, by decide, by decide⟩

theorem pqExt : Statement .pqExt := ⟨by decide, by decide, by decide⟩

theorem hufCnt (b : Bsel) : Statement (.hufCnt b) := by
  cases b <;> exact ⟨by decide, by decide, by decide⟩

theorem hufBld : Statement .hufBld := ⟨by decide, by decide, by decide⟩

theorem hufTab : Statement .hufTab := ⟨by decide, by decide, by decide⟩

theorem hufEnc (b : Bsel) : Statement (.hufEnc b) := by
  cases b <;> exact ⟨by decide, by decide, by decide⟩

theorem hufDec (b : Bsel) : Statement (.hufDec b) := by
  cases b <;> exact ⟨by decide, by decide, by decide⟩

end Sys2Proof.Laws.EncodedForm
end

