-- ==== Sys2Proof/Tests/Slice0.lean ====
section
/-! SUPPORT. Tests of the model, their expected results from spec/30_encoding.md and the vectors of
spec/95_test_vectors.md (V1 to V16), and for each statement of Certificates/Slice0 a state and operands that meet its
hypotheses. -/

namespace Sys2Proof.Tests

open Sys2Proof Sys2Proof.Machine

-- one theorem after the other, so that few threads are alive at a time
set_option Elab.async false

/-! ### Helpers -/

/-- The next state of an outcome. -/
def nextOf (o : Host.Outcome State Fault Refusal) : Option State :=
  match o with
  | .next t => some t
  | .fault _ => none
  | .refused _ => none

/-- The reset state with a sequence in a buffer. -/
def seqState (b : Bsel) (vs : List Nat) : State := State.reset.putSeq b vs

/-- The same with an alphabet size and a marker. -/
def blockState (A E : Word) (b : Bsel) (vs : List Nat) : State := { seqState b vs with asize := A, eob := E }

/-- The same with the digit values 7 and 8 of spec/95_test_vectors.md V8 to V10. -/
def digitState (b : Bsel) (vs : List Nat) : State := { seqState b vs with dig1 := 7, dig2 := 8 }

/-- A queue. -/
def queueState (H : List (Nat × Nat)) : State :=
  { State.reset with heap := H.map fun p => ⟨BitVec.ofNat 32 p.1, BitVec.ofNat 32 p.2⟩ }

/-- The fault record of an outcome: the flag, `ERR`, `ERRINFO`, `ERRCMD`. -/
def recordOf (o : Host.Outcome State Fault Refusal) : Option (Bool × Nat × Nat × Nat) :=
  (nextOf o).map fun t => (t.fault, t.err.toNat, t.errinfo.toNat, t.errcmd.toNat)

/-- A sequence left in a buffer, and the flag. -/
def seqOf (b : Bsel) (o : Host.Outcome State Fault Refusal) : Option (List Nat × Bool) :=
  (nextOf o).map fun t => (t.source b, t.fault)

/-! ### Decoding: words written out from spec/30_encoding.md R91, R92 -/

theorem test_decode_bwtEnc : decode 0b00000000000000000000000000010000#32 = .ok (.bwtEnc .b0) ∧
    decode 0b00000000000000000000000100010000#32 = .ok (.bwtEnc .b1) := by decide
theorem test_decode_bwtDec : decode 0b00000000000000000000000000010001#32 = .ok (.bwtDec .b0) ∧
    decode 0b00000000000000000000000100010001#32 = .ok (.bwtDec .b1) := by decide
theorem test_decode_mtfEnc : decode 0b00000000000000000000000000100000#32 = .ok (.mtfEnc .b0) ∧
    decode 0b00000000000000000000000100100000#32 = .ok (.mtfEnc .b1) := by decide
theorem test_decode_mtfDec : decode 0b00000000000000000000000000100001#32 = .ok (.mtfDec .b0) ∧
    decode 0b00000000000000000000000100100001#32 = .ok (.mtfDec .b1) := by decide
theorem test_decode_zrlEnc : decode 0b00000000000000000000000000110000#32 = .ok (.zrlEnc .b0) ∧
    decode 0b00000000000000000000000100110000#32 = .ok (.zrlEnc .b1) := by decide
theorem test_decode_zrlDec : decode 0b00000000000000000000000000110001#32 = .ok (.zrlDec .b0) ∧
    decode 0b00000000000000000000000100110001#32 = .ok (.zrlDec .b1) := by decide
theorem test_decode_bijEnc : decode 0b00000000000000000000000000110010#32 = .ok (.bijEnc .b0) ∧
    decode 0b00000000000000000000000100110010#32 = .ok (.bijEnc .b1) := by decide
theorem test_decode_bijDec : decode 0b00000000000000000000000000110011#32 = .ok (.bijDec .b0) ∧
    decode 0b00000000000000000000000100110011#32 = .ok (.bijDec .b1) := by decide
theorem test_decode_pqClr : decode 0b00000000000000000000000001000000#32 = .ok .pqClr := by decide
theorem test_decode_pqIns : decode 0b00000000000000000000000001000001#32 = .ok .pqIns := by decide
theorem test_decode_pqExt : decode 0b00000000000000000000000001000010#32 = .ok .pqExt := by decide
theorem test_decode_hufCnt : decode 0b00000000000000000000000001010000#32 = .ok (.hufCnt .b0) ∧
    decode 0b00000000000000000000000101010000#32 = .ok (.hufCnt .b1) := by decide
theorem test_decode_hufBld : decode 0b00000000000000000000000001010001#32 = .ok .hufBld := by decide
theorem test_decode_hufTab : decode 0b00000000000000000000000001010010#32 = .ok .hufTab := by decide
theorem test_decode_hufEnc : decode 0b00000000000000000000000001010011#32 = .ok (.hufEnc .b0) ∧
    decode 0b00000000000000000000000101010011#32 = .ok (.hufEnc .b1) := by decide
theorem test_decode_hufDec : decode 0b00000000000000000000000001010100#32 = .ok (.hufDec .b0) ∧
    decode 0b00000000000000000000000101010100#32 = .ok (.hufDec .b1) := by decide

/-- R94, V13(c): the all-zero word, a reserved bit, the queue and tree commands with `b = 1`. -/
theorem test_decode_illegal :
    decode 0b00000000000000000000000000000000#32 = .error .unknownOpcode ∧
    decode 0b10000000000000000000000000010000#32 = .error .reservedBits ∧
    decode 0b00000000000000000000001000010000#32 = .error .reservedBits ∧
    decode 0b00000000000000000000000101000000#32 = .error .selectSet ∧
    decode 0b00000000000000000000000101000001#32 = .error .selectSet ∧
    decode 0b00000000000000000000000101000010#32 = .error .selectSet ∧
    decode 0b00000000000000000000000101010001#32 = .error .selectSet ∧
    decode 0b00000000000000000000000101010010#32 = .error .selectSet := by decide

theorem test_table_word : decodeTableWord 32 0x111 = some (.bwtDec .b1) ∧ decodeTableWord 32 0x140 = none ∧
    decodeTableWord 64 0x100000010 = none := by decide

/-! ### Well-formedness: an ill-formed term for each check -/

theorem test_wellFormed_accepts : (CmdFields.mk 0 1 0x54).wellFormed = true := by decide
theorem test_wellFormed_refuses_reserved :
    (CmdFields.mk 1 0 0x10).rsvOk = false ∧ (CmdFields.mk 1 0 0x10).wellFormed = false := by decide
theorem test_wellFormed_refuses_opcode :
    (CmdFields.mk 0 0 0x43).opOk = false ∧ (CmdFields.mk 0 0 0x43).wellFormed = false := by decide
theorem test_wellFormed_refuses_select :
    (CmdFields.mk 0 1 0x41).selectOk = false ∧ (CmdFields.mk 0 1 0x41).wellFormed = false ∧
    (CmdFields.mk 0 2 0x10).selectOk = false ∧ (CmdFields.mk 0 2 0x10).wellFormed = false := by decide

/-! ### One step of each command -/

/-- "banana" (V1). -/
def banana : State := blockState 257 256 .b0 [98, 97, 110, 97, 110, 97]

/-- The transform of "banana" in `BUF[1]` (V2). -/
def bananaColumn : State := { blockState 257 256 .b1 [98, 110, 110, 256, 97, 97, 97] with mpos := 3 }

/-- V1. -/
theorem test_bwtEnc_banana : (nextOf (exec (.bwtEnc .b0) banana)).map (fun t => (t.source .b1, t.mpos, t.fault)) =
    some ([98, 110, 110, 256, 97, 97, 97], 3, false) := by decide +kernel
/-- V4 row 9: the range is looked at before the marker, element 1 before element 2. -/
theorem test_bwtEnc_range_first :
    recordOf (exec (.bwtEnc .b0) (blockState 4 3 .b0 [1, 5, 3])) = some (true, 9, 1, 0x10) := by decide +kernel

/-- V2. -/
theorem test_bwtDec_banana : seqOf .b0 (exec (.bwtDec .b1) bananaColumn) =
    some ([98, 97, 110, 97, 110, 97], false) := by decide +kernel
/-- V4 row 22: the walk is back at the marker row early. -/
theorem test_bwtDec_early_return :
    recordOf (exec (.bwtDec .b0) { blockState 4 3 .b0 [0, 3] with mpos := 1 }) = some (true, 10, 0, 0x11) := by
  decide +kernel

/-- V6 row 2. -/
theorem test_mtfEnc_ranks : seqOf .b1 (exec (.mtfEnc .b0) (blockState 4 0 .b0 [1, 2, 2, 3, 0, 0, 0])) =
    some ([1, 2, 0, 3, 3, 0, 0], false) := by decide +kernel
/-- V6 row 7. -/
theorem test_mtfEnc_range :
    recordOf (exec (.mtfEnc .b0) (blockState 4 0 .b0 [3, 3, 0, 4])) = some (true, 9, 3, 0x20) := by decide +kernel

/-- V7 row 1. -/
theorem test_mtfDec_symbols : seqOf .b1 (exec (.mtfDec .b0) (blockState 4 0 .b0 [3, 0, 1, 3])) =
    some ([3, 3, 0, 2], false) := by decide +kernel
/-- V7 row 3, with the other buffer. -/
theorem test_mtfDec_range :
    recordOf (exec (.mtfDec .b1) (blockState 4 0 .b1 [0, 4])) = some (true, 9, 1, 0x121) := by decide +kernel

/-- V9 row 4. -/
theorem test_zrlEnc_runs : seqOf .b1 (exec (.zrlEnc .b0) (digitState .b0 [5, 0, 0, 0, 0, 3, 0, 9, 0, 0])) =
    some ([5, 7, 8, 3, 7, 9, 8], false) := by decide +kernel
/-- V9 row 10. -/
theorem test_zrlEnc_reserved :
    recordOf (exec (.zrlEnc .b0) (digitState .b0 [1, 7, 0])) = some (true, 9, 1, 0x30) := by decide +kernel

/-- V10 row 2. -/
theorem test_zrlDec_groups : seqOf .b1 (exec (.zrlDec .b0) (digitState .b0 [5, 7, 7, 3, 7, 9, 8])) =
    some ([5, 0, 0, 0, 3, 0, 9, 0, 0], false) := by decide +kernel
/-- V10 row 9: 8190 zeros do not fit. -/
theorem test_zrlDec_capacity :
    recordOf (exec (.zrlDec .b0) (digitState .b0 [8, 8, 8, 8, 8, 8, 8, 8, 8, 8, 8, 8])) = some (true, 8, 0, 0x31) := by
  decide +kernel

/-- V8: ten is 122. -/
theorem test_bijEnc_ten : seqOf .b0 (exec (.bijEnc .b0) { digitState .b0 [] with arg0 := 10 }) =
    some ([7, 8, 8], false) := by decide +kernel
/-- V8: 0 has no numeral. -/
theorem test_bijEnc_zero : recordOf (exec (.bijEnc .b0) (digitState .b0 [])) = some (true, 2, 0, 0x32) := by
  decide +kernel

/-- V8: thirty-two 7s are the largest number. -/
theorem test_bijDec_largest :
    (nextOf (exec (.bijDec .b1) (digitState .b1 (List.replicate 32 7)))).map (fun t => (t.res0, t.fault)) =
      some (4294967295, false) := by decide +kernel
/-- V8: 8 and thirty-one 7s do not fit. -/
theorem test_bijDec_capacity :
    recordOf (exec (.bijDec .b1) (digitState .b1 (8 :: List.replicate 31 7))) = some (true, 8, 0, 0x133) := by
  decide +kernel

/-- The worked example of spec/43_pq.md R190. -/
theorem test_pqClr_empties :
    (nextOf (exec .pqClr (queueState [(1, 1), (2, 2), (3, 3)]))).map (fun t => (t.hsize, t.fault)) =
      some (0, false) := by decide +kernel

/-- V12 step 4: an entry stops below one of equal key. -/
theorem test_pqIns_tie :
    (nextOf (exec .pqIns { queueState [(3, 1), (5, 0), (8, 2)] with arg0 := 3, arg1 := 3 })).map (fun t => t.heap) =
      some (queueState [(3, 1), (3, 3), (8, 2), (5, 0)]).heap := by decide +kernel

/-- V12 step 7: the left child is picked when the children's keys are equal. -/
theorem test_pqExt_tie :
    (nextOf (exec .pqExt (queueState [(1, 4), (3, 1), (3, 5), (5, 0), (3, 3), (8, 2)]))).map
        (fun t => (t.heap, t.res0, t.res1)) =
      some ((queueState [(3, 1), (3, 3), (3, 5), (5, 0), (8, 2)]).heap, 1, 4) := by decide +kernel
/-- V12 step 13. -/
theorem test_pqExt_empty : recordOf (exec .pqExt (queueState [])) = some (true, 1, 0, 0x42) := by decide +kernel

/-- The source of V14. -/
def stream14 : State := blockState 6 5 .b0 [1, 2, 0, 3, 3, 0, 0]

/-- The counts of V14. -/
def counts14 : State := { stream14 with freq := [(0, 3), (1, 1), (2, 1), (3, 2), (5, 1)] }

/-- The tree of V14, its nodes as the vector gives them. -/
def nodes14 : List Node :=
  [⟨true, 0, 3, 0xFFFF, 0xFFFF, 8⟩, ⟨true, 1, 1, 0xFFFF, 0xFFFF, 5⟩, ⟨true, 2, 1, 0xFFFF, 0xFFFF, 6⟩,
    ⟨true, 3, 2, 0xFFFF, 0xFFFF, 7⟩, ⟨true, 5, 1, 0xFFFF, 0xFFFF, 5⟩] ++
  [⟨false, 0, 2, 1, 4, 6⟩, ⟨false, 0, 3, 2, 5, 7⟩, ⟨false, 0, 5, 3, 6, 8⟩, ⟨false, 0, 8, 0, 7, 0xFFFF⟩]

/-- The state after the build of V14. -/
def tree14 : State := { counts14 with node := nodes14, root := 8, heap := [⟨8, 8⟩], treev := true }

/-- The code table of V14. -/
def code14 : Cells (Option Bits) :=
  [(0, some [false]), (1, some [true, true, true, false]), (2, some [true, true, false]), (3, some [true, false]),
    (5, some [true, true, true, true])]

/-- The state after the table of V14. -/
def table14 : State := { tree14 with code := code14, codev := true }

/-- V14. -/
theorem test_hufCnt_counts : nextOf (exec (.hufCnt .b0) stream14) = some counts14 := by decide +kernel
/-- V14: the arena, the root, the queue and the flags. -/
theorem test_hufBld_tree : nextOf (exec .hufBld counts14) = some tree14 := by decide +kernel
/-- V14. -/
theorem test_hufTab_codes : nextOf (exec .hufTab tree14) = some table14 := by decide +kernel
/-- V14: three bytes, eighteen bits. -/
theorem test_hufEnc_bits : nextOf (exec (.hufEnc .b0) table14) =
    some { table14 with bs := [(0, 0xEC), (1, 0xA3), (2, 0xC0)], bslen := 3, res0 := 18 } := by decide +kernel

/-- The bitstream of V14 with its tree. -/
def coded14 : State := { tree14 with bs := [(0, 0xEC), (1, 0xA3), (2, 0xC0)], bslen := 3 }

/-- V14. -/
theorem test_hufDec_symbols : (nextOf (exec (.hufDec .b1) coded14)).map (fun t => (t.source .b1, t.res0, t.fault)) =
    some ([1, 2, 0, 3, 3, 0, 0], 18, false) := by decide +kernel
/-- R230: without a byte there is no codeword at position 0. -/
theorem test_hufDec_exhausted :
    recordOf (exec (.hufDec .b1) { coded14 with bslen := 0 }) = some (true, 4, 0, 0x154) := by decide +kernel

/-! ### Steps and the host's view -/

/-- The next step runs the word that `withFetchWord` places. -/
theorem test_step_runs_word :
    (nextOf (step (State.reset.withFetchWord 32 0x41))).map (fun t => (t.heap, t.pc)) = some ([⟨0, 0⟩], 1) := by
  decide +kernel

/-- V14: the host's view of `CODE[1]`. -/
theorem test_code_view : [0x70004#32, 0x70005#32, 0x70006#32, 0x70007#32].map table14.memRead =
    [4, 0xE0000000, 0, 0] := by decide +kernel

/-- R80, R10: the first bit in stream order is bit 7 of byte 0. -/
theorem test_bit_order : (packBits [true, false, false, false, false, false, false, false, true]) = [0x80, 0x80] := by
  decide +kernel

/-- R99: `ld.buf` writes the elements in order and then the length. -/
theorem test_ldBuf : psLdBuf .b1 [5, 6] =
    [.write 0x20000 5, .write 0x20001 6, .write 0x00011 2] := by decide

/-! ### Witnesses: a state and operands that meet the hypotheses of each statement -/

/-- A state with a recorded fault. -/
def faulted : State := { State.reset with fault := true, err := 5, errcmd := 0x140 }

theorem witness_DecodeSelectsByTableRow : ("BWT.ENC", 0x10, true, 0x00000010#32, 0xFFFFFEFF#32) ∈ specTable ∧
    0x00000110#32 &&& 0xFFFFFEFF#32 = 0x00000010#32 ∧ decode 0x00000110#32 = .ok (.bwtEnc .b1) := by decide
theorem witness_IllegalWordsAreExactly : State.reset.fault = false ∧ decode 0x00000140#32 = .error .selectSet := by
  decide
theorem witness_StepRunsDecodedCommand :
    (State.reset.withFetchWord 32 0x42).pending = .write 0x00000#32 0x42#32 :: [] ∧ decode 0x42#32 = .ok .pqExt := by
  decide
theorem witness_CommandPortFollowsDecodeOrder : faulted.fault = true ∧ State.reset.fault = false ∧
    decode 0x00000000#32 = .error .unknownOpcode ∧ decode 0x00000154#32 = .ok (.hufDec .b1) := by decide
theorem witness_PositionAdvancesByOne :
    (State.reset.loadProgram [.read 2#32]).pending = .read 2#32 :: [] ∧
    step (State.reset.loadProgram [.read 2#32]) =
      .next { State.reset with pc := 1, reads := [0] } ∧
    exec .pqClr State.reset = .next State.reset ∧ State.reset.pending = [] := by
  exact ⟨rfl, rfl, rfl, rfl⟩
theorem witness_HostReadChangesNoState :
    transact (.read 0x00008#32) State.reset = .next { State.reset with reads := [0] } := rfl
theorem witness_HostWriteChangesOneWord : 0x20FFF#32 ≠ 0x00000#32 ∧ 0x20FFF#32 ≠ 0x00001#32 ∧
    ∃ t, transact (.write 0x20FFF#32 7) State.reset = .next t := ⟨by decide, by decide, _, rfl⟩
/-- One register of each access, at the first and last index of a group. -/
theorem witness_RegisterWritesStoreAllBits :
    ((0x00008#32).toNat = regIndex .asize ∧ regAccess .asize = .rw) ∧
    ((0x00019#32).toNat = regIndex .arg1 ∧ regAccess .arg1 = .rw) ∧
    ((0x00002#32).toNat = regIndex .status ∧ regAccess .status = .ro) ∧
    ((0x0001E#32).toNat = regIndex .root ∧ regAccess .root = .ro) ∧
    ((0x00000#32).toNat = regIndex .cmd ∧ regAccess .cmd = .wo) := by decide
theorem witness_ReadWriteWindows : (4095 < 4096) ∧ (16383 < 16384) ∧ 511 < 512 := by decide
/-- The last entry, node, word and code of a state with a tree, and a code entry that is none. -/
theorem witness_ReadOnlyWindows : table14.heap.length ≤ 512 ∧ table14.node.length ≤ 1023 ∧
    0 < table14.heap.length ∧ 8 < table14.node.length ∧ 2 * table14.heap.length ≤ 65535 ∧ 65535 < 2 ^ 16 ∧
    8 * table14.node.length ≤ 72 ∧ table14.codeAt 5 = some [true, true, true, true] ∧ table14.codeAt 511 = none := by
  decide +kernel
/-- The first unmapped address of each kind. -/
theorem witness_UnmappedAddressesDoNothing :
    (0x100000#32).toNat / 2 ^ 20 ≠ 0 ∧ 8 ≤ (0x80000#32).toNat / 2 ^ 16 % 16 ∧
    (∀ r, regIndex r ≠ (0x00006#32).toNat % 2 ^ 16) ∧
    4096 ≤ (0x11000#32).toNat % 2 ^ 16 ∧ 4096 ≤ (0x21000#32).toNat % 2 ^ 16 ∧
    16384 ≤ (0x34000#32).toNat % 2 ^ 16 ∧ 512 ≤ (0x40200#32).toNat % 2 ^ 16 ∧
    2 * State.reset.heap.length ≤ (0x50000#32).toNat % 2 ^ 16 ∧
    8 * State.reset.node.length ≤ (0x60000#32).toNat % 2 ^ 16 ∧
    2048 ≤ (0x70800#32).toNat % 2 ^ 16 :=
  ⟨by decide, by decide, fun r => by cases r <;> decide, by decide, by decide, by decide, by decide, by decide,
    by decide, by decide⟩
theorem witness_SoftResetRestoresReset : (0xFFFFFFFF#32).getLsbD 0 = true ∧ (0xFFFFFFFE#32).getLsbD 0 = false ∧
    faulted.fault = true ∧ transact (.write 0x00001#32 1) faulted = .next State.reset ∧
    State.reset.fault = false := ⟨by decide, by decide, rfl, rfl, rfl⟩
theorem witness_FaultIsSticky : faulted.fault = true ∧
    transact (.write 0x00008#32 4) faulted = .next { faulted with asize := 4 } := ⟨rfl, rfl⟩
theorem witness_FaultIsPrecise : State.reset.fault = false ∧
    ∃ t, exec .pqExt State.reset = .next t ∧ transact (.write 0x00000#32 0x42) State.reset = .next t ∧
      t.fault = true := ⟨rfl, _, rfl, rfl, rfl⟩
theorem witness_CommandsRaiseExactlyTheirErrors : State.reset.fault = false ∧
    ∃ t, exec .hufTab State.reset = .next t ∧ t.fault = true := ⟨rfl, _, rfl, rfl⟩
theorem witness_UnusableConfigurationFaults : State.reset.fault = false := rfl
theorem witness_ConfigurationOutsideTheRowIsNotRead :
    exec .hufTab State.reset = .next (State.reset.raise 0x52 ⟨.sequence, 0⟩) ∧
    exec (.bijEnc .b0) { digitState .b0 [] with arg0 := 10 } =
      .next ({ digitState .b0 [] with arg0 := 10 }.putSeq .b0 [7, 8, 8]) := ⟨rfl, rfl⟩
theorem witness_MissingTreeOrTableFaults : State.reset.fault = false := rfl

/-- A legal configuration of every unit, one length just below, at and just beyond the buffer. -/
def fullState (n : Word) : State :=
  { State.reset with asize := 4, eob := 3, dig1 := 7, dig2 := 8, len0 := n, treev := true, codev := true }

/-- Lengths 4096 and 4097, 16385 bytes, 512 entries, counts that sum to `2^32`, counts that are all zero. -/
theorem witness_LengthAndCountChecksFault :
    ((fullState 4096).fault = false ∧ (fullState 4096).bwtOk ∧ 4096 ≤ (fullState 4096).lenNat .b0) ∧
    ((fullState 4097).bwtOk ∧ (fullState 4097).digitsOk ∧ 4096 < (fullState 4097).lenNat .b0 ∧
      (fullState 4097).codev = true) ∧
    ({ fullState 0 with bslen := 16385 } : State).treev = true ∧
    16384 < ({ fullState 0 with bslen := 16385 } : State).bslen.toNat ∧
    4294967295 < ((List.range (fullState 0).asize.toNat).map fun c =>
      (({ fullState 0 with freq := [(0, 0xFFFFFFFF), (3, 1)] } : State).freqAt c).toNat).sum ∧
    ∀ c < (fullState 0).asize.toNat, (fullState 0).freqAt c = 0 := by decide +kernel
theorem witness_LengthAndCountChecksFault_queue :
    512 ≤ ({ State.reset with heap := List.replicate 512 Entry.zero } : State).heap.length :=
  Nat.le_of_eq List.length_replicate.symm

/-- An element out of range after a good one, and the marker after a good one. -/
theorem witness_MarkerScanReportsFirstFailure :
    ((blockState 4 3 .b0 [1, 4]).fault = false ∧ 1 < (blockState 4 3 .b0 [1, 4]).lenNat .b0 ∧
      (∀ i < 1, ((blockState 4 3 .b0 [1, 4]).bufAt .b0 i).toNat < 4 ∧
        ((blockState 4 3 .b0 [1, 4]).bufAt .b0 i).toNat ≠ 3) ∧
      4 ≤ ((blockState 4 3 .b0 [1, 4]).bufAt .b0 1).toNat ∧ (blockState 4 3 .b0 [1, 4]).bwtOk ∧
      (blockState 4 3 .b0 [1, 4]).lenNat .b0 + 1 ≤ 4096) ∧
    (1 < (blockState 4 3 .b0 [1, 3]).lenNat .b0 ∧ (blockState 4 3 .b0 [1, 3]).bwtOk ∧
      (∀ i < 1, ((blockState 4 3 .b0 [1, 3]).bufAt .b0 i).toNat < 4 ∧
        ((blockState 4 3 .b0 [1, 3]).bufAt .b0 i).toNat ≠ 3) ∧ ((blockState 4 3 .b0 [1, 3]).bufAt .b0 1).toNat = 3) := by decide +kernel

/-- The rank 4 of an alphabet of 4; a digit after a rank; a rank after a digit. -/
theorem witness_RangeScanReportsFirstFailure :
    ((blockState 4 3 .b0 [3, 4]).fault = false ∧ 1 < (blockState 4 3 .b0 [3, 4]).lenNat .b0 ∧
      (blockState 4 3 .b0 [3, 4]).lenNat .b0 ≤ 4096 ∧
      (∀ i < 1, ((blockState 4 3 .b0 [3, 4]).bufAt .b0 i).toNat < 4) ∧
      4 ≤ ((blockState 4 3 .b0 [3, 4]).bufAt .b0 1).toNat ∧ (blockState 4 3 .b0 [3, 4]).bwtOk ∧
      (blockState 4 3 .b0 [3, 4]).mpos.toNat < (blockState 4 3 .b0 [3, 4]).lenNat .b0) ∧
    (1 < (digitState .b0 [1, 8]).lenNat .b0 ∧ (digitState .b0 [1, 8]).digitsOk ∧ ((digitState .b0 [1, 8]).bufAt .b0 0).toNat = 1 ∧
      ((digitState .b0 [1, 8]).bufAt .b0 1).toNat = 8) ∧
    (1 < (digitState .b0 [7, 5]).lenNat .b0 ∧ (digitState .b0 [7, 5]).digitsOk ∧ ((digitState .b0 [7, 5]).bufAt .b0 0).toNat = 7 ∧
      ((digitState .b0 [7, 5]).bufAt .b0 1).toNat = 5) := by decide +kernel

theorem witness_CommandsWriteOnlyWhatIsListed :
    exec .pqIns State.reset = .next { State.reset with heap := [⟨0, 0⟩] } ∧ destination .pqIns ≠ some .b0 :=
  ⟨rfl, by decide⟩
theorem witness_DestinationTailUnchanged : destination (.bijEnc .b0) = some .b0 ∧
    ∃ t, exec (.bijEnc .b0) { digitState .b0 [1, 2, 3] with arg0 := 10 } = .next t ∧ t.fault = false :=
  ⟨rfl, _, rfl, rfl⟩
theorem witness_ValidityFlagsFollowTheBuild : tree14.treev = true ∧
    transact (.write 0x40000#32 9) tree14 = .next { tree14 with freq := (0, 9) :: tree14.freq.tail } ∧
    counts14.fault = false ∧ (nextOf (exec .hufBld counts14)).map (fun t => t.fault) = some false ∧
    (nextOf (exec .hufTab tree14)).map (fun t => t.fault) = some false :=
  ⟨rfl, rfl, rfl, by decide +kernel, by decide +kernel⟩
theorem witness_SequenceWriteStoresElements :
    (List.replicate 4096 65535).length ≤ 4096 ∧ ∀ v ∈ List.replicate 4096 65535, v < 65536 :=
  ⟨Nat.le_of_eq List.length_replicate, fun v hv => by rw [List.eq_of_mem_replicate hv]; decide⟩

/-! ### The invariants -/

theorem witness_StepKeepsMemoriesCanonical : Memory.wf table14 ∧ ∃ t, step table14 = .next t :=
  ⟨by decide +kernel, _, rfl⟩
theorem witness_StepKeepsFaultRecord :
    RecordOk faulted ∧ RecordOk State.reset ∧ ∃ t, step (faulted.withFetchWord 32 0x140) = .next t := by
  refine ⟨?_, ?_, _, rfl⟩
  · exact .inl ⟨.selectSet, by decide, by decide, by decide⟩
  · exact ⟨rfl, rfl, rfl⟩
theorem witness_StepKeepsQueueOrdered : QueueOk (queueState [(1, 0), (3, 1), (2, 2)]) ∧
    ∃ t, step ((queueState [(1, 0), (3, 1), (2, 2)]).withFetchWord 32 0x42) = .next t := by
  refine ⟨⟨fun i h0 hi => ?_, by decide⟩, _, rfl⟩
  have hlen : (queueState [(1, 0), (3, 1), (2, 2)]).heap.length = 3 := rfl
  rw [hlen] at hi
  interval_cases i <;> decide

/-- The tree of V14 is one as a build leaves it. -/
theorem arena14 : ArenaOk nodes14 5 := by
  refine ⟨by decide, by decide, by decide, ⟨by decide, fun i j hij hj => ?_⟩, fun i h1 h2 => ?_, by decide, fun i hi => ?_⟩
  · interval_cases j <;> interval_cases i <;> decide
  · have hlen : nodes14.length = 9 := rfl
    rw [hlen] at h2
    interval_cases i <;> decide
  · have hlen : nodes14.length = 9 := rfl
    rw [hlen] at hi
    interval_cases i <;> decide
theorem witness_StepKeepsTree : TreeOk tree14 ∧ TreeOk table14 ∧
    ∃ t, step (table14.withFetchWord 32 0x52) = .next t :=
  ⟨⟨⟨⟨5, arena14⟩, by decide⟩, fun h => by cases h⟩, ⟨⟨⟨5, arena14⟩, by decide⟩, fun _ => by decide +kernel⟩, _, rfl⟩

/-! ### The Rotation Sorter -/

theorem witness_BwtEncSortsRotations : banana.fault = false ∧ banana.bwtOk ∧ banana.lenNat .b0 + 1 ≤ 4096 ∧
    MarkerFree banana .b0 := by
  refine ⟨rfl, by decide, by decide, ?_⟩
  unfold MarkerFree
  decide +kernel
theorem witness_SortPassIsAStableSort : (∀ v ∈ [0, 1, 0], v < 2) ∧ [2, 0, 1].Perm (List.range [0, 1, 0].length) := by
  decide
theorem witness_LfMappingIsAPermutation : [1, 0, 1][0]? = some 1 ∧ 0 < 2 ∧ [1, 0, 1][2]? = some 1 := by decide

/-- The column of V4 row 14, row 22, row 16 and row 20: a whole walk, an early return, no row, no marker. -/
theorem witness_BwtDecFollowsTheWalk :
    ((blockState 4 3 .b0 [3, 0]).fault = false ∧ (blockState 4 3 .b0 [3, 0]).bwtOk ∧
      (blockState 4 3 .b0 [3, 0]).lenNat .b0 = 2 ∧ ([3, 0] : List Nat).count 3 = 1 ∧
      ∀ k, 1 ≤ k → k < 2 → (lfIndex [3, 0])^[k] 0 ≠ 0) ∧
    (([0, 3] : List Nat).count 3 = 1 ∧ ([0, 3] : List Nat).getD 1 0 = 3 ∧ (lfIndex [0, 3])^[1] 1 = 1) ∧
    ¬ (1 ≤ (blockState 4 3 .b0 []).lenNat .b0 ∧ 0 < (blockState 4 3 .b0 []).lenNat .b0) ∧
    ¬ (([0, 0] : List Nat).count 3 = 1 ∧ ([0, 0] : List Nat).getD 0 0 = 3) := by
  refine ⟨⟨rfl, by decide, by decide, by decide, fun k h1 h2 => ?_⟩, by decide, by decide, by decide⟩
  interval_cases k
  decide
theorem witness_BwtRoundTrip : banana.fault = false ∧ banana.bwtOk ∧ banana.lenNat .b0 ≤ 4095 ∧ MarkerFree banana .b0 :=
  ⟨rfl, by decide, by decide, witness_BwtEncSortsRotations.2.2.2⟩

/-! ### The Rank List -/

theorem witness_MtfEncWritesRanks : (blockState 4 0 .b0 [3, 0, 1, 3]).fault = false ∧
    (blockState 4 0 .b0 [3, 0, 1, 3]).alphabetOk ∧ (blockState 4 0 .b0 [3, 0, 1, 3]).lenNat .b0 ≤ 4096 ∧
    ∀ v ∈ (blockState 4 0 .b0 [3, 0, 1, 3]).source .b0, v < (blockState 4 0 .b0 [3, 0, 1, 3]).asize.toNat := by
  decide +kernel
theorem witness_MtfDecWritesSymbols : (blockState 512 0 .b1 [511]).fault = false ∧
    (blockState 512 0 .b1 [511]).alphabetOk ∧ (blockState 512 0 .b1 [511]).lenNat .b1 ≤ 4096 ∧
    ∀ v ∈ (blockState 512 0 .b1 [511]).source .b1, v < (blockState 512 0 .b1 [511]).asize.toNat := by
  decide +kernel
/-- A first occurrence after larger symbols, and an immediate repetition. -/
theorem witness_MtfRanksOfFirstOccurrences :
    let s := blockState 4 0 .b0 [3, 2, 3, 1, 1]
    s.fault = false ∧ s.alphabetOk ∧ s.lenNat .b0 ≤ 4096 ∧ (∀ v ∈ s.source .b0, v < s.asize.toNat) ∧
    (3 < s.lenNat .b0 ∧ (s.bufAt .b0 3).toNat ∉ (s.source .b0).take 3) ∧
    4 < s.lenNat .b0 ∧ ((s.source .b0).take 4).getLast? = some (s.bufAt .b0 4).toNat := by decide +kernel
theorem witness_MtfRoundTrip : (blockState 1 0 .b0 [0, 0]).fault = false ∧
    (blockState 1 0 .b0 [0, 0]).alphabetOk ∧ (blockState 1 0 .b0 [0, 0]).lenNat .b0 ≤ 4096 ∧
    ∀ v ∈ (blockState 1 0 .b0 [0, 0]).source .b0, v < (blockState 1 0 .b0 [0, 0]).asize.toNat := by decide +kernel

/-! ### The Zero-Run Encoder -/

theorem witness_NumeralIsUnique : (1 ≤ 1) ∧ [1, 2] ≠ [] ∧ Digits [1, 2] := by
  refine ⟨by decide, by decide, ?_⟩
  unfold Digits
  decide
/-- V9 row 4: runs of 4, 1 and 2 zeros and an empty one. -/
theorem witness_ZrlEncReplacesRuns :
    let s := digitState .b0 [5, 0, 0, 0, 0, 3, 0, 9, 0, 0]
    s.fault = false ∧ s.digitsOk ∧ s.lenNat .b0 ≤ 4096 ∧
    (∀ p ∈ [(0, 5), (4, 3), (1, 9)], p.2 ≠ 0 ∧ p.2 ≠ s.dig1.toNat ∧ p.2 ≠ s.dig2.toNat) ∧
    s.source .b0 = [(0, 5), (4, 3), (1, 9)].flatMap (fun p => List.replicate p.1 0 ++ [p.2]) ++ List.replicate 2 0 := by
  decide +kernel
/-- V10 row 4; one zero more than fits, then a literal 0; V10 row 10, and 4096 zeros, then a literal 0. -/
theorem witness_ZrlDecExpandsGroups :
    ((digitState .b0 [8, 3, 8]).fault = false ∧ (digitState .b0 [8, 3, 8]).digitsOk ∧
      (digitState .b0 [8, 3, 8]).lenNat .b0 ≤ 4096 ∧ Digits [2] ∧ 3 ≠ 0 ∧ 3 ≠ 7 ∧ 3 ≠ 8 ∧
      (digitState .b0 [8, 3, 8]).source .b0 = [([2], 3)].flatMap (fun p => p.1.map (fun d => if d = 1 then 7 else 8) ++ [p.2]) ++ [8]) ∧
    (bijValue (List.replicate 10 1 ++ [2, 1]) = 4097 ∧ Digits (List.replicate 10 1 ++ [2, 1]) ∧
      (digitState .b0 (List.replicate 10 7 ++ [8, 7, 0])).source .b0 =
        (List.replicate 10 1 ++ [2, 1]).map (fun d => if d = 1 then 7 else 8) ++ [0]) ∧
    (bijValue (List.replicate 11 1 ++ [2]) = 4096 ∧ Digits (List.replicate 11 1 ++ [2]) ∧
      (digitState .b0 (List.replicate 11 7 ++ [8, 0])).source .b0 =
        (List.replicate 11 1 ++ [2]).map (fun d => if d = 1 then 7 else 8) ++ 0 :: []) ∧
    (5 ≠ 0 ∧ 5 ≠ 7 ∧ 5 ≠ 8 ∧ (digitState .b0 [5, 0]).source .b0 = [5] ++ 0 :: []) := by
  unfold Digits
  decide +kernel
theorem witness_ZrlRoundTrip : (digitState .b0 [5, 0, 3]).fault = false ∧
    (digitState .b0 [5, 0, 3]).digitsOk ∧ (digitState .b0 [5, 0, 3]).lenNat .b0 ≤ 4096 ∧
    (∀ v ∈ (digitState .b0 [5, 0, 3]).source .b0, v ≠ 7 ∧ v ≠ 8) ∧
    (nextOf (exec (.zrlDec .b0) (digitState .b0 [8, 3, 8]))).map (fun t => t.fault) = some false := by decide +kernel
theorem witness_BijEncWritesTheNumeral : (digitState .b0 []).fault = false ∧ (digitState .b0 []).digitsOk ∧
    ({ digitState .b0 [] with arg0 := 4294967295 } : State).digitsOk ∧
    ({ digitState .b0 [] with arg0 := 4294967295 } : State).arg0 ≠ 0 ∧ (digitState .b0 []).arg0 = 0 := by decide +kernel
/-- The largest numeral that fits, the least that does not, and the empty one. -/
theorem witness_BijDecReadsTheNumeral :
    (bijValue (List.replicate 32 1) = 4294967295 ∧ Digits (List.replicate 32 1) ∧
      (digitState .b1 (List.replicate 32 7)).fault = false ∧ (digitState .b1 (List.replicate 32 7)).digitsOk ∧
      (digitState .b1 (List.replicate 32 7)).lenNat .b1 ≤ 4096 ∧
      (digitState .b1 (List.replicate 32 7)).source .b1 =
        (List.replicate 32 1).map (fun x => if x = 1 then 7 else 8)) ∧
    (bijValue (List.replicate 31 1 ++ [2]) = 4294967296 ∧ (digitState .b1 (List.replicate 31 7 ++ [8])).source .b1 =
        (List.replicate 31 1 ++ [2]).map (fun x => if x = 1 then 7 else 8)) ∧
    (digitState .b1 []).source .b1 = [] := by
  unfold Digits
  decide +kernel

/-! ### The queue -/

theorem witness_QueueLoopsRunToTheirEnd : (1 ≤ 1) ∧ [Entry.zero, Entry.zero].length ≤ 2 + 0 := by decide
theorem witness_PqClrEmptiesTheQueue : (queueState [(1, 1)]).fault = false := rfl
theorem witness_PqInsAddsTheEntry : (queueState [(1, 1)]).heap.length < 512 ∧ HeapOrdered (queueState [(1, 1)]).heap ∧
    (entryAt (queueState [(1, 1)]).heap 0).key.toNat ≤ ({ queueState [(1, 1)] with arg0 := 1 } : State).arg0.toNat ∧
    512 ≤ ({ State.reset with heap := List.replicate 512 Entry.zero } : State).heap.length := by
  refine ⟨by decide, fun i h0 hi => ?_, by decide, witness_LengthAndCountChecksFault_queue⟩
  have hlen : (queueState [(1, 1)]).heap.length = 1 := rfl
  omega
theorem witness_PqExtTakesAMinimum : (queueState [(1, 0), (3, 1), (2, 2)]).fault = false ∧
    (queueState [(1, 0), (3, 1), (2, 2)]).heap[0]? = some ⟨1, 0⟩ ∧
    HeapOrdered (queueState [(1, 0), (3, 1), (2, 2)]).heap ∧ State.reset.heap = [] :=
  ⟨rfl, rfl, witness_StepKeepsQueueOrdered.1.1, rfl⟩

/-! ### The Huffman Coder -/

theorem witness_HufCntCountsTheStream : stream14.fault = false ∧ stream14.markerOk ∧ stream14.lenNat .b0 ≤ 4096 ∧
    MarkerFree stream14 .b0 := by
  refine ⟨rfl, by decide, by decide, ?_⟩
  unfold MarkerFree
  decide +kernel
theorem witness_HufBldBuildsATree : counts14.fault = false ∧ counts14.alphabetOk ∧
    (((List.range counts14.asize.toNat).map counts14.freqAt).map fun f => f.toNat).sum ≤ 4294967295 ∧
    ((List.range counts14.asize.toNat).filter fun c => decide (counts14.freqAt c ≠ 0)) ≠ [] := by decide +kernel
theorem witness_HufTabWritesLeafPaths : tree14.fault = false ∧ tree14.treev = true ∧ TreeOk tree14 :=
  ⟨rfl, rfl, witness_StepKeepsTree.1⟩
/-- The codewords of V14. -/
def word14 (c : Nat) : Bits := (cellGet none code14 c).getD []

theorem witness_HufEncWritesCodewords : table14.fault = false ∧ table14.codev = true ∧ table14.markerOk ∧ table14.lenNat .b0 ≤ 4096 ∧
    (∀ v ∈ table14.source .b0, table14.codeAt v = some (word14 v)) ∧
    table14.codeAt table14.eob.toNat = some (word14 table14.eob.toNat) ∧
    (∀ v ∈ table14.source .b0, v < table14.asize.toNat ∧ v ≠ table14.eob.toNat) ∧
    (((table14.source .b0 ++ [table14.eob.toNat]).flatMap word14).length + 7) / 8 ≤ 16384 := by decide +kernel
/-- A codeword that fills the bitstream and one bit more. -/
theorem witness_HufEncWritesCodewords_overflow : ∃ w : Bits,
    let s : State := { blockState 1 0 .b0 [] with codev := true, code := [(0, some w)] }
    s.codev = true ∧ s.markerOk ∧ s.source .b0 = [] ∧ s.codeAt s.eob.toNat = some w ∧
    16384 < (((s.source .b0 ++ [s.eob.toNat]).flatMap fun _ => w).length + 7) / 8 := by
  obtain ⟨w, hw⟩ : ∃ w : Bits, w.length = 131073 := ⟨List.replicate 131073 true, List.length_replicate⟩
  have hcfg : (blockState 1 0 .b0 []).markerOk := by decide
  refine ⟨w, rfl, hcfg, rfl, rfl, ?_⟩
  show 16384 < ((([] ++ [0] : List Nat).flatMap fun _ => w).length + 7) / 8
  rw [List.nil_append, List.flatMap_singleton, hw]
  decide

/-- An element out of range, the marker, a symbol without a codeword, and the marker's missing codeword. -/
theorem witness_HufEncScanReportsFirstFailure :
    let s (vs : List Nat) : State := { blockState 6 5 .b0 vs with codev := true, code := code14.take 4 }
    ((s [0]).fault = false ∧ (s [0]).lenNat .b0 ≤ 4096 ∧ (s [0]).codev = true ∧ (s [0]).markerOk ∧ (s [0]).codeAt 0 ≠ none) ∧
    6 ≤ ((s [0, 6]).bufAt .b0 1).toNat ∧ ((s [0, 5]).bufAt .b0 1).toNat = 5 ∧
    (s [0, 4]).codeAt ((s [0, 4]).bufAt .b0 1).toNat = none ∧ 1 = (s [0]).lenNat .b0 ∧ (s [0]).codeAt 5 = none := by
  decide +kernel

/-- V14: two codewords, then the marker's; the first two codewords alone, the bits then ending. -/
theorem witness_HufDecFollowsCodewords :
    coded14.fault = false ∧ coded14.treev = true ∧ coded14.bslen.toNat ≤ 16384 ∧ 1 ≠ coded14.eob.toNat ∧
    IsCodeword coded14.node coded14.root.toNat [true, true, true, false] 1 ∧
    IsCodeword coded14.node coded14.root.toNat [true, true, true, true] coded14.eob.toNat ∧
    ({ coded14 with bs := [(0, 0xEF)], bslen := 1 } : State).stream =
      [true, true, true, false] ++ [true, true, true, true] ++ [] ∧
    ({ coded14 with bs := [(0, 0xEE)], bslen := 1 } : State).stream =
      [true, true, true, false] ++ [true, true, true, false] ++ [] ∧
    (nodeOf coded14.node coded14.root.toNat).leaf = false := by
  refine ⟨rfl, rfl, by decide, by decide, ?_, ?_, by decide +kernel, by decide +kernel, by decide⟩
  · exact ⟨1, by decide⟩
  · exact ⟨4, by decide⟩

/-- A tree of one leaf, whose symbol is not the marker, and a stream of zero bits. -/
def single (bytes : Word) : State :=
  { blockState 4 3 .b0 [] with
    node := [⟨true, 1, 1, 0xFFFF, 0xFFFF, 0xFFFF⟩], treev := true, bslen := bytes }

/-- The bit 1 at a single leaf; one symbol more than the buffer holds. -/
theorem witness_HufDecFollowsCodewords_single :
    IsCodeword (single 513).node (single 513).root.toNat [false] 1 ∧ 1 ≠ (single 513).eob.toNat ∧
    (nodeOf (single 513).node (single 513).root.toNat).leaf = true ∧
    ({ single 1 with bs := [(0, 0x80)] } : State).stream = [] ++ true :: List.replicate 7 false ∧
    (single 513).stream = (List.replicate 4096 ([false], 1)).flatMap (fun w => w.1) ++ [false] ++ List.replicate 7 false := by
  refine ⟨⟨rfl, rfl⟩, by decide, rfl, by decide, ?_⟩
  have h : ∀ j, (single 513).bitAt j = false := fun j => by
    show (0 : Byte).getLsbD (7 - j % 8) = false
    simp
  have hfun : (single 513).bitAt = fun _ => false := funext h
  have hflat : ∀ n, (List.replicate n (([false], 1) : Bits × Nat)).flatMap (fun w => w.1) = List.replicate n false := by
    intro n
    induction n with
    | zero => rfl
    | succ n ih => rw [List.replicate_succ, List.flatMap_cons, ih]; rfl
  rw [hflat, State.stream, hfun, List.map_const', List.length_range,
    show ([false] : Bits) = List.replicate 1 false from rfl, List.replicate_append_replicate,
    List.replicate_append_replicate]
  rfl
theorem witness_HufRoundTrip : stream14.fault = false ∧ stream14.markerOk ∧ stream14.lenNat .b0 ≤ 4096 ∧
    MarkerFree stream14 .b0 ∧ (table14.encodedBits (stream14.source .b0)).length ≤ 8 * 16384 :=
  ⟨rfl, by decide, by decide, witness_HufCntCountsTheStream.2.2.2, by decide +kernel⟩

end Sys2Proof.Tests
end

-- ==== Successors: no command, transaction or step stops the machine (spec/00_scope.md R7) ====
section

namespace Sys2Proof.Machine

open Sys2Proof

/-- An ignored, a completed and a faulting command each leave a state (spec/60_exceptions.md R250, R256). -/
theorem exec_has_next (i : Instr) (s : State) : ∃ t, exec i s = .next t := by
  cases hf : s.fault with
  | true => exact ⟨s, by rw [exec_eq_command, command_ignored i _ s hf]⟩
  | false =>
    cases he : effect i s with
    | ok t => exact ⟨t, exec_of_ok i s t hf he⟩
    | error r => exact ⟨_, exec_of_error i s r hf he⟩

/-- A word written to `CMD` leaves a state in each case of spec/30_encoding.md R97. -/
theorem issueCommand_has_next (w : Word) (s : State) : ∃ t, issueCommand w s = .next t := by
  obtain ⟨-, h⟩ | ⟨-, -, -, h⟩ | ⟨-, i, -, h⟩ := issueCommand_cases w s
  · exact ⟨_, h⟩
  · exact ⟨_, h⟩
  · exact h ▸ exec_has_next i s

theorem transact_has_next (x : Transaction) (s : State) : ∃ t, transact x s = .next t := by
  obtain ⟨_, -, h⟩ | ⟨_, w, -, -, h⟩ | ⟨_, _, -, -, h⟩ | ⟨_, _, -, -, -, h⟩ := transact_cases x s
  · exact ⟨_, h⟩
  · exact h ▸ issueCommand_has_next w s
  · exact ⟨_, h⟩
  · exact ⟨_, h⟩

/-- With no transaction left the next state is the same one (spec/70_reset_and_hazards.md R280). -/
theorem step_has_next (s : State) : ∃ t, step s = .next t := by
  obtain ⟨-, h⟩ | ⟨x, _, -, -, h⟩ := step_cases s
  · exact ⟨s, h⟩
  · exact h ▸ transact_has_next x s.advance

/-- Settles O7: every way through `exec`, `transact` and `step` ends in a next state. -/
theorem everyStepHasASuccessor : Obligations.EveryStepHasASuccessor :=
  ⟨exec_has_next, transact_has_next, step_has_next⟩

end Sys2Proof.Machine
end

-- ==== Lengths: what the units' results need to fit their memories ====
section

namespace Sys2Proof.Machine

open Sys2Proof

/-- Collecting the elements of a list by key reorders those whose key is in range (spec/40_bwt.md R114). -/
theorem flatMap_filter_key_perm (key : Nat → Nat) (A : Nat) (l : List Nat) :
    ((List.range A).flatMap fun c => l.filter fun o => key o == c).Perm (l.filter fun o => decide (key o < A)) := by
  induction A with
  | zero => simp
  | succ A ih =>
    have hsplit := List.filter_append_perm (fun o => decide (key o < A)) (l.filter fun o => decide (key o < A + 1))
    have hlow : (l.filter fun o => decide (key o < A + 1)).filter (fun o => decide (key o < A)) =
        l.filter fun o => decide (key o < A) := by
      rw [List.filter_filter]
      refine List.filter_congr fun o _ => ?_
      rw [Bool.eq_iff_iff]
      simp only [Bool.and_eq_true, decide_eq_true_eq]
      omega
    have hlast : (l.filter fun o => decide (key o < A + 1)).filter (fun o => !decide (key o < A)) =
        l.filter fun o => key o == A := by
      rw [List.filter_filter]
      refine List.filter_congr fun o _ => ?_
      rw [Bool.eq_iff_iff]
      simp only [Bool.and_eq_true, Bool.not_eq_true', decide_eq_true_eq, decide_eq_false_iff_not, beq_iff_eq]
      omega
    rw [hlow, hlast] at hsplit
    rw [List.range_succ, List.flatMap_append, List.flatMap_singleton]
    exact (ih.append_right _).trans hsplit

/-- A sort pass only reorders the offsets when every symbol of the block is in the alphabet. -/
theorem sortPass_perm (A shift : Nat) (T RI : List Nat) (hT : T ≠ []) (hA : ∀ v ∈ T, v < A) :
    (sortPass A T shift RI).Perm RI := by
  have h := flatMap_filter_key_perm (sortKey T shift) A RI
  rwa [List.filter_eq_self.mpr fun o _ => decide_eq_true (hA _ (sortKey_mem T shift o hT))] at h

theorem sortPasses_perm (A : Nat) (T : List Nat) (k : Nat) (RI : List Nat) (hT : T ≠ []) (hA : ∀ v ∈ T, v < A) :
    (sortPasses A T k RI).Perm RI := by
  induction k generalizing RI with
  | zero => exact .refl RI
  | succ k ih => exact (ih _).trans (sortPass_perm A k T RI hT hA)

/-- The Rotation Index is a permutation of the offsets (spec/40_bwt.md R115). -/
theorem sortRotations_perm (A : Nat) (T : List Nat) (hT : T ≠ []) (hA : ∀ v ∈ T, v < A) :
    (sortRotations A T).Perm (List.range T.length) := sortPasses_perm A T _ _ hT hA

/-- Each digit at least halves what is left, so a number below `2 ^ (n + 1) - 1` has at most `n` digits
(spec/42_zrle.md R157). -/
theorem digitsEmitted_length_le_log (fuel x n : Nat) (h : x + 1 < 2 ^ (n + 1)) :
    (digitsEmitted fuel x).length ≤ n := by
  induction fuel generalizing x n with
  | zero => simp [digitsEmitted]
  | succ fuel ih =>
    simp only [digitsEmitted]
    split
    · simp
    · cases n with
      | zero => omega
      | succ n =>
        have := ih ((x + 1) / 2 - 1) n (by rw [Nat.pow_succ] at h; omega)
        simp only [List.length_cons]
        omega

/-- The numeral of a register's value has at most 32 digits (spec/42_zrle.md R170). -/
theorem bijDigits_length_le (w : Word) : (bijDigits w.toNat).length ≤ 32 := by
  have hw := w.isLt
  rw [bijDigits, List.length_reverse]
  exact digitsEmitted_length_le_log _ _ 32 (by omega)

end Sys2Proof.Machine
end

-- ==== Completed commands: the form of the state each leaves, said once ====
section

namespace Sys2Proof.Machine

open Sys2Proof

/-- The states a completed command can leave, by what it writes (spec/10_state.md section 2, R41 to R46): a sequence
into its destination, with `MPOS` or `RES0` beside it in two commands, or what the command's own unit holds. -/
inductive Completed (s : State) : Instr → State → Prop where
  | seq (i : Instr) (d : Bsel) (vs : List Nat) (hd : destination i = some d) (hfit : vs.length ≤ cfg.nmax) :
    Completed s i (s.putSeq d vs)
  | bwtEnc (b : Bsel) (vs : List Nat) (row : Word) (hfit : vs.length ≤ cfg.nmax) :
    Completed s (.bwtEnc b) { s.putSeq (otherBuf b) vs with mpos := row }
  | hufDec (b : Bsel) (vs : List Nat) (stop : Word) (hfit : vs.length ≤ cfg.nmax) :
    Completed s (.hufDec b) { s.putSeq b vs with res0 := stop }
  | bijDec (b : Bsel) (value : Word) : Completed s (.bijDec b) { s with res0 := value }
  | pqClr : Completed s .pqClr { s with heap := [] }
  | pqIns (hroom : s.heap.length < cfg.heapmax) :
    Completed s .pqIns { s with heap := pqInsert s.heap ⟨s.arg0, s.arg1⟩ }
  | pqExt (hsome : s.heap.length ≠ 0) :
    Completed s .pqExt { s with
      heap := (pqExtract s.heap).2, res0 := (pqExtract s.heap).1.key, res1 := (pqExtract s.heap).1.val }
  | hufCnt (b : Bsel) : Completed s (.hufCnt b) { s with freq := writeFrom 0 s.freq 0 (countsOf b s) }
  | hufBld (halpha : s.alphabetOk) (hsum : countSum s.counts ≤ 4294967295)
      (hsome : s.counts.all (· == 0) = false) :
    Completed s .hufBld (s.installTree (buildTree s.counts))
  | hufTab (htree : s.treev = true) :
    Completed s .hufTab { s with code := codesOf s.node s.root.toNat, codev := true }
  | hufEnc (b : Bsel) (bits : Bits) (hfit : (bits.length + 7) / 8 ≤ cfg.bmax) :
    Completed s (.hufEnc b) (s.putBits bits)

/-- The transform of a checked block fits the buffer: it has one element per offset. -/
theorem bwtEncode_completed (b : Bsel) (s t : State) (h : bwtEncode b s = .ok t) : Completed s (.bwtEnc b) t := by
  obtain ⟨⟨⟨-, hmark⟩, -⟩, hlen, hfree, rfl⟩ := (bwtEncode_ok b s t).mp h
  have hA : ∀ v ∈ s.source b ++ [s.eob.toNat], v < s.asize.toNat := by
    intro v hv
    rcases List.mem_append.mp hv with hv | hv
    · exact (hfree v hv).1
    · rwa [List.mem_singleton.mp hv]
  refine .bwtEnc b _ _ ?_
  rw [lastColumn_length, (sortRotations_perm _ _ (by simp) hA).length_eq]
  simpa using hlen

/-- Every completed command leaves one of the listed states. -/
theorem effect_completed (i : Instr) (s t : State) (h : effect i s = .ok t) : Completed s i t := by
  cases i with
  | bwtEnc b => exact bwtEncode_completed b s t h
  | bwtDec b =>
    obtain ⟨-, hlen, -, -, -, out, -, rfl⟩ := (bwtDecode_ok b s t).mp h
    refine .seq _ _ _ rfl ((List.length_take_le _ _).trans ?_)
    rw [source_length]
    exact (Nat.sub_le _ 1).trans hlen
  | mtfEnc b =>
    obtain ⟨-, hlen, -, rfl⟩ := (mtfCommand_ok ranksOf b s t).mp h
    exact .seq _ _ _ rfl (by simpa using hlen)
  | mtfDec b =>
    obtain ⟨-, hlen, -, rfl⟩ := (mtfCommand_ok symbolsOf b s t).mp h
    exact .seq _ _ _ rfl (by simpa using hlen)
  | zrlEnc b =>
    obtain ⟨-, hlen, -, rfl⟩ := (zrlEncode_ok b s t).mp h
    have htok := tokensOf_length_le s.dig1.toNat s.dig2.toNat 0 (s.source b)
    rw [Nat.zero_add, source_length] at htok
    exact .seq _ _ _ rfl (htok.trans hlen)
  | zrlDec b =>
    obtain ⟨-, -, out, hout, rfl⟩ := (zrlDecode_ok b s t).mp h
    exact .seq _ _ _ rfl (by simpa using expandFrom_length_le _ _ _ _ _ _ _ hout)
  | bijEnc b =>
    obtain ⟨-, -, rfl⟩ := (bijEncode_ok b s t).mp h
    have hdig := bijDigits_length_le s.arg0
    exact .seq _ _ _ rfl (by rw [List.length_map, cfg_nmax]; omega)
  | bijDec b =>
    obtain ⟨-, -, -, -, -, rfl⟩ := (bijDecode_ok b s t).mp h
    exact .bijDec b _
  | pqClr =>
    obtain rfl := Except.ok.inj h
    exact .pqClr
  | pqIns =>
    obtain ⟨hroom, rfl⟩ := (pqInsertArgs_ok s t).mp h
    exact .pqIns hroom
  | pqExt =>
    obtain ⟨hsome, rfl⟩ := (pqExtractResult_ok s t).mp h
    exact .pqExt hsome
  | hufCnt b =>
    obtain ⟨-, -, -, rfl⟩ := (hufCount_ok b s t).mp h
    exact .hufCnt b
  | hufBld =>
    obtain ⟨halpha, hsum, hsome, rfl⟩ := (hufBuild_ok s t).mp h
    exact .hufBld halpha hsum hsome
  | hufTab =>
    obtain ⟨htree, rfl⟩ := (hufTable_ok s t).mp h
    exact .hufTab htree
  | hufEnc b =>
    obtain ⟨-, -, -, -, -, hfit, rfl⟩ := (hufEncode_ok b s t).mp h
    exact .hufEnc b _ hfit
  | hufDec b =>
    obtain ⟨-, -, out, stop, hout, rfl⟩ := (hufDecode_ok b s t).mp h
    exact .hufDec b out _ (by simpa using decodeFrom_length_le _ _ _ _ _ _ _ _ _ _ (Nat.zero_le _) hout)

/-- A host write of a place other than the two ports leaves the flags, the fault record, the results, the queue, the
arena, the code table and the host's side alone (spec/20_memory.md R64). -/
theorem State.store_eq (s : State) (v : Word) (p : Place) :
    s.store v p = { s.store v p with
      fault := s.fault, treev := s.treev, codev := s.codev, err := s.err, errinfo := s.errinfo,
      errcmd := s.errcmd, res0 := s.res0, res1 := s.res1, root := s.root, heap := s.heap, node := s.node,
      code := s.code, pending := s.pending, pc := s.pc, reads := s.reads } := by
  cases p with
  | reg r => cases r <;> rfl
  | buf b i => cases b <;> rfl
  | _ => rfl

/-- The induction over what a step can do, packaged once: a property that the host's own fields do not touch holds
after a step when stores, the soft reset, an illegal word, a completed command and a faulting one each keep it. -/
theorem step_keeps {P : State → Prop}
    (hhost : ∀ (s : State) (pending : List Transaction) (pc : Nat) (reads : List Word), P s →
      P { s with pending := pending, pc := pc, reads := reads })
    (hstore : ∀ (s : State) (a v : Word), P s → P (s.store v (locate a)))
    (hreset : ∀ s : State, P s.softReset)
    (hillegal : ∀ (s : State) (w : Word) (e : Illegal), decode w = .error e → P s →
      P (s.raise w ⟨.illegalCommand, 0⟩))
    (hdone : ∀ (i : Instr) (s t : State), Completed s i t → P s → P t)
    (hfault : ∀ (i : Instr) (s : State) (r : Raised), effect i s = .error r → P s → P (s.raise (encode i) r))
    (s t : State) (hs : P s) (h : step s = .next t) : P t := by
  have hexec : ∀ (i : Instr) (s : State), P s → exec i s = .next t → P t := by
    intro i s hs h
    obtain ⟨-, rfl⟩ | ⟨-, he⟩ | ⟨-, r, he, rfl⟩ := exec_cases i s t h
    · exact hs
    · exact hdone i s t (effect_completed i s t he) hs
    · exact hfault i s r he hs
  have hissue : ∀ (w : Word) (s : State), P s → issueCommand w s = .next t → P t := by
    intro w s hs h
    obtain ⟨-, hw⟩ | ⟨-, e, hdec, hw⟩ | ⟨-, i, -, hw⟩ := issueCommand_cases w s <;> rw [hw] at h
    · exact Host.Outcome.next.inj h ▸ hs
    · exact Host.Outcome.next.inj h ▸ hillegal s w e hdec hs
    · exact hexec i s hs h
  obtain ⟨-, hn⟩ | ⟨x, rest, -, hadv, hn⟩ := step_cases s <;> rw [hn] at h
  · exact Host.Outcome.next.inj h ▸ hs
  · have hs' : P s.advance := hhost s _ _ s.reads hs
    obtain ⟨a, -, hx⟩ | ⟨a, w, -, -, hx⟩ | ⟨a, v, -, -, hx⟩ | ⟨a, v, -, -, -, hx⟩ :=
      transact_cases x s.advance <;> rw [hx] at h
    · exact Host.Outcome.next.inj h ▸ hhost s.advance _ _ _ hs'
    · exact hissue w s.advance hs' h
    · obtain rfl := Host.Outcome.next.inj h
      unfold State.writeCtrl
      split
      · exact hreset s.advance
      · exact hs'
    · exact Host.Outcome.next.inj h ▸ hstore s.advance a v hs'

end Sys2Proof.Machine
end

-- ==== State: what commands, transactions and steps keep (spec/10_state.md) ====
section

namespace Sys2Proof.Machine

open Sys2Proof

/-! ### Memories in canonical form (spec/10_state.md R40) -/

/-- Every completed command writes within its memories. -/
theorem Completed.memory_wf {s t : State} {i : Instr} (hc : Completed s i t) (h : Memory.wf s) : Memory.wf t := by
  cases hc with
  | seq _ d vs hd hfit => exact Memory.wf_putSeq s h d vs hfit
  | bwtEnc b vs row hfit => exact Memory.wf_putSeq s h _ vs hfit
  | hufDec b vs stop hfit => exact Memory.wf_putSeq s h b vs hfit
  | hufEnc b bits hfit => exact Memory.wf_putBits s h bits hfit
  | hufCnt b =>
    obtain ⟨hbuf0, hbuf1, hbs, hfreq, hcode⟩ := h
    have hcounts := cellsWf_writeFrom 0 cfg.amax s.freq 0 (countsOf b s) hfreq (by simp)
    dsimp only [Memory.wf]
    exact ⟨hbuf0, hbuf1, hbs, hcounts, hcode⟩
  | hufTab =>
    obtain ⟨hbuf0, hbuf1, hbs, hfreq, -⟩ := h
    exact ⟨hbuf0, hbuf1, hbs, hfreq, cellsWf_codesOf _ _⟩
  | bijDec => exact h
  | pqClr => exact h
  | pqIns => exact h
  | pqExt => exact h
  | hufBld => exact h

/-- Settles O30: stores and results stay within their memories, and nothing else writes one. -/
theorem stepKeepsMemoriesCanonical : Obligations.StepKeepsMemoriesCanonical :=
  step_keeps (P := Memory.wf) (fun _ _ _ _ h => h) (fun s a v h => Memory.wf_store s h a v)
    (fun s => Memory.wf_softReset s) (fun _ _ _ _ h => h) (fun _ _ _ hc h => hc.memory_wf h)
    (fun _ _ _ _ h => h)

/-! ### The fault record (spec/60_exceptions.md R251 to R253) -/

/-- The word of a command decodes to it. -/
theorem decode_encode (i : Instr) : decode (encode i) = .ok i := by
  cases i with
  | pqClr | pqIns | pqExt | hufBld | hufTab => decide
  | _ b => cases b <;> decide

/-- A result that raises no error outside a list. -/
def RaisesIn {α : Type} (kinds : List ErrorKind) (x : Except Raised α) : Prop :=
  ∀ r, x = .error r → r.kind ∈ kinds

section

variable {α : Type} {kinds : List ErrorKind}

theorem raisesIn_ok (a : α) : RaisesIn kinds (.ok a) := by
  intro r h
  cases h

theorem raisesIn_error {r : Raised} (h : r.kind ∈ kinds) : RaisesIn kinds (.error r : Except Raised α) := by
  intro r' hr
  cases hr
  exact h

theorem RaisesIn.mono {ks : List ErrorKind} {x : Except Raised α} (hx : RaisesIn kinds x) (h : kinds ⊆ ks) :
    RaisesIn ks x := fun r hr => h (hx r hr)

/-- A check adds its own error to those of what follows it. -/
theorem raisesIn_check {p : Prop} [Decidable p] {r : Raised} {x : Except Raised α} (h : r.kind ∈ kinds)
    (hx : RaisesIn kinds x) : RaisesIn kinds (if p then .error r else x) := by
  split
  · exact raisesIn_error h
  · exact hx

/-- A scan adds the errors of its element test to those of what follows it. -/
theorem raisesIn_scan {test : Nat → Nat → Option Raised} {vs : List Nat} {x : Except Raised α}
    (htest : ∀ i v r, test i v = some r → r.kind ∈ kinds) (hx : RaisesIn kinds x) :
    RaisesIn kinds (match scanFrom test 0 vs with | some r => .error r | none => x) := by
  cases h : scanFrom test 0 vs with
  | none => exact hx
  | some r =>
    obtain ⟨j, v, -, hr⟩ := scanFrom_some test 0 vs r h
    exact raisesIn_error (htest _ _ r hr)

end

theorem rangeTest_kind (A i v : Nat) (r : Raised) (h : rangeTest A i v = some r) : r.kind = .symbolRange := by
  unfold rangeTest at h
  split at h <;> cases h
  rfl

theorem markerTest_kind (A E i v : Nat) (r : Raised) (h : markerTest A E i v = some r) :
    r.kind = .symbolRange ∨ r.kind = .duplicateMarker := by
  unfold markerTest at h
  split at h
  · cases h
    exact .inl rfl
  · split at h <;> cases h
    exact .inr rfl

theorem reservedTest_kind (d1 d2 i v : Nat) (r : Raised) (h : reservedTest d1 d2 i v = some r) :
    r.kind = .symbolRange := by
  unfold reservedTest at h
  split at h <;> cases h
  rfl

theorem digitTest_kind (d1 d2 i v : Nat) (r : Raised) (h : digitTest d1 d2 i v = some r) :
    r.kind = .symbolRange := by
  unfold digitTest at h
  split at h <;> cases h
  rfl

theorem codedTest_kind (s : State) (i v : Nat) (r : Raised) (h : codedTest s i v = some r) :
    r.kind = .symbolRange ∨ r.kind = .duplicateMarker ∨ r.kind = .unknownSymbol := by
  unfold codedTest at h
  split at h
  · rename_i hm
    cases h
    exact (markerTest_kind _ _ _ _ _ hm).imp id .inl
  · split at h <;> cases h
    exact .inr (.inr rfl)

/-- The pass of `ZRL.DEC` raises what spec/42_zrle.md R165 lists. -/
theorem expandFrom_raisesIn (d1 d2 i k len : Nat) (vs : List Nat) :
    RaisesIn [.capacity, .symbolRange] (expandFrom d1 d2 i k len vs) := by
  induction vs generalizing i k len with
  | nil => exact raisesIn_check (by simp) (raisesIn_ok _)
  | cons v rest ih =>
    simp only [expandFrom]
    split
    · exact ih _ _ _
    · refine raisesIn_check (by simp) (raisesIn_check (by simp) (raisesIn_check (by simp) ?_))
      have hrest := ih (i + 1) 0 (len + k + 1)
      split
      · rename_i r hr
        exact raisesIn_error (hrest r hr)
      · exact raisesIn_ok _

/-- The decoder raises what spec/44_huffman.md R230 lists. -/
theorem decodeFrom_raisesIn (nodes : List Node) (root E pos start i len : Nat) (bits : Bits) :
    RaisesIn [.unknownSymbol, .capacity] (decodeFrom nodes root E pos start i len bits) := by
  induction bits generalizing pos start i len with
  | nil => exact raisesIn_error (by simp)
  | cons bit rest ih =>
    simp only [decodeFrom]
    split
    · exact raisesIn_error (by simp)
    · split
      · exact ih _ _ _ _
      · split
        · exact raisesIn_ok _
        · refine raisesIn_check (by simp) ?_
          have hrest := ih (pos + 1) (pos + 1) root (len + 1)
          split
          · rename_i r hr
            exact raisesIn_error (hrest r hr)
          · exact raisesIn_ok _

/-- A command raises no error outside its row (spec/60_exceptions.md R253). -/
theorem effect_raisesIn (i : Instr) (s : State) : RaisesIn (canRaise i) (effect i s) := by
  cases i with
  | bwtEnc b =>
    refine raisesIn_check (by simp [canRaise]) (raisesIn_check (by simp [canRaise]) (raisesIn_check (by simp [canRaise])
      (raisesIn_scan (fun j v r h => ?_) (raisesIn_ok _))))
    rcases markerTest_kind _ _ _ _ _ h with h | h <;> simp [canRaise, h]
  | bwtDec b =>
    refine raisesIn_check (by simp [canRaise]) (raisesIn_check (by simp [canRaise]) (raisesIn_check (by simp [canRaise])
      (raisesIn_scan (fun j v r h => ?_) (raisesIn_check (by simp [canRaise]) ?_))))
    · simp [canRaise, rangeTest_kind _ _ _ _ h]
    · split
      · exact raisesIn_error (by simp [canRaise])
      · exact raisesIn_ok _
  | mtfEnc b | mtfDec b =>
    refine raisesIn_check (by simp [canRaise]) (raisesIn_check (by simp [canRaise])
      (raisesIn_scan (fun j v r h => ?_) (raisesIn_ok _)))
    simp [canRaise, rangeTest_kind _ _ _ _ h]
  | zrlEnc b =>
    refine raisesIn_check (by simp [canRaise]) (raisesIn_check (by simp [canRaise])
      (raisesIn_scan (fun j v r h => ?_) (raisesIn_ok _)))
    simp [canRaise, reservedTest_kind _ _ _ _ _ h]
  | zrlDec b =>
    refine raisesIn_check (by simp [canRaise]) (raisesIn_check (by simp [canRaise]) ?_)
    have hpass := (expandFrom_raisesIn s.dig1.toNat s.dig2.toNat 0 0 0 (s.source b)).mono (ks := canRaise (.zrlDec b))
      (by simp [canRaise])
    split
    · rename_i r hr
      exact raisesIn_error (hpass r hr)
    · exact raisesIn_ok _
  | bijEnc b => exact raisesIn_check (by simp [canRaise]) (raisesIn_check (by simp [canRaise]) (raisesIn_ok _))
  | bijDec b =>
    refine raisesIn_check (by simp [canRaise]) (raisesIn_check (by simp [canRaise]) (raisesIn_check (by simp [canRaise])
      (raisesIn_scan (fun j v r h => ?_) (raisesIn_check (by simp [canRaise]) (raisesIn_ok _)))))
    simp [canRaise, digitTest_kind _ _ _ _ _ h]
  | pqClr => exact raisesIn_ok _
  | pqIns => exact raisesIn_check (by simp [canRaise]) (raisesIn_ok _)
  | pqExt => exact raisesIn_check (by simp [canRaise]) (raisesIn_ok _)
  | hufCnt b =>
    refine raisesIn_check (by simp [canRaise]) (raisesIn_check (by simp [canRaise])
      (raisesIn_scan (fun j v r h => ?_) (raisesIn_ok _)))
    rcases markerTest_kind _ _ _ _ _ h with h | h <;> simp [canRaise, h]
  | hufBld =>
    exact raisesIn_check (by simp [canRaise]) (raisesIn_check (by simp [canRaise])
      (raisesIn_check (by simp [canRaise]) (raisesIn_ok _)))
  | hufTab => exact raisesIn_check (by simp [canRaise]) (raisesIn_ok _)
  | hufEnc b =>
    refine raisesIn_check (by simp [canRaise]) (raisesIn_check (by simp [canRaise]) (raisesIn_check (by simp [canRaise])
      (raisesIn_scan (fun j v r h => ?_)
        (raisesIn_check (by simp [canRaise]) (raisesIn_check (by simp [canRaise]) (raisesIn_ok _))))))
    rcases codedTest_kind _ _ _ _ h with h | h | h <;> simp [canRaise, h]
  | hufDec b =>
    refine raisesIn_check (by simp [canRaise]) (raisesIn_check (by simp [canRaise]) ?_)
    have hpass := (decodeFrom_raisesIn s.node s.root.toNat s.eob.toNat 0 0 s.root.toNat 0 s.stream).mono
      (ks := canRaise (.hufDec b)) (by simp [canRaise])
    split
    · rename_i r hr
      exact raisesIn_error (hpass r hr)
    · exact raisesIn_ok _

/-- No completed command touches the flag or the record (spec/60_exceptions.md R250). -/
theorem Completed.record_eq {s t : State} {i : Instr} (hc : Completed s i t) :
    t.fault = s.fault ∧ t.err = s.err ∧ t.errinfo = s.errinfo ∧ t.errcmd = s.errcmd := by
  cases hc <;> simp

/-- The record of a state without a fault is zero, so only the four fields matter. -/
theorem recordOk_congr {s t : State}
    (h : t.fault = s.fault ∧ t.err = s.err ∧ t.errinfo = s.errinfo ∧ t.errcmd = s.errcmd) :
    RecordOk t ↔ RecordOk s := by
  obtain ⟨hfault, herr, hinfo, hcmd⟩ := h
  rw [RecordOk, RecordOk, hfault, herr, hinfo, hcmd]

/-- Settles O31: a record is written by an illegal word or by a legal command with an error of its row, and cleared
by the soft reset alone. -/
theorem stepKeepsFaultRecord : Obligations.StepKeepsFaultRecord := by
  refine step_keeps (P := RecordOk) (fun _ _ _ _ h => h) (fun s a v h => ?_) (fun s => ⟨rfl, rfl, rfl⟩)
    (fun s w e hdec _ => ?_) (fun i s t hc h => (recordOk_congr hc.record_eq).mpr h) (fun i s r he _ => ?_)
  · rw [State.store_eq]
    exact h
  · exact .inl ⟨e, hdec, rfl, rfl⟩
  · exact .inr ⟨i, r.kind, decode_encode i, effect_raisesIn i s r he, rfl⟩

/-! ### What a command leaves alone -/

/-- A sequence written to a buffer leaves the other buffer and its length alone. -/
theorem putSeq_buf_len_ne (s : State) {b d : Bsel} (vs : List Nat) (h : d ≠ b) :
    (s.putSeq d vs).buf b = s.buf b ∧ (s.putSeq d vs).len b = s.len b := by
  obtain rfl : b = otherBuf d := (eq_or_eq_otherBuf d b).resolve_left (Ne.symm h)
  simp

/-- Only a command's destination and its length can change (spec/10_state.md R41, R30). -/
theorem Completed.buf_len_eq {s t : State} {i : Instr} (hc : Completed s i t) (b : Bsel)
    (hb : destination i ≠ some b) : t.buf b = s.buf b ∧ t.len b = s.len b := by
  cases hc with
  | seq _ d vs hd hfit => exact putSeq_buf_len_ne s vs fun h => hb (h ▸ hd)
  | bwtEnc c vs row hfit => exact putSeq_buf_len_ne s vs fun h => hb (congrArg some h)
  | hufDec c vs stop hfit => exact putSeq_buf_len_ne s vs fun h => hb (congrArg some h)
  | _ => cases b <;> simp [State.buf, State.len]

/-- Settles O25: an ignored command changes nothing, a faulting one the record, a completed one what its form says. -/
theorem commandsWriteOnlyWhatIsListed : Obligations.CommandsWriteOnlyWhatIsListed := by
  intro i s t h
  obtain ⟨-, rfl⟩ | ⟨-, he⟩ | ⟨hf, r, -, rfl⟩ := exec_cases i s t h
  · simp
  · have hc := effect_completed i s t he
    have hframe : destination i ≠ some .b0 → t.buf0 = s.buf0 ∧ t.len0 = s.len0 := hc.buf_len_eq .b0
    have hframe' : destination i ≠ some .b1 → t.buf1 = s.buf1 ∧ t.len1 = s.len1 := hc.buf_len_eq .b1
    have hrecord : t.fault = s.fault → t.err = s.err ∧ t.errinfo = s.errinfo ∧ t.errcmd = s.errcmd :=
      fun _ => hc.record_eq.2
    refine ⟨?_, hframe, hframe', ?_⟩
    · cases hc <;> simp
    · clear hframe hframe'
      cases hc <;> simp
  · simp [hf]

/-- From the length of a sequence on, its buffer is as before the write. -/
theorem putSeq_bufAt_ge (s : State) (d : Bsel) (vs : List Nat) (j : Nat) (h : vs.length ≤ j) :
    (s.putSeq d vs).bufAt d j = s.bufAt d j := by
  rw [State.bufAt, State.putSeq_buf, cellGet_writeFrom_ge 0 _ j _ (by simpa using h), State.bufAt]

/-- A completed command leaves in its destination a sequence that fits (spec/10_state.md R41). -/
theorem Completed.destination_eq {s t : State} {i : Instr} {d : Bsel} (hc : Completed s i t)
    (hd : destination i = some d) :
    ∃ vs : List Nat, vs.length ≤ cfg.nmax ∧ t.buf d = (s.putSeq d vs).buf d ∧ t.len d = (s.putSeq d vs).len d := by
  cases hc with
  | seq _ c vs hdest hfit =>
    obtain rfl := Option.some.inj (hdest.symm.trans hd)
    exact ⟨vs, hfit, rfl, rfl⟩
  | bwtEnc b vs row hfit =>
    obtain rfl := Option.some.inj hd
    exact ⟨vs, hfit, by cases b <;> rfl, by cases b <;> rfl⟩
  | hufDec b vs stop hfit =>
    obtain rfl := Option.some.inj hd
    exact ⟨vs, hfit, by cases b <;> rfl, by cases b <;> rfl⟩
  | _ => cases hd

/-- Settles O26: only a completed command changes a buffer, and it writes a sequence that fits its destination. -/
theorem destinationTailUnchanged : Obligations.DestinationTailUnchanged := by
  intro i s t d h hd
  obtain ⟨hf, rfl⟩ | ⟨-, he⟩ | ⟨-, r, -, rfl⟩ := exec_cases i s t h
  · exact ⟨fun _ _ => rfl, rfl, rfl, fun hno => by rw [hf] at hno; cases hno⟩
  · have hc := effect_completed i s t he
    obtain ⟨vs, hfit, hbuf, hlen⟩ := hc.destination_eq hd
    have hlenNat : t.lenNat d = vs.length := by
      rw [State.lenNat, hlen]
      exact putSeq_lenNat s d vs hfit
    obtain ⟨hbuf', hlen'⟩ := hc.buf_len_eq (otherBuf d) (by simp [hd])
    refine ⟨fun j hj => ?_, hbuf', hlen', fun _ _ => hlenNat ▸ hfit⟩
    rw [State.bufAt, hbuf]
    exact putSeq_bufAt_ge s d vs j (hlenNat ▸ hj)
  · exact ⟨fun j _ => by simp [State.bufAt], by simp, by simp, fun _ hno => by cases hno⟩

/-- A written sequence of 16-bit elements that fits reads back. -/
theorem putSeq_source (s : State) (d : Bsel) (vs : List Nat) (hlen : vs.length ≤ cfg.nmax)
    (hvs : ∀ v ∈ vs, v < 65536) : (s.putSeq d vs).source d = vs := by
  refine List.ext_getElem (by simp [putSeq_lenNat s d vs hlen]) fun j hj hj' => ?_
  have hget : (s.putSeq d vs).bufAt d j = BitVec.ofNat 16 vs[j] := by
    rw [State.bufAt, State.putSeq_buf, cellGet_writeFrom_lt 0 _ j _ (by simpa using hj')]
    simp [hj']
  have hsmall := hvs vs[j] (List.getElem_mem hj')
  simp only [State.source, List.getElem_map, List.getElem_range, hget, BitVec.toNat_ofNat]
  omega

/-- Settles O28: a sequence of 16-bit elements that fits reads back, and only one buffer and its length are written. -/
theorem sequenceWriteStoresElements : Obligations.SequenceWriteStoresElements := by
  intro s d vs hlen hvs
  refine ⟨putSeq_source s d vs hlen hvs, putSeq_lenNat s d vs hlen, putSeq_bufAt_ge s d vs, by simp, by simp, ?_⟩
  cases d with
  | b0 => exact ⟨_, s.buf1, _, s.len1, rfl⟩
  | b1 => exact ⟨s.buf0, _, s.len0, _, rfl⟩

/-! ### Registers as the host sees them -/

theorem placeWithin_ne_reg (size index : Nat) (p : Place) (r : Reg) (hp : p ≠ .reg r) :
    placeWithin size index p ≠ .reg r := by
  unfold placeWithin
  split
  · exact hp
  · simp

theorem eq_regIndex_of_regOfIndex (n : Nat) (r : Reg) (h : regOfIndex n = some r) : n = regIndex r := by
  unfold regOfIndex at h
  split at h <;> cases h <;> rfl

/-- A register is at the one address that is its index (spec/20_memory.md R62). -/
theorem locate_eq_reg_iff (a : Word) (r : Reg) : locate a = .reg r ↔ a = BitVec.ofNat 32 (regIndex r) := by
  constructor
  · intro h
    unfold locate at h
    dsimp only at h
    split at h
    · rename_i hhigh
      split at h
      case h_1 hspace =>
        cases hidx : regOfIndex (bitField a 15 0) with
        | none =>
          rw [hidx] at h
          cases h
        | some r' =>
          rw [hidx] at h
          obtain rfl := Place.reg.inj h
          have hlow := eq_regIndex_of_regOfIndex _ _ hidx
          have hlt := a.isLt
          simp only [bitField] at hhigh hspace hlow
          refine BitVec.eq_of_toNat_eq ?_
          rw [BitVec.toNat_ofNat]
          omega
      case h_9 => cases h
      all_goals exact absurd h (placeWithin_ne_reg _ _ _ _ (by simp))
    · cases h
  · rintro rfl
    cases r <;> decide

/-- A write of a register that is no port stores. -/
theorem transact_write_reg (a v : Word) (r : Reg) (s : State) (hl : locate a = .reg r) (hr : regAccess r ≠ .wo) :
    transact (.write a v) s = .next (s.writeReg v r) := by
  obtain ⟨_, hx, -⟩ | ⟨_, _, hx, hport, -⟩ | ⟨_, _, hx, hport, -⟩ | ⟨_, _, hx, -, -, h⟩ :=
    transact_cases (.write a v) s <;> cases hx
  · cases hl.symm.trans hport
    exact absurd rfl hr
  · cases hl.symm.trans hport
    exact absurd rfl hr
  · rw [h, hl, State.store]

/-- An `RW` register takes all 32 bits (spec/10_state.md R38). -/
theorem readReg_writeReg_of_rw (s : State) (v : Word) (r : Reg) (hr : regAccess r = .rw) :
    (s.writeReg v r).readReg r = v := by
  cases r with
  | asize | eob | dig1 | dig2 | len0 | len1 | bslen | mpos | arg0 | arg1 => rfl
  | _ => cases hr

/-- A write of an `RO` register is ignored (spec/10_state.md R38). -/
theorem writeReg_of_ro (s : State) (v : Word) (r : Reg) (hr : regAccess r = .ro) : s.writeReg v r = s := by
  cases r with
  | status | err | errinfo | errcmd | res0 | res1 | hsize | nnode | root => rfl
  | _ => cases hr

/-- A port reads as 0 (spec/10_state.md R25). -/
theorem readReg_of_wo (s : State) (r : Reg) (hr : regAccess r = .wo) : s.readReg r = 0 := by
  cases r with
  | cmd | ctrl => rfl
  | _ => cases hr

/-- Settles O11: the three kinds of access, at the address of each register. -/
theorem registerWritesStoreAllBits : Obligations.RegisterWritesStoreAllBits := by
  intro s r a v ha
  have hl := (locate_eq_reg_iff a r).mpr (by rw [← ha, BitVec.ofNat_toNat, BitVec.setWidth_eq])
  have hread : ∀ t : State, t.memRead a = t.readReg r := fun t => by rw [State.memRead, hl, State.view]
  refine ⟨fun hr => ?_, fun hr => ?_, fun hr => (hread s).trans (readReg_of_wo s r hr)⟩
  · have hstored := readReg_writeReg_of_rw s v r hr
    exact ⟨_, transact_write_reg a v r s hl (by simp [hr]), hstored, (hread _).trans hstored⟩
  · exact ⟨by rw [transact_write_reg a v r s hl (by simp [hr]), writeReg_of_ro s v r hr], hread s⟩

/-! ### The validity flags (spec/10_state.md R23) -/

/-- No command clears `TREEV`. -/
theorem exec_keeps_treev (i : Instr) (s t : State) (h : exec i s = .next t) (hs : s.treev = true) :
    t.treev = true := by
  obtain ⟨-, rfl⟩ | ⟨-, he⟩ | ⟨-, r, -, rfl⟩ := exec_cases i s t h
  · exact hs
  · cases effect_completed i s t he <;> simp [hs]
  · exact hs

/-- `TREEV` stays under every transaction but the soft reset. -/
theorem transact_keeps_treev (s t : State) (x : Transaction) (h : transact x s = .next t) (hs : s.treev = true) :
    t.treev = true ∨ ∃ v, x = .write 0x00001#32 v ∧ v.getLsbD 0 = true := by
  obtain ⟨a, -, hx⟩ | ⟨a, w, -, -, hx⟩ | ⟨a, v, rfl, hl, hx⟩ | ⟨a, v, -, -, -, hx⟩ := transact_cases x s <;>
    rw [hx] at h
  · exact .inl (Host.Outcome.next.inj h ▸ hs)
  · obtain ⟨-, hw⟩ | ⟨-, e, -, hw⟩ | ⟨-, i, -, hw⟩ := issueCommand_cases w s <;> rw [hw] at h
    · exact .inl (Host.Outcome.next.inj h ▸ hs)
    · exact .inl (Host.Outcome.next.inj h ▸ hs)
    · exact .inl (exec_keeps_treev i s t h hs)
  · obtain rfl := Host.Outcome.next.inj h
    cases hv : v.getLsbD 0 with
    | true => exact .inr ⟨v, by rw [(locate_eq_reg_iff a .ctrl).mp hl]; rfl, hv⟩
    | false => exact .inl (by rwa [State.writeCtrl, if_neg (by rw [hv]; decide)])
  · obtain rfl := Host.Outcome.next.inj h
    rw [State.store_eq]
    exact .inl hs

/-- Settles O27: which transactions and commands move the two flags; the word is computed for the eight cases. -/
theorem validityFlagsFollowTheBuild : Obligations.ValidityFlagsFollowTheBuild := by
  refine ⟨transact_keeps_treev, fun s t hf h ht => ?_, fun s t hf h ht => ?_, fun s => ?_⟩
  · obtain ⟨-, -, -, rfl⟩ := (hufBuild_ok s t).mp (effect_of_completed .hufBld s t hf h ht)
    exact ⟨rfl, rfl⟩
  · obtain ⟨-, rfl⟩ := (hufTable_ok s t).mp (effect_of_completed .hufTab s t hf h ht)
    rfl
  · rw [State.status]
    generalize s.fault = f, s.treev = t, s.codev = c
    revert f t c
    decide

/-! ### The host's position (spec/10_state.md R22) -/

/-- No command touches the host's side. -/
theorem exec_host_eq (i : Instr) (s t : State) (h : exec i s = .next t) :
    t.pc = s.pc ∧ t.pending = s.pending ∧ t.reads = s.reads := by
  obtain ⟨⟨-, -, -, -, -, -, hpending, hpc, hreads⟩, -⟩ := commandsWriteOnlyWhatIsListed i s t h
  exact ⟨hpc, hpending, hreads⟩

/-- No transaction moves the host: the step does. -/
theorem transact_position_eq (x : Transaction) (s t : State) (h : transact x s = .next t) :
    t.pc = s.pc ∧ t.pending = s.pending := by
  obtain ⟨a, -, hx⟩ | ⟨a, w, -, -, hx⟩ | ⟨a, v, -, -, hx⟩ | ⟨a, v, -, -, -, hx⟩ := transact_cases x s <;>
    rw [hx] at h
  · exact Host.Outcome.next.inj h ▸ ⟨rfl, rfl⟩
  · obtain ⟨-, hw⟩ | ⟨-, e, -, hw⟩ | ⟨-, i, -, hw⟩ := issueCommand_cases w s <;> rw [hw] at h
    · exact Host.Outcome.next.inj h ▸ ⟨rfl, rfl⟩
    · exact Host.Outcome.next.inj h ▸ ⟨rfl, rfl⟩
    · obtain ⟨hpc, hpending, -⟩ := exec_host_eq i s t h
      exact ⟨hpc, hpending⟩
  · obtain rfl := Host.Outcome.next.inj h
    unfold State.writeCtrl
    split <;> exact ⟨rfl, rfl⟩
  · obtain rfl := Host.Outcome.next.inj h
    rw [State.store_eq]
    exact ⟨rfl, rfl⟩

/-- Settles O8: the step moves the host by one, and what the transaction then does moves it no further. -/
theorem positionAdvancesByOne : Obligations.PositionAdvancesByOne := by
  refine ⟨fun s t x rest hp h => ?_, exec_host_eq, fun s hp => ?_⟩
  · obtain ⟨hnone, -⟩ | ⟨y, rest', hp', hadv, hn⟩ := step_cases s
    · rw [hp] at hnone
      cases hnone
    · obtain ⟨rfl, rfl⟩ := List.cons.inj (hp.symm.trans hp')
      rw [hn, hadv] at h
      exact transact_position_eq _ _ t h
  · obtain ⟨-, hn⟩ | ⟨x, rest, hp', -⟩ := step_cases s
    · exact hn
    · rw [hp] at hp'
      cases hp'

/-! ### Reset (spec/10_state.md R50) -/

theorem reset_readReg (r : Reg) : State.reset.readReg r = 0 := by cases r <;> rfl

/-- Every place shows the host 0 after reset (spec/20_memory.md R69 to R71 for the three derived views). -/
theorem reset_view (p : Place) : State.reset.view p = 0 := by
  cases p with
  | reg r => exact reset_readReg r
  | buf b i => cases b <;> rfl
  | bs i => rfl
  | freq c => rfl
  | heap i =>
    simp only [State.view, State.heapWord, State.heapAt, State.reset, List.getD_nil]
    split <;> rfl
  | node i =>
    simp only [State.view, State.nodeWord, State.nodeAt, State.reset, List.getD_nil]
    split <;> rfl
  | code i =>
    have hwindow : ∀ k, codeWindow [] k = 0 := fun k => by simp [codeWindow]
    simp only [State.view, State.codeWord, State.codeAt, State.reset, cellGet_nil, Option.getD_none, hwindow]
    split <;> rfl
  | unmapped => rfl

/-- Settles O15: registers, flags and memories one by one, then every address through what it names. -/
theorem resetIsAllZero : Obligations.ResetIsAllZero :=
  ⟨reset_readReg, rfl, rfl, rfl, fun b _ => by cases b <;> rfl, fun _ => rfl, fun _ => rfl, rfl, rfl, fun _ => rfl,
    fun a => reset_view (locate a)⟩

/-- An arena, a root and flags that are all zero agree. -/
theorem reset_treeOk : TreeOk State.reset := ⟨⟨rfl, rfl, rfl⟩, fun h => by cases h⟩

/-- Settles O29: the four invariants of a state that is all zero and empty. -/
theorem resetMeetsInvariants : Obligations.ResetMeetsInvariants :=
  ⟨reset_memory_wf, ⟨rfl, rfl, rfl⟩, ⟨fun i _ hi => absurd hi (Nat.not_lt_zero i), Nat.zero_le _⟩, reset_treeOk⟩

end Sys2Proof.Machine
end

-- ==== Build: the Huffman build keeps a forest that agrees with its queue (spec/44_huffman.md R211 to R214) ====
section

namespace Sys2Proof.Machine

open Sys2Proof

/-! ### Extracting from the queue -/

/-- An extract takes the root out and leaves the other entries (spec/43_pq.md R189). -/
theorem pqExtract_perm (H : List Entry) (h : H ≠ []) : (entryAt H 0 :: (pqExtract H).2).Perm H := by
  have hpos : 0 < H.length := List.length_pos_iff.mpr h
  obtain ⟨last, hlast⟩ : ∃ last, last = H.length - 1 := ⟨_, rfl⟩
  have hlt : last < (swapAt H 0 last).length := by rw [swapAt_length]; omega
  have hend : (swapAt H 0 last)[last] = entryAt H 0 := by simp [swapAt]
  have hswap : (swapAt H 0 last).take last ++ [entryAt H 0] = swapAt H 0 last := by
    rw [← hend, List.take_append_getElem, List.take_of_length_le (by rw [swapAt_length]; omega)]
  have hsift : (pqExtract H).2.Perm ((swapAt H 0 last).take last) := by
    rw [pqExtract, hlast]
    exact siftDown_perm _ _ 0 (Nat.zero_le _)
  calc (entryAt H 0 :: (pqExtract H).2).Perm (entryAt H 0 :: (swapAt H 0 last).take last) := hsift.cons _
    _ |>.Perm ((swapAt H 0 last).take last ++ [entryAt H 0]) := (List.perm_append_singleton _ _).symm
    _ |>.Perm (swapAt H 0 last) := .of_eq hswap
    _ |>.Perm H := swapAt_perm H 0 last hpos (by omega)

/-! ### Nodes of an arena -/

theorem nodeOf_mem (nodes : List Node) (i : Nat) (h : i < nodes.length) : nodeOf nodes i ∈ nodes := by
  simp [nodeOf, h]

theorem nodeOf_append_lt (nodes : List Node) (nd : Node) (i : Nat) (h : i < nodes.length) :
    nodeOf (nodes ++ [nd]) i = nodeOf nodes i := List.getD_append _ _ _ _ h

theorem nodeOf_append_length (nodes : List Node) (nd : Node) : nodeOf (nodes ++ [nd]) nodes.length = nd := by
  simp [nodeOf]

@[simp] theorem setParent_length (nodes : List Node) (i t : Nat) : (setParent nodes i t).length = nodes.length := by
  simp [setParent]

theorem nodeOf_setParent_self (nodes : List Node) (i t : Nat) (h : i < nodes.length) :
    nodeOf (setParent nodes i t) i = { nodeOf nodes i with par := BitVec.ofNat 16 t } := by
  simp [nodeOf, setParent, h]

theorem nodeOf_setParent_ne (nodes : List Node) (i j t : Nat) (h : j ≠ i) :
    nodeOf (setParent nodes i t) j = nodeOf nodes j := by
  simp [nodeOf, setParent, List.getD_eq_getElem?_getD, Ne.symm h]

/-- An arena with one internal node more, over the nodes `l` and `r` (spec/44_huffman.md R212). -/
def joinNodes (nodes : List Node) (cnt : Word) (l r : Nat) : List Node :=
  setParent (setParent (nodes ++ [innerNode cnt l r]) l nodes.length) r nodes.length

@[simp] theorem joinNodes_length (nodes : List Node) (cnt : Word) (l r : Nat) :
    (joinNodes nodes cnt l r).length = nodes.length + 1 := by simp [joinNodes]

/-- An old node keeps all but its parent, and that too unless it is one of the two joined. -/
theorem nodeOf_joinNodes_lt (nodes : List Node) (cnt : Word) (l r i : Nat) (h : i < nodes.length) :
    nodeOf (joinNodes nodes cnt l r) i = { nodeOf nodes i with
      par := if i = l ∨ i = r then BitVec.ofNat 16 nodes.length else (nodeOf nodes i).par } := by
  have hold := nodeOf_append_lt nodes (innerNode cnt l r) i h
  unfold joinNodes
  by_cases hr : i = r
  · subst hr
    rw [nodeOf_setParent_self _ _ _ (by simp; omega)]
    by_cases hl : i = l
    · subst hl
      rw [nodeOf_setParent_self _ _ _ (by simp; omega), hold]
      simp
    · rw [nodeOf_setParent_ne _ _ _ _ hl, hold]
      simp
  · rw [nodeOf_setParent_ne _ _ _ _ hr]
    by_cases hl : i = l
    · subst hl
      rw [nodeOf_setParent_self _ _ _ (by simp; omega), hold]
      simp
    · rw [nodeOf_setParent_ne _ _ _ _ hl, hold]
      simp [hl, hr]

theorem nodeOf_joinNodes_length (nodes : List Node) (cnt : Word) (l r : Nat) (hl : l < nodes.length)
    (hr : r < nodes.length) : nodeOf (joinNodes nodes cnt l r) nodes.length = innerNode cnt l r := by
  rw [joinNodes, nodeOf_setParent_ne _ _ _ _ (by omega), nodeOf_setParent_ne _ _ _ _ (by omega),
    nodeOf_append_length]

/-- A pointer to a node of an arena within its capacity is the node's index. -/
theorem ptr_toNat (i : Nat) (h : i < 65536) : (BitVec.ofNat 16 i).toNat = i := by
  rw [BitVec.toNat_ofNat]
  omega

/-! ### What one more internal node keeps -/

theorem leavesOk_joinNodes (nodes : List Node) (cnt : Word) (l r k : Nat) (hk : k ≤ nodes.length)
    (h : LeavesOk nodes k) : LeavesOk (joinNodes nodes cnt l r) k := by
  obtain ⟨hleaf, hsym⟩ := h
  refine ⟨fun i hi => ?_, fun i j hij hj => ?_⟩
  · rw [nodeOf_joinNodes_lt _ _ _ _ i (by omega)]
    exact hleaf i hi
  · rw [nodeOf_joinNodes_lt _ _ _ _ i (by omega), nodeOf_joinNodes_lt _ _ _ _ j (by omega)]
    exact hsym i j hij hj

/-- A node with a parent of the arena is none of those without one. -/
theorem ne_of_par (nodes : List Node) (c l i : Nat) (hi : i < 65535) (hc : (nodeOf nodes c).par.toNat = i)
    (hl : (nodeOf nodes l).par = nilPtr) : c ≠ l := by
  rintro rfl
  rw [hl, show nilPtr.toNat = 65535 from rfl] at hc
  omega

/-- Two nodes without a parent joined under a node that holds the sum of their counts. -/
theorem innerOk_joinNodes (nodes : List Node) (cnt : Word) (l r k : Nat) (hlen : nodes.length < 65535)
    (hl : l < nodes.length) (hr : r < nodes.length) (hlr : l ≠ r)
    (hparl : (nodeOf nodes l).par = nilPtr) (hparr : (nodeOf nodes r).par = nilPtr)
    (hcnt : cnt.toNat = (nodeOf nodes l).cnt.toNat + (nodeOf nodes r).cnt.toNat) (h : InnerOk nodes k) :
    InnerOk (joinNodes nodes cnt l r) k := by
  intro i hki hi
  rw [joinNodes_length] at hi
  rcases Nat.lt_succ_iff_lt_or_eq.mp hi with hi | rfl
  · obtain ⟨hleaf, hsym, hleft, hright, hne, hparleft, hparright, hsum⟩ := h i hki hi
    have hfree : ∀ c, (nodeOf nodes c).par.toNat = i → ¬ (c = l ∨ c = r) := by
      intro c hc hor
      rcases hor with hcl | hcr
      · exact ne_of_par nodes c l i (by omega) hc hparl hcl
      · exact ne_of_par nodes c r i (by omega) hc hparr hcr
    rw [nodeOf_joinNodes_lt _ _ _ _ i hi]
    dsimp only
    rw [nodeOf_joinNodes_lt _ _ _ _ _ (hleft.trans hi), nodeOf_joinNodes_lt _ _ _ _ _ (hright.trans hi),
      if_neg (hfree _ hparleft), if_neg (hfree _ hparright)]
    exact ⟨hleaf, hsym, hleft, hright, hne, hparleft, hparright, hsum⟩
  · have hl' := ptr_toNat l (by omega)
    have hr' := ptr_toNat r (by omega)
    rw [nodeOf_joinNodes_length _ _ _ _ hl hr]
    simp only [innerNode, hl', hr']
    rw [nodeOf_joinNodes_lt _ _ _ _ l hl, nodeOf_joinNodes_lt _ _ _ _ r hr]
    refine ⟨trivial, trivial, hl, hr, fun heq => hlr ?_, ?_, ?_, hcnt⟩
    · rw [← hl', heq, hr']
    · simp only [true_or, if_true]
      exact ptr_toNat _ (by omega)
    · simp only [or_true, if_true]
      exact ptr_toNat _ (by omega)

/-- A node is the child of the internal node it names as its parent (spec/44_huffman.md R214). -/
def HasParent (nodes : List Node) (i : Nat) : Prop :=
  (nodeOf nodes i).par.toNat < nodes.length ∧
  (nodeOf nodes (nodeOf nodes i).par.toNat).leaf = false ∧
  ((nodeOf nodes (nodeOf nodes i).par.toNat).left.toNat = i ∨
    (nodeOf nodes (nodeOf nodes i).par.toNat).right.toNat = i)

theorem hasParent_joinNodes_joined (nodes : List Node) (cnt : Word) (l r i : Nat) (hlen : nodes.length < 65535)
    (hl : l < nodes.length) (hr : r < nodes.length) (hi : i = l ∨ i = r) :
    HasParent (joinNodes nodes cnt l r) i := by
  have hpar : (nodeOf (joinNodes nodes cnt l r) i).par.toNat = nodes.length := by
    rw [nodeOf_joinNodes_lt _ _ _ _ i (by omega), if_pos hi]
    exact ptr_toNat _ (by omega)
  rw [HasParent, hpar, nodeOf_joinNodes_length _ _ _ _ hl hr, joinNodes_length]
  refine ⟨Nat.lt_succ_self _, rfl, hi.imp (fun h => ?_) fun h => ?_⟩
  · rw [h]; exact ptr_toNat l (by omega)
  · rw [h]; exact ptr_toNat r (by omega)

theorem hasParent_joinNodes_other (nodes : List Node) (cnt : Word) (l r i : Nat) (hi : i < nodes.length)
    (hne : ¬ (i = l ∨ i = r)) (h : HasParent nodes i) : HasParent (joinNodes nodes cnt l r) i := by
  obtain ⟨hpar, hleaf, hchild⟩ := h
  have hsame : (nodeOf (joinNodes nodes cnt l r) i).par = (nodeOf nodes i).par := by
    rw [nodeOf_joinNodes_lt _ _ _ _ i hi, if_neg hne]
  rw [HasParent, hsame, nodeOf_joinNodes_lt _ _ _ _ _ hpar, joinNodes_length]
  exact ⟨by omega, hleaf, hchild⟩

/-! ### The invariant of the build -/

/-- The arena and the queue between two merges of a build from `k` leaves: the queue holds the nodes that have no
parent yet, one entry each with the node's count, the last node among them; every other node has its parent. -/
structure BuildOk (k total : Nat) (nodes : List Node) (H : List Entry) : Prop where
  size : nodes.length + H.length = 2 * k
  few : H.length ≤ k
  leaves : LeavesOk nodes k
  inner : InnerOk nodes k
  free : ∀ e ∈ H, e.val.toNat < nodes.length ∧ e.key = (nodeOf nodes e.val.toNat).cnt ∧
    (nodeOf nodes e.val.toNat).par = nilPtr
  distinct : (H.map fun e => e.val.toNat).Nodup
  owned : ∀ i < nodes.length, i ∉ H.map (fun e => e.val.toNat) → HasParent nodes i
  last : nodes.length - 1 ∈ H.map fun e => e.val.toNat
  sum : (H.map fun e => e.key.toNat).sum = total

/-- The invariant does not depend on the order of the queue. -/
theorem BuildOk.of_perm {k total : Nat} {nodes : List Node} {H H' : List Entry} (h : BuildOk k total nodes H)
    (hp : H.Perm H') : BuildOk k total nodes H' where
  size := hp.length_eq ▸ h.size
  few := hp.length_eq ▸ h.few
  leaves := h.leaves
  inner := h.inner
  free e he := h.free e (hp.mem_iff.mpr he)
  distinct := (hp.map _).nodup_iff.mp h.distinct
  owned i hi hno := h.owned i hi fun hin => hno ((hp.map _).mem_iff.mp hin)
  last := (hp.map _).mem_iff.mp h.last
  sum := (hp.map fun e => e.key.toNat).sum_eq.symm.trans h.sum

/-- A merge of two entries keeps the invariant. -/
theorem BuildOk.join {k total : Nat} {nodes : List Node} {x y : Entry} {rest : List Entry}
    (h : BuildOk k total nodes (x :: y :: rest)) (hk : k ≤ cfg.amax) (htotal : total ≤ 4294967295) :
    BuildOk k total
      (joinNodes nodes (BitVec.ofNat 32 (x.key.toNat + y.key.toNat)) x.val.toNat y.val.toNat)
      (⟨BitVec.ofNat 32 (x.key.toNat + y.key.toNat), BitVec.ofNat 32 nodes.length⟩ :: rest) := by
  obtain ⟨hsize, hfew, hleaves, hinner, hfree, hdistinct, howned, -, hsum⟩ := h
  obtain ⟨hx, hxkey, hxpar⟩ := hfree x (by simp)
  obtain ⟨hy, hykey, hypar⟩ := hfree y (by simp)
  simp only [List.map_cons, List.nodup_cons, List.mem_cons, not_or] at hdistinct
  obtain ⟨⟨hxy, hxrest⟩, hyrest, hrest⟩ := hdistinct
  simp only [List.length_cons] at hsize hfew
  simp only [List.map_cons, List.sum_cons] at hsum
  rw [cfg_amax] at hk
  have hcnt : (BitVec.ofNat 32 (x.key.toNat + y.key.toNat)).toNat = x.key.toNat + y.key.toNat := by
    rw [BitVec.toNat_ofNat]; omega
  have hnew : (BitVec.ofNat 32 nodes.length).toNat = nodes.length := by rw [BitVec.toNat_ofNat]; omega
  have hnotjoined : ∀ e ∈ rest, ¬ (e.val.toNat = x.val.toNat ∨ e.val.toNat = y.val.toNat) := by
    intro e he hor
    have hmem : e.val.toNat ∈ rest.map fun e => e.val.toNat := List.mem_map_of_mem he
    rcases hor with h | h
    · exact hxrest (h ▸ hmem)
    · exact hyrest (h ▸ hmem)
  refine
    { size := by simp only [joinNodes_length, List.length_cons]; omega
      few := by simp only [List.length_cons]; omega
      leaves := leavesOk_joinNodes _ _ _ _ _ (by omega) hleaves
      inner := innerOk_joinNodes _ _ _ _ _ (by omega) hx hy hxy hxpar hypar (by rw [hcnt, hxkey, hykey]) hinner
      free := fun e he => ?_
      distinct := ?_
      owned := fun i hi hno => ?_
      last := by simp [hnew]
      sum := by simp only [List.map_cons, List.sum_cons, hcnt]; omega }
  · rcases List.mem_cons.mp he with rfl | he
    · rw [joinNodes_length, hnew, nodeOf_joinNodes_length _ _ _ _ hx hy]
      exact ⟨Nat.lt_succ_self _, rfl, rfl⟩
    · obtain ⟨hval, hkey, hpar⟩ := hfree e (by simp [he])
      rw [joinNodes_length, nodeOf_joinNodes_lt _ _ _ _ _ hval, if_neg (hnotjoined e he)]
      exact ⟨Nat.lt_succ_of_lt hval, hkey, hpar⟩
  · simp only [List.map_cons, List.nodup_cons, hnew]
    refine ⟨fun hin => ?_, hrest⟩
    obtain ⟨e, he, heq⟩ := List.mem_map.mp hin
    have hval := (hfree e (by simp [he])).1
    omega
  · simp only [List.map_cons, List.mem_cons, not_or, hnew] at hno
    rw [joinNodes_length] at hi
    have hi' : i < nodes.length := by omega
    by_cases hjoined : i = x.val.toNat ∨ i = y.val.toNat
    · exact hasParent_joinNodes_joined _ _ _ _ _ (by omega) hx hy hjoined
    · refine hasParent_joinNodes_other _ _ _ _ _ hi' hjoined (howned i hi' ?_)
      simp only [List.map_cons, List.mem_cons, not_or]
      exact ⟨fun hix => hjoined (.inl hix), fun hiy => hjoined (.inr hiy), hno.2⟩

/-- A merge joins the two nodes its entries name and puts the new node's entry into the queue. -/
theorem mergeNodes_eq (nodes : List Node) (x y : Entry) (H : List Entry) :
    mergeNodes nodes x y H =
      (joinNodes nodes (BitVec.ofNat 32 (x.key.toNat + y.key.toNat)) x.val.toNat y.val.toNat,
        pqInsert H ⟨BitVec.ofNat 32 (x.key.toNat + y.key.toNat), BitVec.ofNat 32 nodes.length⟩) := rfl

@[simp] theorem mergeOnce_snd_length (nodes : List Node) (H : List Entry) :
    (mergeOnce nodes H).2.length = H.length - 1 - 1 + 1 := by
  rw [mergeOnce, mergeNodes_eq, pqInsert_length, pqExtract_snd_length, pqExtract_snd_length]

/-- Two extracts and the merge of what they give keep the invariant. -/
theorem BuildOk.mergeOnce_ok {k total : Nat} {nodes : List Node} {H : List Entry} (h : BuildOk k total nodes H)
    (hk : k ≤ cfg.amax) (htotal : total ≤ 4294967295) (hmore : 1 < H.length) :
    BuildOk k total (mergeOnce nodes H).1 (mergeOnce nodes H).2 := by
  have hfirst := pqExtract_perm H (List.length_pos_iff.mp (by omega))
  have hsecond := pqExtract_perm (pqExtract H).2 (List.length_pos_iff.mp (by rw [pqExtract_snd_length]; omega))
  have htwo := h.of_perm ((hsecond.cons _).trans hfirst).symm
  rw [mergeOnce, mergeNodes_eq]
  exact (htwo.join hk htotal).of_perm ((pqInsert_perm _ _).trans (List.perm_append_singleton _ _)).symm

theorem BuildOk.length_pos {k total : Nat} {nodes : List Node} {H : List Entry} (h : BuildOk k total nodes H) :
    0 < H.length := by
  have hlast := List.length_pos_of_mem h.last
  rwa [List.length_map] at hlast

/-- Merging with enough rounds keeps the invariant and ends with one entry. -/
theorem BuildOk.mergeAll_ok {k total : Nat} (hk : k ≤ cfg.amax) (htotal : total ≤ 4294967295) (fuel : Nat)
    {nodes : List Node} {H : List Entry} (h : BuildOk k total nodes H) (hfuel : H.length ≤ fuel + 1) :
    BuildOk k total (mergeAll fuel nodes H).1 (mergeAll fuel nodes H).2 ∧ (mergeAll fuel nodes H).2.length = 1 := by
  induction fuel generalizing nodes H with
  | zero =>
    have hpos := h.length_pos
    exact ⟨h, show H.length = 1 by omega⟩
  | succ fuel ih =>
    rw [mergeAll]
    split
    · exact ih (h.mergeOnce_ok hk htotal ‹_›) (by rw [mergeOnce_snd_length]; omega)
    · have hpos := h.length_pos
      exact ⟨h, show H.length = 1 by omega⟩

/-- A build with one entry left is complete, and the entry names the last node (spec/44_huffman.md R214). -/
theorem BuildOk.arenaOk {k total : Nat} {nodes : List Node} {e : Entry} (h : BuildOk k total nodes [e])
    (hk : k ≤ cfg.amax) : ArenaOk nodes k ∧ e.val.toNat = nodes.length - 1 := by
  obtain ⟨hsize, -, hleaves, hinner, hfree, -, howned, hlast, -⟩ := h
  have hroot : e.val.toNat = nodes.length - 1 := by simpa [eq_comm] using hlast
  obtain ⟨-, -, hpar⟩ := hfree e (by simp)
  simp only [List.length_singleton] at hsize
  refine ⟨⟨by omega, hk, by omega, hleaves, hinner, hroot ▸ hpar, fun i hi => ?_⟩, hroot⟩
  refine howned i (by omega) ?_
  simp only [List.map_singleton, List.mem_singleton]
  omega

/-! ### The leaves and the first queue -/

/-- Each leaf is that of a symbol with a count that is not 0 (spec/44_huffman.md R211). -/
theorem mem_leavesFrom (c : Nat) (counts : List Word) (nd : Node) (h : nd ∈ leavesFrom c counts) :
    ∃ s f, c ≤ s ∧ s < c + counts.length ∧ f ≠ 0 ∧ nd = leafNode s f := by
  induction counts generalizing c with
  | nil => simp [leavesFrom] at h
  | cons f rest ih =>
    have hrest : nd ∈ leavesFrom (c + 1) rest →
        ∃ s g, c ≤ s ∧ s < c + (f :: rest).length ∧ g ≠ 0 ∧ nd = leafNode s g := by
      intro hin
      obtain ⟨s, g, hlow, hhigh, hg, rfl⟩ := ih (c + 1) hin
      exact ⟨s, g, by omega, by rw [List.length_cons]; omega, hg, rfl⟩
    rw [leavesFrom] at h
    split at h
    · exact hrest h
    · rename_i hf
      rcases List.mem_cons.mp h with rfl | hin
      · exact ⟨c, f, le_refl c, by simp, hf, rfl⟩
      · exact hrest hin

theorem leavesFrom_length_le (c : Nat) (counts : List Word) : (leavesFrom c counts).length ≤ counts.length := by
  induction counts generalizing c with
  | nil => simp [leavesFrom]
  | cons f rest ih =>
    have := ih (c + 1)
    rw [leavesFrom]
    split <;> simp only [List.length_cons] <;> omega

/-- The leaves are in strictly ascending symbol. -/
theorem leavesFrom_sorted (c : Nat) (counts : List Word) (h : c + counts.length ≤ 65536) :
    (leavesFrom c counts).Pairwise fun a b => a.sym.toNat < b.sym.toNat := by
  induction counts generalizing c with
  | nil => simp [leavesFrom]
  | cons f rest ih =>
    rw [List.length_cons] at h
    have hrest := ih (c + 1) (by omega)
    rw [leavesFrom]
    split
    · exact hrest
    · refine List.pairwise_cons.mpr ⟨fun nd hnd => ?_, hrest⟩
      obtain ⟨s, g, hlow, hhigh, -, rfl⟩ := mem_leavesFrom _ _ _ hnd
      simp only [leafNode]
      rw [ptr_toNat c (by omega), ptr_toNat s (by omega)]
      omega

/-- The counts of the leaves sum to all counts. -/
theorem leavesFrom_sum (c : Nat) (counts : List Word) :
    ((leavesFrom c counts).map fun nd => nd.cnt.toNat).sum = countSum counts := by
  induction counts generalizing c with
  | nil => rfl
  | cons f rest ih =>
    have hrest := ih (c + 1)
    rw [countSum] at hrest ⊢
    rw [leavesFrom]
    split
    · rename_i hf
      simp [hrest, hf]
    · simp [hrest, leafNode]

theorem leavesFrom_ne_nil (c : Nat) (counts : List Word) (h : counts.all (· == 0) = false) :
    leavesFrom c counts ≠ [] := by
  induction counts generalizing c with
  | nil => simp at h
  | cons f rest ih =>
    rw [leavesFrom]
    split
    · rename_i hf
      exact ih (c + 1) (by simpa [hf] using h)
    · simp

/-- The leaves of at most `AMAX` counts are leaves as the arena has them. -/
theorem leavesOk_leavesFrom (counts : List Word) (h : counts.length ≤ cfg.amax) :
    LeavesOk (leavesFrom 0 counts) (leavesFrom 0 counts).length := by
  rw [cfg_amax] at h
  refine ⟨fun i hi => ?_, fun i j hij hj => ?_⟩
  · obtain ⟨s, f, -, hs, hf, heq⟩ := mem_leavesFrom 0 counts _ (nodeOf_mem _ i hi)
    rw [heq]
    refine ⟨rfl, rfl, rfl, ?_, hf⟩
    simp only [leafNode]
    rw [ptr_toNat s (by omega), cfg_amax]
    omega
  · have hpair := List.pairwise_iff_getElem.mp (leavesFrom_sorted 0 counts (by omega)) i j (hij.trans hj) hj hij
    simpa [nodeOf, hij.trans hj, hj] using hpair

/-- The entries of nodes in arena order, the first node's index given (spec/44_huffman.md R213). -/
def queueEntries (j : Nat) (nodes : List Node) : List Entry :=
  (nodes.zipIdx j).map fun p => ⟨p.1.cnt, BitVec.ofNat 32 p.2⟩

/-- The first queue holds one entry per leaf. -/
theorem enqueueFrom_perm (j : Nat) (H : List Entry) (nodes : List Node) :
    (enqueueFrom j H nodes).Perm (H ++ queueEntries j nodes) := by
  induction nodes generalizing j H with
  | nil => simp [enqueueFrom, queueEntries]
  | cons nd rest ih =>
    refine (ih (j + 1) _).trans (((pqInsert_perm H _).append_right _).trans ?_)
    simp [queueEntries, List.zipIdx_cons]

theorem queueEntries_vals (nodes : List Node) (h : nodes.length < 2 ^ 32) :
    (queueEntries 0 nodes).map (fun e => e.val.toNat) = List.range nodes.length := by
  have hcomp : (nodes.zipIdx 0).map (fun p => (BitVec.ofNat 32 p.2).toNat) = (nodes.zipIdx 0).map Prod.snd := by
    refine List.map_congr_left fun p hp => ?_
    have hlt : p.2 < nodes.length := by simpa using List.snd_lt_add_of_mem_zipIdx hp
    rw [BitVec.toNat_ofNat, Nat.mod_eq_of_lt (by omega)]
  rw [queueEntries, List.map_map, List.range_eq_range', ← List.zipIdx_map_snd]
  exact hcomp

theorem queueEntries_keys (nodes : List Node) :
    (queueEntries 0 nodes).map (fun e => e.key.toNat) = nodes.map fun nd => nd.cnt.toNat := by
  have hfst : nodes = (nodes.zipIdx 0).map Prod.fst := by rw [List.zipIdx_map_fst]
  conv_rhs => rw [hfst]
  rw [queueEntries, List.map_map, List.map_map]
  rfl

/-- The leaves and their entries, before the first merge. -/
theorem buildOk_leaves (counts : List Word) (h : counts.length ≤ cfg.amax) (hsome : counts.all (· == 0) = false) :
    BuildOk (leavesFrom 0 counts).length (countSum counts) (leavesFrom 0 counts)
      (queueEntries 0 (leavesFrom 0 counts)) := by
  have hlen := leavesFrom_length_le 0 counts
  have hpos := List.length_pos_iff.mpr (leavesFrom_ne_nil 0 counts hsome)
  rw [cfg_amax] at h
  have hvals := queueEntries_vals (leavesFrom 0 counts) (by omega)
  refine
    { size := by simp only [queueEntries, List.length_map, List.length_zipIdx]; omega
      few := by simp [queueEntries]
      leaves := leavesOk_leavesFrom counts h
      inner := fun i hki hi => absurd hki (by omega)
      free := fun e he => ?_
      distinct := hvals ▸ List.nodup_range
      owned := fun i hi hno => absurd (List.mem_range.mpr hi) (hvals ▸ hno)
      last := hvals ▸ List.mem_range.mpr (by omega)
      sum := by rw [queueEntries_keys, leavesFrom_sum] }
  obtain ⟨⟨nd, i⟩, hp, rfl⟩ := List.mem_map.mp he
  have hget : (leavesFrom 0 counts)[i]? = some nd := by simpa using List.mem_zipIdx_iff_getElem?.mp hp
  obtain ⟨hi, -⟩ := List.getElem?_eq_some_iff.mp hget
  have hval : (BitVec.ofNat 32 i).toNat = i := by rw [BitVec.toNat_ofNat]; omega
  have hnode : nodeOf (leavesFrom 0 counts) i = nd := by simp [nodeOf, List.getD_eq_getElem?_getD, hget]
  obtain ⟨s, f, -, -, -, rfl⟩ := mem_leavesFrom 0 counts nd (List.mem_of_getElem? hget)
  simp only [hval, hnode]
  exact ⟨hi, trivial, rfl⟩

/-- A build from at most `AMAX` counts, not all 0, whose sum fits a count leaves a whole tree and one entry, that of
its root, the last node (spec/44_huffman.md R213, R214). -/
theorem buildTree_ok (counts : List Word) (h : counts.length ≤ cfg.amax) (hsum : countSum counts ≤ 4294967295)
    (hsome : counts.all (· == 0) = false) :
    ArenaOk (buildTree counts).1 (leavesFrom 0 counts).length ∧
    ∃ e, (buildTree counts).2 = [e] ∧ e.val.toNat = (buildTree counts).1.length - 1 := by
  have hk : (leavesFrom 0 counts).length ≤ cfg.amax := (leavesFrom_length_le 0 counts).trans h
  have hstart := (buildOk_leaves counts h hsome).of_perm (enqueueFrom_perm 0 [] (leavesFrom 0 counts)).symm
  obtain ⟨hend, hone⟩ := hstart.mergeAll_ok hk hsum _ (Nat.le_succ _)
  obtain ⟨e, he⟩ : ∃ e, (buildTree counts).2 = [e] := List.length_eq_one_iff.mp hone
  obtain ⟨harena, hroot⟩ : ArenaOk (buildTree counts).1 _ ∧ _ := (he ▸ hend).arenaOk hk
  exact ⟨harena, e, he, hroot⟩

/-! ### Every step keeps the tree -/

@[simp] theorem counts_length (s : State) : s.counts.length = s.asize.toNat := by simp [State.counts]

/-- A built tree in place agrees with the root and the flags. -/
theorem treeOk_installTree (s : State) (halpha : s.alphabetOk) (hsum : countSum s.counts ≤ 4294967295)
    (hsome : s.counts.all (· == 0) = false) : TreeOk (s.installTree (buildTree s.counts)) := by
  obtain ⟨harena, e, he, hroot⟩ := buildTree_ok s.counts (by simpa using halpha.2) hsum hsome
  refine ⟨⟨⟨_, harena⟩, ?_⟩, fun hc => by cases hc⟩
  rw [State.installTree_root, State.installTree_node, he, ← hroot, BitVec.ofNat_toNat, BitVec.setWidth_eq]
  rfl

/-- The agreement is about five fields of the state. -/
theorem treeOk_congr {s t : State} (h : t.treev = s.treev ∧ t.codev = s.codev ∧ t.node = s.node ∧
    t.root = s.root ∧ t.code = s.code) : TreeOk t ↔ TreeOk s := by
  obtain ⟨htreev, hcodev, hnode, hroot, hcode⟩ := h
  rw [TreeOk, TreeOk, htreev, hcodev, hnode, hroot, hcode]

/-- The two commands of the tree leave it in agreement; no other touches it. -/
theorem Completed.treeOk {s t : State} {i : Instr} (hc : Completed s i t) (h : TreeOk s) : TreeOk t := by
  cases hc with
  | hufBld halpha hsum hsome => exact treeOk_installTree s halpha hsum hsome
  | hufTab htree =>
    obtain ⟨hagree, -⟩ := h
    exact ⟨by simpa [htree] using hagree, fun _ => rfl⟩
  | _ => exact (treeOk_congr (by simp)).mpr h

/-- Settles O33, from the invariant of the build. -/
theorem stepKeepsTree : Obligations.StepKeepsTree := by
  refine step_keeps (P := TreeOk) (fun _ _ _ _ h => h) (fun s a v h => ?_) (fun _ => reset_treeOk)
    (fun _ _ _ _ h => h) (fun _ _ _ hc h => hc.treeOk h) (fun _ _ _ _ h => h)
  rw [State.store_eq]
  exact h

end Sys2Proof.Machine
end

-- ==== Addresses: the one address of each place (spec/20_memory.md R62) ====
section

namespace Sys2Proof.Machine

open Sys2Proof

/-- The address of a place: its space, 64K words each, and its index there (spec/20_memory.md R62). -/
def addressOf : Place → Option Nat
  | .reg r => some (regIndex r)
  | .buf b i => some (0x10000 * (b.bit + 1) + i)
  | .bs i => some (0x10000 * 3 + i)
  | .freq c => some (0x10000 * 4 + c)
  | .heap i => some (0x10000 * 5 + i)
  | .node i => some (0x10000 * 6 + i)
  | .code i => some (0x10000 * 7 + i)
  | .unmapped => none

theorem regIndex_lt (r : Reg) : regIndex r < 32 := by cases r <;> decide

/-- An address is its three fields put together. -/
theorem toNat_eq_fields (a : Word) :
    a.toNat = 2 ^ 20 * bitField a 31 20 + 2 ^ 16 * bitField a 19 16 + bitField a 15 0 := by
  have ha := a.isLt
  simp only [bitField]
  omega

theorem placeWithin_cases (size index : Nat) (p : Place) :
    placeWithin size index p = p ∨ placeWithin size index p = .unmapped := by
  unfold placeWithin
  split
  · exact .inl rfl
  · exact .inr rfl

/-- A host address that names a place is that place's one address. -/
theorem addressOf_locate (a : Word) (h : locate a ≠ .unmapped) : addressOf (locate a) = some a.toNat := by
  have ha := toNat_eq_fields a
  revert h
  unfold locate
  dsimp only
  split
  case isFalse => exact fun h => absurd rfl h
  case isTrue hhigh =>
    rw [hhigh] at ha
    split
    case h_1 hspace =>
      cases hidx : regOfIndex (bitField a 15 0) with
      | none => exact fun h => absurd rfl h
      | some r =>
        intro _
        have hindex := eq_regIndex_of_regOfIndex _ _ hidx
        simp only [addressOf, Option.some.injEq]
        omega
    case h_9 => exact fun h => absurd rfl h
    all_goals
      rename_i hspace
      rw [hspace] at ha
      intro h
      rw [(placeWithin_cases _ _ _).resolve_right h, addressOf, ha]
      simp [Bsel.bit]

/-- No place but the unmapped one has two addresses. -/
theorem locate_injective {a a' : Word} (h : locate a' = locate a) (ha : locate a ≠ .unmapped) : a' = a := by
  have hsome := addressOf_locate a' (h ▸ ha)
  rw [h, addressOf_locate a ha, Option.some.injEq] at hsome
  exact BitVec.eq_of_toNat_eq hsome.symm

/-- What the map does with the three fields is what it does with an address made of them. -/
theorem locate_ofNat {space index : Nat} {p : Place} (hspace : space < 16) (hindex : index < 65536)
    (h : ∀ a, bitField a 31 20 = 0 → bitField a 19 16 = space → bitField a 15 0 = index → locate a = p) :
    locate (BitVec.ofNat 32 (65536 * space + index)) = p := by
  refine h _ ?_ ?_ ?_ <;>
    · rw [bitField, BitVec.toNat_ofNat]
      omega

/-- A place within its memory is found at its address (spec/20_memory.md R62). -/
theorem locate_addressOf {p : Place} {n : Nat} (hp : PlaceOk p) (h : addressOf p = some n) :
    locate (BitVec.ofNat 32 n) = p := by
  cases p with
  | reg r =>
    obtain rfl := Option.some.inj h
    exact (locate_eq_reg_iff _ r).mpr rfl
  | buf b i =>
    obtain rfl := Option.some.inj h
    rw [PlaceOk, cfg_nmax] at hp
    cases b <;>
      exact locate_ofNat (by decide) (by omega) fun a hhigh hspace hindex => by
        simp [locate, hhigh, hspace, hindex, placeWithin, hp, Bsel.bit]
  | bs i | freq i | heap i | node i | code i =>
    obtain rfl := Option.some.inj h
    simp only [PlaceOk, cfg_bmax, cfg_amax, cfg_heapmax, cfg_nodemax] at hp
    exact locate_ofNat (by decide) (by omega) fun a hhigh hspace hindex => by
      simp [locate, hhigh, hspace, hindex, placeWithin, hp]
  | unmapped => cases h

end Sys2Proof.Machine
end

-- ==== Bits: a sum of bits at their powers of two (spec/00_scope.md R10) ====
section

namespace Sys2Proof.Machine

open Sys2Proof

/-- One bit more shifts the others up. -/
theorem sum_bits_succ (f : Nat → Bool) (n : Nat) :
    ((List.range (n + 1)).map fun t => (f t).toNat * 2 ^ (n - t)).sum =
      Nat.bit (f n) ((List.range n).map fun t => (f t).toNat * 2 ^ (n - 1 - t)).sum := by
  have hshift : (List.range n).map (fun t => (f t).toNat * 2 ^ (n - t)) =
      (List.range n).map fun t => 2 * ((f t).toNat * 2 ^ (n - 1 - t)) := by
    refine List.map_congr_left fun t ht => ?_
    have hlt := List.mem_range.mp ht
    rw [show n - t = n - 1 - t + 1 by omega, Nat.pow_succ]
    ring
  rw [List.range_succ, List.map_append, List.sum_append, hshift, List.sum_map_mul_left, Nat.bit_val]
  simp

/-- A sum of `n` bits, the first at the top, has each of them at its place. -/
theorem testBit_sum_bits (f : Nat → Bool) {n t : Nat} (h : t < n) :
    (((List.range n).map fun t => (f t).toNat * 2 ^ (n - 1 - t)).sum).testBit (n - 1 - t) = f t := by
  induction n with
  | zero => omega
  | succ n ih =>
    rw [Nat.add_sub_cancel, sum_bits_succ]
    rcases Nat.lt_succ_iff_lt_or_eq.mp h with ht | rfl
    · rw [show n - t = n - 1 - t + 1 by omega, Nat.testBit_bit_succ, ih ht]
    · rw [Nat.sub_self, Nat.testBit_bit_zero]

end Sys2Proof.Machine
end

-- ==== Host: what each read shows and each write changes (spec/20_memory.md R63 to R71) ====
section

namespace Sys2Proof.Machine

open Sys2Proof

/-! ### The host's reads (spec/20_memory.md R63) -/

theorem memRead_addressOf (s : State) {p : Place} {n : Nat} (hp : PlaceOk p) (h : addressOf p = some n) :
    s.memRead (BitVec.ofNat 32 n) = s.view p := by rw [State.memRead, locate_addressOf hp h]

/-- What the host has read before is no part of what it reads. -/
theorem memRead_withReads (s : State) (reads : List Word) (a : Word) :
    { s with reads := reads }.memRead a = s.memRead a := by
  simp only [State.memRead]
  cases locate a with
  | reg r => cases r <;> rfl
  | buf b i => cases b <;> rfl
  | _ => rfl

/-- Settles O9: the second read is of a state with other words read and nothing else. -/
theorem hostReadChangesNoState : Obligations.HostReadChangesNoState := by
  intro s a
  refine ⟨rfl, fun t h => ?_⟩
  obtain rfl := Host.Outcome.next.inj h
  simp [transact, hostRead, memRead_withReads]

/-! ### The host's writes (spec/20_memory.md R64) -/

/-- A write of a place other than the two ports stores. -/
theorem transact_write_store (s : State) (a v : Word) (hcmd : locate a ≠ .reg .cmd)
    (hctrl : locate a ≠ .reg .ctrl) : transact (.write a v) s = .next (s.store v (locate a)) := by
  obtain ⟨_, hx, -⟩ | ⟨_, _, hx, hport, -⟩ | ⟨_, _, hx, hport, -⟩ | ⟨_, _, hx, -, -, h⟩ :=
    transact_cases (.write a v) s <;> cases hx
  · exact absurd hport hcmd
  · exact absurd hport hctrl
  · exact h

/-- A write of an `RW` register changes that register and no other. -/
theorem readReg_writeReg (s : State) (v : Word) (r r' : Reg) :
    (s.writeReg v r).readReg r' = if r' = r ∧ regAccess r = .rw then v else s.readReg r' := by
  cases r <;> cases r' <;> rfl

/-- A store to one place shows at no other. -/
theorem view_store_of_ne (s : State) (v : Word) {p q : Place} (h : q ≠ p) : (s.store v p).view q = s.view q := by
  cases p with
  | reg r =>
    cases q with
    | reg r' =>
      have hr : r' ≠ r := fun hr => h (hr ▸ rfl)
      simp [State.store, State.view, readReg_writeReg, hr]
    | _ => cases r <;> rfl
  | buf b i =>
    cases q with
    | reg r' => cases b <;> cases r' <;> rfl
    | buf d j =>
      obtain rfl | rfl := eq_or_eq_otherBuf b d
      · have hj : j ≠ i := fun hj => h (hj ▸ rfl)
        simp [State.store, State.view, State.bufAt, hj]
      · simp [State.store, State.view, State.bufAt]
    | _ => cases b <;> rfl
  | bs i =>
    cases q with
    | reg r' => cases r' <;> rfl
    | buf d j => cases d <;> rfl
    | bs j =>
      have hj : j ≠ i := fun hj => h (hj ▸ rfl)
      simp [State.store, State.view, State.bsAt, hj]
    | _ => rfl
  | freq c =>
    cases q with
    | reg r' => cases r' <;> rfl
    | buf d j => cases d <;> rfl
    | freq j =>
      have hj : j ≠ c := fun hj => h (hj ▸ rfl)
      simp [State.store, State.view, State.freqAt, hj]
    | _ => rfl
  | _ => rfl

/-- Settles O10: no other address names the place written, unless nothing is written at all. -/
theorem hostWriteChangesOneWord : Obligations.HostWriteChangesOneWord := by
  intro s t a v hcmd hctrl h
  rw [transact_write_store s a v (mt (locate_eq_reg_iff _ _).mp hcmd) (mt (locate_eq_reg_iff _ _).mp hctrl)] at h
  obtain rfl := Host.Outcome.next.inj h
  refine ⟨fun a' ha' => ?_, ?_⟩
  · by_cases hun : locate a = .unmapped
    · rw [hun, State.store]
    · exact view_store_of_ne s v (mt (locate_injective · hun) ha')
  · rw [State.store_eq]
    simp

theorem transact_write_addressOf (s : State) (v : Word) {p : Place} {n : Nat} (hp : PlaceOk p)
    (h : addressOf p = some n) (hcmd : p ≠ .reg .cmd) (hctrl : p ≠ .reg .ctrl) :
    transact (.write (BitVec.ofNat 32 n) v) s = .next (s.store v p) := by
  have hl := locate_addressOf hp h
  rw [transact_write_store s _ v (hl ▸ hcmd) (hl ▸ hctrl), hl]

/-- Settles O12, from the element each store writes. -/
theorem readWriteWindows : Obligations.ReadWriteWindows := by
  intro s v i
  refine ⟨fun b hi => ?_, fun hi => ?_, fun hi => ?_⟩
  · have ha : addressOf (.buf b i) = some (bufBase b + i) := by cases b <;> rfl
    have hp : PlaceOk (.buf b i) := hi
    refine ⟨memRead_addressOf s hp ha, _, transact_write_addressOf s v hp ha (by simp) (by simp), ?_⟩
    cases b <;> exact ⟨cellGet_cellSet_self _ _ _ _, fun j hj => cellGet_cellSet_ne _ _ _ hj, rfl, rfl, rfl⟩
  · have hp : PlaceOk (.bs i) := hi
    refine ⟨memRead_addressOf s hp rfl, _, transact_write_addressOf s v hp rfl (by simp) (by simp), ?_⟩
    exact ⟨cellGet_cellSet_self _ _ _ _, rfl, fun j hj => cellGet_cellSet_ne _ _ _ hj⟩
  · have hp : PlaceOk (.freq i) := hi
    refine ⟨memRead_addressOf s hp rfl, _, transact_write_addressOf s v hp rfl (by simp) (by simp), ?_⟩
    exact ⟨cellGet_cellSet_self _ _ _ _, rfl, fun j hj => cellGet_cellSet_ne _ _ _ hj⟩

/-! ### Addresses that name nothing (spec/20_memory.md R66) -/

theorem heapWord_of_beyond (s : State) (i : Nat) (h : 2 * s.heap.length ≤ i) : s.heapWord i = 0 := by
  have hnone : s.heapAt (i / 2) = Entry.zero := List.getD_eq_default _ _ (by omega)
  simp [State.heapWord, hnone, Entry.zero]

theorem nodeWord_of_beyond (s : State) (i : Nat) (h : 8 * s.node.length ≤ i) : s.nodeWord i = 0 := by
  have hnone : s.nodeAt (i / 8) = Node.zero := List.getD_eq_default _ _ (by omega)
  simp only [State.nodeWord, hnone, Node.zero]
  split <;> rfl

/-- From space 5 on nothing is stored (spec/20_memory.md R64). -/
theorem store_of_address_ge (s : State) (v : Word) {p : Place} (hp : PlaceOk p)
    (h : ∀ n, addressOf p = some n → 0x50000 ≤ n) : s.store v p = s := by
  cases p with
  | reg r =>
    have hr := regIndex_lt r
    have := h _ rfl
    omega
  | buf b i =>
    rw [PlaceOk, cfg_nmax] at hp
    have := h _ rfl
    cases b <;> simp only [Bsel.bit] at this <;> omega
  | bs i =>
    rw [PlaceOk, cfg_bmax] at hp
    have := h _ rfl
    omega
  | freq c =>
    rw [PlaceOk, cfg_amax] at hp
    have := h _ rfl
    omega
  | _ => rfl

theorem transact_write_of_address_ge (s : State) (a v : Word)
    (h : ∀ n, addressOf (locate a) = some n → 0x50000 ≤ n) : transact (.write a v) s = .next s := by
  have hport : ∀ r : Reg, locate a ≠ .reg r := fun r hl => by
    have hr := regIndex_lt r
    have := h (regIndex r) (by rw [hl, addressOf])
    omega
  rw [transact_write_store s a v (hport _) (hport _), store_of_address_ge s v (locate_within a) h]

/-- The two ways of spec/20_memory.md R66 to name nothing: no place of the map, or one beyond the valid entries. -/
def NamesNothing (s : State) : Place → Prop
  | .unmapped => True
  | .heap i => 2 * s.heap.length ≤ i
  | .node i => 8 * s.node.length ≤ i
  | _ => False

theorem view_of_namesNothing (s : State) {p : Place} (h : NamesNothing s p) : s.view p = 0 := by
  cases p with
  | unmapped => rfl
  | heap i => exact heapWord_of_beyond s i h
  | node i => exact nodeWord_of_beyond s i h
  | _ => cases h

theorem address_ge_of_namesNothing {s : State} {p : Place} (h : NamesNothing s p) (n : Nat)
    (hn : addressOf p = some n) : 0x50000 ≤ n := by
  cases p with
  | unmapped => cases hn
  | heap i | node i =>
    obtain rfl := Option.some.inj hn
    omega
  | _ => cases h

/-- Settles O14: a place with an address, within its memory, is at no address listed but for the entries beyond. -/
theorem unmappedAddressesDoNothing : Obligations.UnmappedAddressesDoNothing := by
  intro s a v hlist
  have hnone : NamesNothing s (locate a) := by
    have haddr := addressOf_locate a
    have hin := locate_within a
    generalize locate a = p at haddr hin ⊢
    cases p with
    | unmapped => trivial
    | reg r =>
      have hr := regIndex_lt r
      have hindex := Option.some.inj (haddr (by simp))
      obtain h | h | ⟨-, h⟩ | h := hlist
      · omega
      · omega
      · exact absurd (by omega) (h r)
      · omega
    | buf b i =>
      have hindex := Option.some.inj (haddr (by simp))
      rw [PlaceOk, cfg_nmax] at hin
      cases b <;> simp only [Bsel.bit] at hindex <;> omega
    | bs i | freq i | heap i | node i | code i =>
      have hindex := Option.some.inj (haddr (by simp))
      simp only [PlaceOk, cfg_bmax, cfg_amax, cfg_heapmax, cfg_nodemax] at hin
      simp only [NamesNothing]
      omega
  exact ⟨view_of_namesNothing s hnone,
    transact_write_of_address_ge s a v (address_ge_of_namesNothing hnone)⟩

/-! ### The read-only spaces (spec/20_memory.md R69 to R71) -/

theorem memRead_heap (s : State) {i : Nat} (h : i < 1024) :
    s.memRead (BitVec.ofNat 32 (0x50000 + i)) = s.heapWord i := memRead_addressOf (p := .heap i) s h rfl

theorem memRead_node (s : State) {i : Nat} (h : i < 8184) :
    s.memRead (BitVec.ofNat 32 (0x60000 + i)) = s.nodeWord i := memRead_addressOf (p := .node i) s h rfl

theorem memRead_code (s : State) {i : Nat} (h : i < 2048) :
    s.memRead (BitVec.ofNat 32 (0x70000 + i)) = s.codeWord i := memRead_addressOf (p := .code i) s h rfl

/-- Code bit `32 * k + t` is bit `31 - t` of window `k` (spec/20_memory.md R71). -/
theorem codeWindow_getLsbD (bits : Bits) (k : Nat) {t : Nat} (h : t < 32) :
    (codeWindow bits k).getLsbD (31 - t) = bits.getD (32 * k + t) false := by
  rw [codeWindow, BitVec.getLsbD_ofNat, testBit_sum_bits (fun t => bits.getD (32 * k + t) false) h]
  simp [show 31 - t < 32 by omega]

theorem codeWord_window (s : State) (c : Nat) {k : Nat} (h : k < 2) :
    s.codeWord (4 * c + (1 + k)) = codeWindow ((s.codeAt c).getD []) k := by
  interval_cases k <;> simp [State.codeWord, Nat.mul_add_div]

/-- Settles O13, space by space; what is beyond the valid entries names nothing. -/
theorem readOnlyWindows : Obligations.ReadOnlyWindows := by
  intro s hheap hnode
  refine ⟨fun i hi => ?_, fun j hj hlt => ?_, fun i hi => ?_, fun j hj hlt => ?_, fun c hc bits hbits => ?_,
    fun space j v hlow hhigh hj => ?_⟩
  · rw [Nat.add_assoc, memRead_heap s (by omega), memRead_heap s (by omega)]
    simp [State.heapWord, Nat.mul_add_div]
  · refine (unmappedAddressesDoNothing s _ 0 ?_).1
    rw [BitVec.toNat_ofNat]
    omega
  · simp only [Nat.add_assoc]
    simp (disch := omega) only [memRead_node]
    cases hleaf : (s.nodeAt i).leaf <;> simp [State.nodeWord, Nat.mul_add_div, hleaf]
  · refine (unmappedAddressesDoNothing s _ 0 ?_).1
    rw [BitVec.toNat_ofNat]
    omega
  · have hcode : (s.codeAt c).getD [] = bits := by
      obtain h | ⟨h, rfl⟩ := hbits <;> rw [h] <;> rfl
    simp only [Nat.add_assoc]
    refine ⟨?_, fun j hj => ?_, ?_⟩
    · rw [memRead_code s (by omega)]
      simp [State.codeWord, hcode]
    · rw [memRead_code s (by omega), codeWord_window s c (by omega), hcode, codeWindow_getLsbD bits _ (by omega),
        Nat.div_add_mod]
    · rw [memRead_code s (by omega)]
      simp [State.codeWord]
  · refine transact_write_of_address_ge s _ v fun n hn => ?_
    have hne : locate (BitVec.ofNat 32 (0x10000 * space + j)) ≠ .unmapped := fun h => by rw [h] at hn; cases hn
    rw [addressOf_locate _ hne, BitVec.toNat_ofNat] at hn
    have := Option.some.inj hn
    omega

end Sys2Proof.Machine
end

-- ==== Encoding: which words are commands, and what issuing a word does (spec/30_encoding.md R91 to R98) ====
section

namespace Sys2Proof.Machine

open Sys2Proof

/-! ### Fields of a word (spec/30_encoding.md R91) -/

/-- A word is its three fields put together. -/
theorem ofNat_splitWord (w : Word) :
    BitVec.ofNat 32 ((splitWord w).rsv * 512 + (splitWord w).b * 256 + (splitWord w).op) = w := by
  have hw := w.isLt
  refine BitVec.eq_of_toNat_eq ?_
  simp only [splitWord, bitField, BitVec.toNat_ofNat]
  omega

/-- Field `b` is one bit. -/
theorem splitWord_b_lt (w : Word) : (splitWord w).b < 2 := Nat.mod_lt _ (by decide)

theorem bit_selectOfBit {b : Nat} (hb : b < 2) : (selectOfBit b).bit = b := by
  interval_cases b <;> rfl

/-! ### Decoding -/

/-- A command without a buffer select is the answer only for `b = 0`. -/
theorem plainCommand_eq_ok {b : Nat} {i j : Instr} (h : plainCommand b j = .ok i) : b = 0 ∧ j = i := by
  unfold plainCommand at h
  split at h
  · exact ⟨‹_›, Except.ok.inj h⟩
  · cases h

/-- The command an opcode selects has the opcode and the buffer select it was selected by. -/
theorem fields_of_commandOf {op b : Nat} {i : Instr} (hb : b < 2) (h : commandOf op b = .ok i) :
    i.fields = ⟨0, b, op⟩ := by
  unfold commandOf at h
  split at h
  case h_9 | h_10 | h_11 | h_13 | h_14 =>
    obtain ⟨rfl, rfl⟩ := plainCommand_eq_ok h
    rfl
  case h_17 => cases h
  all_goals
    obtain rfl := Except.ok.inj h
    simp [Instr.fields, Instr.select, Instr.opcode, bit_selectOfBit hb]

/-- A word that decodes splits into the fields of its command. -/
theorem splitWord_of_decode {w : Word} {i : Instr} (h : decode w = .ok i) : splitWord w = i.fields := by
  simp only [decode] at h
  split at h
  case isTrue hrsv => rw [fields_of_commandOf (splitWord_b_lt w) h, ← hrsv]
  case isFalse => cases h

/-- A command has one word (spec/30_encoding.md R98). -/
theorem decode_eq_ok_iff (w : Word) (i : Instr) : decode w = .ok i ↔ encode i = w := by
  constructor
  · intro h
    rw [encode, ← splitWord_of_decode h, ofNat_splitWord]
  · rintro rfl
    exact decode_encode i

theorem encode_injective : Function.Injective encode := fun i j h =>
  Except.ok.inj ((decode_encode i).symm.trans ((decode_eq_ok_iff _ j).mpr h.symm))

/-- The encoded form of every command. -/
theorem encodedForm (i : Instr) : Laws.EncodedForm.Statement i := by
  cases i with
  | bwtEnc b => exact Laws.EncodedForm.bwtEnc b
  | bwtDec b => exact Laws.EncodedForm.bwtDec b
  | mtfEnc b => exact Laws.EncodedForm.mtfEnc b
  | mtfDec b => exact Laws.EncodedForm.mtfDec b
  | zrlEnc b => exact Laws.EncodedForm.zrlEnc b
  | zrlDec b => exact Laws.EncodedForm.zrlDec b
  | bijEnc b => exact Laws.EncodedForm.bijEnc b
  | bijDec b => exact Laws.EncodedForm.bijDec b
  | pqClr => exact Laws.EncodedForm.pqClr
  | pqIns => exact Laws.EncodedForm.pqIns
  | pqExt => exact Laws.EncodedForm.pqExt
  | hufCnt b => exact Laws.EncodedForm.hufCnt b
  | hufBld => exact Laws.EncodedForm.hufBld
  | hufTab => exact Laws.EncodedForm.hufTab
  | hufEnc b => exact Laws.EncodedForm.hufEnc b
  | hufDec b => exact Laws.EncodedForm.hufDec b

/-- Settles O2: a word that decodes is put together again from the fields of its command. -/
theorem decodeInvertsEncode : Obligations.DecodeInvertsEncode := by
  refine ⟨fun i => ?_, fun w i => (decode_eq_ok_iff w i).mp⟩
  obtain ⟨hwf, -, -⟩ := encodedForm i
  exact ⟨hwf, decode_encode i⟩

/-- Settles O1, by running the decoder on each word. -/
theorem commandWordsDecode : Obligations.CommandWordsDecode := by
  unfold Obligations.CommandWordsDecode
  decide

/-! ### The rows of the table (spec/30_encoding.md R92) -/

/-- The row of a command in the order of `specTable`'s columns: mnemonic, `op`, uses `b`, match, mask. -/
def rowOf (i : Instr) : String × Nat × Bool × Word × Word :=
  (i.mnemonic, i.opcode, i.select.isSome, i.rowMatch, i.rowMask)

/-- One command of each row in the table's order, with `b` as its buffer select where the row uses it. -/
def commandsWith (b : Bsel) : List Instr :=
  [.bwtEnc b, .bwtDec b, .mtfEnc b, .mtfDec b, .zrlEnc b, .zrlDec b, .bijEnc b, .bijDec b,
   .pqClr, .pqIns, .pqExt, .hufCnt b, .hufBld, .hufTab, .hufEnc b, .hufDec b]

/-- The printed table is the commands' rows, whichever buffer they select. -/
theorem specTable_eq_map_rowOf (b : Bsel) : specTable = (commandsWith b).map rowOf := rfl

theorem mem_commandsWith_iff (b : Bsel) (i : Instr) : i ∈ commandsWith b ↔ i.select = none ∨ i.select = some b := by
  cases i <;> simp [commandsWith, Instr.select]

theorem rowOf_mem_specTable (i : Instr) : rowOf i ∈ specTable := by
  have hi : ∃ b, i ∈ commandsWith b := by
    cases hsel : i.select with
    | none => exact ⟨.b0, (mem_commandsWith_iff _ _).mpr (.inl hsel)⟩
    | some b => exact ⟨b, (mem_commandsWith_iff _ _).mpr (.inr hsel)⟩
  obtain ⟨b, hb⟩ := hi
  rw [specTable_eq_map_rowOf b]
  exact List.mem_map_of_mem hb

/-- The buffer bit 8 of a word names (spec/30_encoding.md R91, R93). -/
def selectOfWord (w : Word) : Bsel := if w.getLsbD 8 then .b1 else .b0

/-- The mask of a row without `b` keeps all bits. -/
theorem and_fullMask (w : Word) : w &&& 0xFFFFFFFF#32 = w := BitVec.and_allOnes

/-- Bit 8 and the bits under the mask `0xFFFFFEFF` are the whole word. -/
theorem and_mask_or_bit8 (w : Word) : w &&& 0xFFFFFEFF#32 ||| BitVec.ofNat 32 ((selectOfWord w).bit * 256) = w := by
  have hbit : BitVec.ofNat 32 ((selectOfWord w).bit * 256) = w &&& 0x00000100#32 := by
    rw [show 0x00000100#32 = BitVec.twoPow 32 8 by decide, BitVec.and_twoPow, selectOfWord]
    cases w.getLsbD 8 <;> rfl
  rw [hbit, ← BitVec.and_or_distrib_left]
  exact and_fullMask w

/-- A command's word is its row's match, with bit 8 set for buffer 1. -/
theorem encode_eq_rowMatch_or (i : Instr) :
    encode i = i.rowMatch ||| BitVec.ofNat 32 (i.fields.b * 256) := by
  cases i with
  | pqClr | pqIns | pqExt | hufBld | hufTab => decide
  | _ b => cases b <;> decide

/-- A word that matches a command's row, with the command's buffer select in bit 8, is the command's word. -/
theorem encode_of_rowMatches {w : Word} {i : Instr} (hsel : i ∈ commandsWith (selectOfWord w))
    (h : w &&& i.rowMask = i.rowMatch) : encode i = w := by
  rw [encode_eq_rowMatch_or, ← h, Instr.rowMask, Instr.fields]
  obtain hsel | hsel := (mem_commandsWith_iff _ _).mp hsel <;> rw [hsel]
  · simp [and_fullMask]
  · exact and_mask_or_bit8 w

/-- A word that matches a row decodes to a command of that row. -/
theorem decode_of_rowMatches {w : Word} {row : String × Nat × Bool × Word × Word} (hrow : row ∈ specTable)
    (h : w &&& row.2.2.2.2 = row.2.2.2.1) :
    ∃ i ∈ commandsWith (selectOfWord w), decode w = .ok i ∧ rowOf i = row := by
  rw [specTable_eq_map_rowOf (selectOfWord w)] at hrow
  obtain ⟨i, hi, rfl⟩ := List.mem_map.mp hrow
  exact ⟨i, hi, (decode_eq_ok_iff w i).mpr (encode_of_rowMatches hi h), rfl⟩

theorem select_of_mem_commandsWith {b : Bsel} {i : Instr} (h : i ∈ commandsWith b) :
    i.select = if i.select.isSome then some b else none := by
  obtain h | h := (mem_commandsWith_iff b i).mp h <;> rw [h] <;> rfl

/-- Settles O3: a row is that of its commands, and a word decodes to one command at most. -/
theorem decodeSelectsByTableRow : Obligations.DecodeSelectsByTableRow := by
  refine ⟨fun w row hrow h => ?_, fun w i h => ?_, fun w row hrow row' hrow' h h' => ?_⟩
  · obtain ⟨i, hi, hdec, rfl⟩ := decode_of_rowMatches hrow h
    exact ⟨i, hdec, rfl, rfl, select_of_mem_commandsWith hi⟩
  · obtain rfl := (decode_eq_ok_iff w i).mp h
    obtain ⟨-, -, hmatch⟩ := encodedForm i
    exact ⟨rowOf i, rowOf_mem_specTable i, hmatch, rfl⟩
  · obtain ⟨i, -, hi, rfl⟩ := decode_of_rowMatches hrow h
    obtain ⟨j, -, hj, rfl⟩ := decode_of_rowMatches hrow' h'
    rw [Except.ok.inj (hi.symm.trans hj)]

/-! ### Illegal words (spec/30_encoding.md R94) -/

/-- The table refuses an opcode of no row, and `b` set in a command without a buffer select. -/
theorem commandOf_refuses_iff (op b : Nat) :
    (∃ e, commandOf op b = .error e) ↔
      op ∉ [0x10, 0x11, 0x20, 0x21, 0x30, 0x31, 0x32, 0x33, 0x40, 0x41, 0x42, 0x50, 0x51, 0x52, 0x53, 0x54] ∨
      (b ≠ 0 ∧ op ∈ [0x40, 0x41, 0x42, 0x51, 0x52]) := by
  unfold commandOf
  split
  case h_9 | h_10 | h_11 | h_13 | h_14 =>
    rw [plainCommand]
    split <;> simp [*]
  case h_17 => exact iff_of_true ⟨_, rfl⟩ (.inl (by simp_all))
  all_goals simp

/-- The decoder refuses a word for its reserved bits or because the table refuses its fields. -/
theorem decode_refuses_iff (w : Word) :
    (∃ e, decode w = .error e) ↔
      (splitWord w).rsv ≠ 0 ∨ ∃ e, commandOf (splitWord w).op (splitWord w).b = .error e := by
  simp only [decode]
  split <;> simp [*]

/-- Bit 8 is field `b` (spec/30_encoding.md R91). -/
theorem splitWord_b_ne_zero_iff (w : Word) : (splitWord w).b ≠ 0 ↔ w.getLsbD 8 = true := by
  simp only [splitWord, bitField, BitVec.getLsbD, Nat.testBit_eq_decide_div_mod_eq, decide_eq_true_eq]
  omega

/-- The 27 commands: one of each row for buffer 0, and again for buffer 1 where the row uses `b`. -/
def allCommands : List Instr := commandsWith .b0 ++ (commandsWith .b1).filter (·.select.isSome)

theorem mem_allCommands (i : Instr) : i ∈ allCommands := by
  rw [allCommands, List.mem_append, List.mem_filter, mem_commandsWith_iff, mem_commandsWith_iff]
  rcases i.select with _ | _ | _ <;> simp

/-- The commands' words are the words that decode. -/
theorem mem_map_encode_iff (w : Word) : w ∈ allCommands.map encode ↔ ∃ i, decode w = .ok i := by
  simp [List.mem_map, mem_allCommands, decode_eq_ok_iff]

/-! ### Issuing a word (spec/30_encoding.md R97) -/

theorem transact_write_cmd (w : Word) (s : State) : transact (.write 0x00000#32 w) s = issueCommand w s := by
  rw [transact, hostWrite, locate_cmd]

theorem issueCommand_ignored {s : State} (w : Word) (h : s.fault = true) : issueCommand w s = .next s := by
  simp [issueCommand, h]

theorem issueCommand_illegal {w : Word} {s : State} {e : Illegal} (h : s.fault = false) (hdec : decode w = .error e) :
    issueCommand w s = .next { s with fault := true, err := 5, errinfo := 0, errcmd := w } := by
  simp [issueCommand, h, hdec, State.raise, ErrorKind.code]

/-- A command's word is the command, under a fault too: both then change nothing. -/
theorem issueCommand_legal {w : Word} {i : Instr} (s : State) (hdec : decode w = .ok i) :
    issueCommand w s = exec i s := by
  cases hf : s.fault with
  | true => rw [issueCommand_ignored w hf, exec_eq_command, command_ignored _ _ _ hf]
  | false => simp [issueCommand, hf, hdec]

/-- Settles O4: the decoder's refusals, the list of the commands' words, and the record of an illegal one. -/
theorem illegalWordsAreExactly : Obligations.IllegalWordsAreExactly := by
  refine ⟨fun w => ?_, ⟨allCommands.map encode, rfl, ?_, mem_map_encode_iff⟩, fun s w e hf hdec => ?_⟩
  · have hrsv : (splitWord w).rsv = w.toNat / 512 := by
      have hw := w.isLt
      simp only [splitWord, bitField]
      omega
    have hop : (splitWord w).op = w.toNat % 256 := by simp [splitWord, bitField]
    rw [decode_refuses_iff, commandOf_refuses_iff, splitWord_b_ne_zero_iff, hrsv, hop]
  · exact List.Nodup.map encode_injective (by decide)
  · rw [transact_write_cmd, issueCommand_illegal hf hdec]

/-- Settles O6: the three cases of issuing a word. -/
theorem commandPortFollowsDecodeOrder : Obligations.CommandPortFollowsDecodeOrder := by
  intro s w
  rw [transact_write_cmd]
  exact ⟨issueCommand_ignored w, fun hf _ => issueCommand_illegal hf, fun _ _ => issueCommand_legal s⟩

/-- A step is the next transaction, with the host moved past it (spec/10_state.md R22). -/
theorem step_of_pending {s : State} {x : Transaction} {rest : List Transaction} (h : s.pending = x :: rest) :
    step s = transact x { s with pending := rest, pc := s.pc + 1 } := by
  obtain ⟨hnil, -⟩ | ⟨_, _, hp, hadv, hstep⟩ := step_cases s
  · cases hnil.symm.trans h
  · cases hp.symm.trans h
    rw [hstep, hadv]

/-- Settles O5: the next transaction runs, and one that writes a command's word to `CMD` is the command. -/
theorem stepRunsDecodedCommand : Obligations.StepRunsDecodedCommand := by
  refine ⟨fun s x rest h => step_of_pending h, fun s w i rest h hdec => ?_⟩
  rw [step_of_pending h, transact_write_cmd, issueCommand_legal _ hdec]

end Sys2Proof.Machine
end

-- ==== Sort: a pass is a stable sort, and the passes together order the rotations (spec/40_bwt.md R111 to R117) ====
section

namespace Sys2Proof.Machine

open Sys2Proof

/-! ### One pass (R114) -/

/-- Sorting by buckets leaves the elements of each key in their old order. -/
theorem filter_flatMap_filter_key (key : Nat → Nat) (A c : Nat) (l : List Nat) (hl : ∀ o ∈ l, key o < A) :
    ((List.range A).flatMap fun d => l.filter fun o => key o == d).filter (fun o => key o == c) =
      l.filter fun o => key o == c := by
  suffices h : ∀ B, ((List.range B).flatMap fun d => l.filter fun o => key o == d).filter (fun o => key o == c) =
      if c < B then l.filter fun o => key o == c else [] by
    rw [h A]
    split
    · rfl
    · refine (List.filter_eq_nil_iff.mpr fun o ho => ?_).symm
      have := hl o ho
      simp only [beq_iff_eq]
      omega
  intro B
  induction B with
  | zero => simp
  | succ B ih =>
    rw [List.range_succ, List.flatMap_append, List.filter_append, ih, List.flatMap_singleton, List.filter_filter]
    by_cases hc : c = B
    · subst hc
      simp
    · have hnone : l.filter (fun o => key o == c && key o == B) = [] := by
        simp only [List.filter_eq_nil_iff, Bool.and_eq_true, beq_iff_eq]
        omega
      simp [hnone, show c < B + 1 ↔ c < B by omega]

/-- A pass orders by key first and keeps any order the offsets had before among those of one key. -/
theorem sortPass_pairwise {R : Nat → Nat → Prop} {RI : List Nat} (A : Nat) (T : List Nat) (shift : Nat)
    (h : RI.Pairwise R) :
    (sortPass A T shift RI).Pairwise fun x y =>
      sortKey T shift x < sortKey T shift y ∨ sortKey T shift x = sortKey T shift y ∧ R x y := by
  refine List.pairwise_flatMap.mpr ⟨fun c _ => ?_, ?_⟩
  · refine (h.filter _).imp_of_mem fun {x y} hx hy hR => .inr ⟨?_, hR⟩
    rw [beq_iff_eq.mp (List.mem_filter.mp hx).2, beq_iff_eq.mp (List.mem_filter.mp hy).2]
  · refine List.pairwise_lt_range.imp fun {c d} hcd x hx y hy => .inl ?_
    rwa [beq_iff_eq.mp (List.mem_filter.mp hx).2, beq_iff_eq.mp (List.mem_filter.mp hy).2]

/-- Settles O35: buckets reorder, rising keys order them, and each bucket keeps the old order. -/
theorem sortPassIsAStableSort : Obligations.SortPassIsAStableSort := by
  intro A shift T RI hA hRI
  have hkey : ∀ o ∈ RI, sortKey T shift o < A := by
    intro o ho
    have hT : T ≠ [] := by
      rintro rfl
      simpa using hRI.mem_iff.mp ho
    exact hA _ (sortKey_mem T shift o hT)
  refine ⟨?_, ?_, fun c => filter_flatMap_filter_key (sortKey T shift) A c RI hkey⟩
  · have hperm := flatMap_filter_key_perm (sortKey T shift) A RI
    rw [List.filter_eq_self.mpr fun o ho => decide_eq_true (hkey o ho)] at hperm
    exact hperm.trans hRI
  · refine (sortPass_pairwise (R := fun _ _ => True) A T shift (List.pairwise_of_forall fun _ _ => trivial)).imp ?_
    omega

/-! ### The passes together (R115 to R117) -/

/-- The symbols at positions `k .. k+m-1` of the rotation at offset `o`. -/
def rotationSlice (T : List Nat) (k m o : Nat) : List Nat := (List.range' k m).map fun j => sortKey T j o

theorem rotation_eq_slice (T : List Nat) (o : Nat) : rotation T o = rotationSlice T 0 T.length o := by
  rw [rotationSlice, ← List.range_eq_range']
  rfl

theorem rotationSlice_succ (T : List Nat) (k m o : Nat) :
    rotationSlice T k (m + 1) o = sortKey T k o :: rotationSlice T (k + 1) m o := by
  simp [rotationSlice, List.range'_succ]

/-- Slices compare by their first symbol, then by the rest. -/
theorem rotationSlice_succ_le_iff (T : List Nat) (k m x y : Nat) :
    rotationSlice T k (m + 1) x ≤ rotationSlice T k (m + 1) y ↔
      sortKey T k x < sortKey T k y ∨
        sortKey T k x = sortKey T k y ∧ rotationSlice T (k + 1) m x ≤ rotationSlice T (k + 1) m y := by
  simp only [rotationSlice_succ, le_iff_lt_or_eq, List.cons_lt_cons_iff, List.cons.injEq]
  tauto

/-- The passes of shift `k - 1` down to 0 extend an order by slices from position `k` to one by slices from position 0
(R116). -/
theorem sortPasses_pairwise (A : Nat) (T : List Nat) (k m : Nat) (RI : List Nat)
    (h : RI.Pairwise fun x y => rotationSlice T k m x ≤ rotationSlice T k m y) :
    (sortPasses A T k RI).Pairwise fun x y => rotationSlice T 0 (k + m) x ≤ rotationSlice T 0 (k + m) y := by
  induction k generalizing m RI with
  | zero => simpa [sortPasses] using h
  | succ k ih =>
    have hpass := (sortPass_pairwise A T k h).imp fun {x y} => (rotationSlice_succ_le_iff T k m x y).mpr
    rw [Nat.succ_add_eq_add_succ]
    exact ih (m + 1) _ hpass

/-- The sort leaves the rotations in lexicographic order (R117). -/
theorem sortRotations_pairwise_le (A : Nat) (T : List Nat) :
    (sortRotations A T).Pairwise fun x y => rotation T x ≤ rotation T y := by
  simp only [rotation_eq_slice]
  exact sortPasses_pairwise A T T.length 0 _ (List.pairwise_of_forall fun _ _ => le_rfl)

/-! ### The marker makes the order strict (R110, R112) -/

/-- The block holds `E` at its last position and nowhere else (R110). -/
theorem getD_eq_marker_iff (S : List Nat) (E i : Nat) (hS : E ∉ S) (hi : i < S.length + 1) :
    (S ++ [E]).getD i 0 = E ↔ i = S.length := by
  rcases Nat.lt_or_eq_of_le (Nat.le_of_lt_succ hi) with h | rfl
  · have hne : S[i] ≠ E := fun hE => hS (hE ▸ List.getElem_mem h)
    rw [List.getD_append _ _ _ _ h, List.getD_eq_getElem _ _ h]
    exact iff_of_false hne (Nat.ne_of_lt h)
  · simp

/-- The rotations of a marker-terminated block are pairwise different: the marker stands at a different position in
each (R112). -/
theorem rotation_inj {E : Nat} {S : List Nat} (hS : E ∉ S) :
    ∀ x < (S ++ [E]).length, ∀ y < (S ++ [E]).length, rotation (S ++ [E]) x = rotation (S ++ [E]) y → x = y := by
  have hlen : (S ++ [E]).length = S.length + 1 := by simp
  intro x hx y hy h
  rw [hlen] at hx hy
  have hat := List.map_inj_left.mp h (S.length - x) (List.mem_range.mpr (by omega))
  rw [hlen, show x + (S.length - x) = S.length by omega, Nat.mod_eq_of_lt (Nat.lt_succ_self _),
    (getD_eq_marker_iff S E _ hS (Nat.lt_succ_self _)).mpr rfl, eq_comm,
    getD_eq_marker_iff S E _ hS (Nat.mod_lt _ (Nat.succ_pos _))] at hat
  rcases Nat.lt_or_ge (y + (S.length - x)) (S.length + 1) with hlt | hge
  · rw [Nat.mod_eq_of_lt hlt] at hat
    omega
  · rw [Nat.mod_eq_sub_mod hge, Nat.mod_eq_of_lt (by omega)] at hat
    omega

/-- Where the rotations are pairwise different the Rotation Index puts them in strict order (R117). -/
theorem sortRotations_pairwise_lt {A : Nat} {T : List Nat} (hT : T ≠ []) (hA : ∀ v ∈ T, v < A)
    (hinj : ∀ x < T.length, ∀ y < T.length, rotation T x = rotation T y → x = y) :
    (sortRotations A T).Pairwise fun x y => rotation T x < rotation T y := by
  have hperm := sortRotations_perm A T hT hA
  have hlt : ∀ o ∈ sortRotations A T, o < T.length := fun o ho => List.mem_range.mp (hperm.mem_iff.mp ho)
  have hnodup : (sortRotations A T).Nodup := hperm.nodup_iff.mpr List.nodup_range
  refine ((sortRotations_pairwise_le A T).and hnodup).imp_of_mem fun {x y} hx hy ⟨hle, hne⟩ => ?_
  exact lt_of_le_of_ne hle fun heq => hne (hinj x (hlt x hx) y (hlt y hy) heq)

/-- The marker-terminated block of a source (R110). -/
def State.block (s : State) (b : Bsel) : List Nat := s.source b ++ [s.eob.toNat]

@[simp] theorem State.block_length (s : State) (b : Bsel) : (s.block b).length = s.lenNat b + 1 := by simp [State.block]

theorem State.block_ne_nil (s : State) (b : Bsel) : s.block b ≠ [] := by simp [State.block]

/-- Every symbol of the block of a checked source is in the alphabet (R113, R120). -/
theorem MarkerFree.block_lt {s : State} {b : Bsel} (hfree : MarkerFree s b) (hok : s.bwtOk) :
    ∀ v ∈ s.block b, v < s.asize.toNat := by
  intro v hv
  rcases List.mem_append.mp hv with hv | hv
  · exact (hfree v hv).1
  · obtain rfl := List.mem_singleton.mp hv
    exact hok.1.2

theorem MarkerFree.not_mem {s : State} {b : Bsel} (hfree : MarkerFree s b) : s.eob.toNat ∉ s.source b :=
  fun hE => (hfree _ hE).2 rfl

/-- `BWT.ENC` completes on a checked source that leaves room for the marker (R120). -/
theorem exec_bwtEnc {s : State} {b : Bsel} (hf : s.fault = false) (hok : s.bwtOk) (hlen : s.lenNat b + 1 ≤ cfg.nmax)
    (hfree : MarkerFree s b) : exec (.bwtEnc b) s = .next (bwtForward b s) :=
  exec_of_ok _ s _ hf ((bwtEncode_ok b s _).mpr ⟨hok, hlen, hfree, rfl⟩)

/-- Settles O34: the Rotation Index is the sort's, whose order the marker makes strict. -/
theorem bwtEncSortsRotations : Obligations.BwtEncSortsRotations := by
  intro s b hf hok hlen hfree
  have hA := hfree.block_lt hok
  exact ⟨sortRotations s.asize.toNat _, sortRotations_perm _ _ (s.block_ne_nil b) hA,
    sortRotations_pairwise_lt (s.block_ne_nil b) hA (rotation_inj hfree.not_mem), exec_bwtEnc hf hok hlen hfree⟩

end Sys2Proof.Machine
end

-- ==== Last column: the LF-mapping and the walk (spec/40_bwt.md R122 to R126) ====
section

namespace Sys2Proof.Machine

open Sys2Proof

/-! ### The LF-mapping (R122, R123) -/

/-- Counting up to a later position counts one occurrence more at least. -/
theorem count_take_lt (L : List Nat) {i j c : Nat} (hi : L[i]? = some c) (hij : i < j) :
    (L.take i).count c < (L.take j).count c := by
  have hsucc : (L.take (i + 1)).count c = (L.take i).count c + 1 := by
    simp [List.take_add_one, hi, List.count_append]
  have hsub : (L.take (i + 1)).count c ≤ (L.take j).count c :=
    (List.take_sublist_take_left hij).count_le c
  omega

theorem lfIndex_eq (L : List Nat) {i c : Nat} (hi : L[i]? = some c) :
    lfIndex L i = L.countP (fun v => decide (v < c)) + (L.take i).count c := by
  simp [lfIndex, List.getD_eq_getElem?_getD, hi]

/-- Sorting by buckets moves the element at position `i` to position `LF[i]` of the keys' sequence (R122). -/
theorem bucketSort_getElem?_lfIndex (key : Nat → Nat) (A : Nat) (l : List Nat) (hl : ∀ o ∈ l, key o < A) {i x : Nat}
    (hi : l[i]? = some x) :
    ((List.range A).flatMap fun c => l.filter fun o => key o == c)[lfIndex (l.map key) i]? = some x := by
  obtain ⟨m, hm⟩ := Nat.exists_eq_add_of_lt (hl x (List.mem_of_getElem? hi))
  have hrange : List.range A = List.range (key x) ++ key x :: List.range' (key x + 1) m := by
    rw [hm, List.range_eq_range', List.range_eq_range', ← List.range'_succ, Nat.add_assoc, ← List.range'_append]
    simp
  have hsmall : ((List.range (key x)).flatMap fun c => l.filter fun o => key o == c).length =
      (l.map key).countP fun v => decide (v < key x) := by
    rw [(flatMap_filter_key_perm key _ l).length_eq, List.countP_map, List.countP_eq_length_filter]
    rfl
  have hrank : ((l.take i).filter fun o => key o == key x).length = ((l.map key).take i).count (key x) := by
    rw [← List.map_take, List.count, List.countP_map, List.countP_eq_length_filter]
    rfl
  have hsplit : l = l.take i ++ x :: l.drop (i + 1) := by
    obtain ⟨hlt, rfl⟩ := List.getElem?_eq_some_iff.mp hi
    rw [← List.drop_eq_getElem_cons hlt, List.take_append_drop]
  have hbucket := congrArg (List.filter fun o => key o == key x) hsplit
  simp only [List.filter_append, List.filter_cons, beq_self_eq_true, if_true] at hbucket
  rw [lfIndex_eq (c := key x) _ (by simp [hi]), hrange, List.flatMap_append, ← hsmall,
    List.getElem?_append_right (Nat.le_add_right _ _), Nat.add_sub_cancel_left, List.flatMap_cons, hbucket,
    List.append_assoc, ← hrank, List.getElem?_append_right (Nat.le_refl _)]
  simp

/-- The first symbols of all rotations are the block. -/
theorem map_sortKey_zero (T : List Nat) : (List.range T.length).map (sortKey T 0) = T :=
  List.ext_getElem (by simp) fun i _ hi => by simp [sortKey, Nat.mod_eq_of_lt hi, hi]

/-- The positions sorted by their symbols hold position `i` at `LF[i]`. -/
theorem sortPass_range_getElem?_lfIndex (A : Nat) (L : List Nat) (hA : ∀ v ∈ L, v < A) {i : Nat} (hi : i < L.length) :
    (sortPass A L 0 (List.range L.length))[lfIndex L i]? = some i := by
  have hL : L ≠ [] := List.ne_nil_of_length_pos (Nat.zero_lt_of_lt hi)
  have hget : (sortPass A L 0 (List.range L.length))[_]? = _ :=
    bucketSort_getElem?_lfIndex (sortKey L 0) A _ (fun o _ => hA _ (sortKey_mem L 0 o hL)) (List.getElem?_range hi)
  rwa [map_sortKey_zero] at hget

/-- Every sequence has an alphabet. -/
theorem lt_sum_add_one (L : List Nat) : ∀ v ∈ L, v < L.sum + 1 :=
  fun _ hv => Nat.lt_succ_of_le (List.le_sum_of_mem hv)

theorem lfIndex_lt (L : List Nat) {i : Nat} (hi : i < L.length) : lfIndex L i < L.length := by
  have hL : L ≠ [] := List.ne_nil_of_length_pos (Nat.zero_lt_of_lt hi)
  obtain ⟨hlt, -⟩ := List.getElem?_eq_some_iff.mp (sortPass_range_getElem?_lfIndex _ L (lt_sum_add_one L) hi)
  rwa [(sortPass_perm _ 0 L _ hL (lt_sum_add_one L)).length_eq, List.length_range] at hlt

theorem lfIndex_inj (L : List Nat) {i j : Nat} (hi : i < L.length) (hj : j < L.length)
    (h : lfIndex L i = lfIndex L j) : i = j := by
  have hgeti := sortPass_range_getElem?_lfIndex _ L (lt_sum_add_one L) hi
  rw [h, sortPass_range_getElem?_lfIndex _ L (lt_sum_add_one L) hj] at hgeti
  exact (Option.some.inj hgeti).symm

/-- A map of `0 .. n-1` into itself that is injective there permutes it. -/
theorem map_range_perm (f : Nat → Nat) (n : Nat) (hlt : ∀ i < n, f i < n)
    (hinj : ∀ i < n, ∀ j < n, f i = f j → i = j) : ((List.range n).map f).Perm (List.range n) := by
  have hnodup : ((List.range n).map f).Nodup := by
    refine List.nodup_range.map_on fun i hi j hj => ?_
    exact hinj i (List.mem_range.mp hi) j (List.mem_range.mp hj)
  refine (hnodup.subperm fun v hv => ?_).perm_of_length_le (by simp)
  obtain ⟨i, hi, rfl⟩ := List.mem_map.mp hv
  exact List.mem_range.mpr (hlt i (List.mem_range.mp hi))

/-- Settles O36: the positions sorted by symbol invert the LF-mapping; ranks rise among equal symbols. -/
theorem lfMappingIsAPermutation : Obligations.LfMappingIsAPermutation := by
  refine fun L => ⟨map_range_perm _ _ (fun i => lfIndex_lt L) fun i hi j hj => lfIndex_inj L hi hj, ?_⟩
  intro i c hi
  rw [lfIndex_eq L hi]
  refine ⟨Nat.le_add_right _ _, ?_, fun j hij hj => ?_⟩
  · have hlt := count_take_lt L hi (List.getElem?_eq_some_iff.mp hi).1
    rw [List.take_length] at hlt
    omega
  · rw [lfIndex_eq L hj]
    exact Nat.add_lt_add_left (count_take_lt L hi hij) _

/-! ### The walk (R124, R125) -/

theorem lfMap_getD (L : List Nat) {p : Nat} (hp : p < L.length) : (lfMap L).getD p 0 = lfIndex L p := by
  simp [lfMap, hp]

theorem walkRows_succ (L : List Nat) {P p : Nat} (k : Nat) (hp : p < L.length) (hne : p ≠ P) :
    walkRows L (lfMap L) P (k + 1) p = (walkRows L (lfMap L) P k (lfIndex L p)).map (L.getD p 0 :: ·) := by
  rw [walkRows, if_neg hne, lfMap_getD L hp]

/-- A walk that comes to row `P` in one of its rounds stops without a result (R125). -/
theorem walkRows_of_return (L : List Nat) {P p k j : Nat} (hp : p < L.length) (hj : j < k)
    (hreturn : (lfIndex L)^[j] p = P) : walkRows L (lfMap L) P k p = none := by
  induction k generalizing p j with
  | zero => omega
  | succ k ih =>
    by_cases hP : p = P
    · rw [walkRows, if_pos hP]
    · cases j with
      | zero => exact absurd hreturn hP
      | succ j =>
        rw [walkRows_succ L k hp hP, ih (lfIndex_lt L hp) (Nat.lt_of_succ_lt_succ hj) hreturn, Option.map_none]

/-- A walk that does not come to row `P` emits the symbols of its rows (R124). -/
theorem walkRows_of_no_return (L : List Nat) {P p k : Nat} (hp : p < L.length)
    (hno : ∀ j < k, (lfIndex L)^[j] p ≠ P) :
    walkRows L (lfMap L) P k p = some ((List.range k).map fun j => L.getD ((lfIndex L)^[j] p) 0) := by
  induction k generalizing p with
  | zero => rfl
  | succ k ih =>
    rw [walkRows_succ L k hp (hno 0 (Nat.succ_pos k)),
      ih (lfIndex_lt L hp) fun j hj => hno (j + 1) (Nat.succ_lt_succ hj), List.range_succ_eq_map]
    simp

theorem walkAll_of_return (L : List Nat) {P k : Nat} (hP : P < L.length) (hk : 1 ≤ k) (hkn : k < L.length)
    (hreturn : (lfIndex L)^[k] P = P) : walkAll L P = none := by
  obtain ⟨j, rfl⟩ := Nat.exists_eq_add_of_le' hk
  have h := walkRows_of_return L (lfIndex_lt L hP) (Nat.lt_sub_of_add_lt hkn) hreturn
  simp only [walkAll, lfMap_getD L hP, h, Option.map_none]

theorem walkAll_of_no_return (L : List Nat) {P : Nat} (hP : P < L.length)
    (hno : ∀ k, 1 ≤ k → k < L.length → (lfIndex L)^[k] P ≠ P) :
    walkAll L P = some ((List.range L.length).map fun k => L.getD ((lfIndex L)^[k] P) 0) := by
  obtain ⟨m, hm⟩ : ∃ m, L.length = m + 1 := Nat.exists_eq_succ_of_ne_zero (Nat.ne_zero_of_lt hP)
  have h := walkRows_of_no_return L (k := L.length - 1) (lfIndex_lt L hP) fun j hj =>
    hno (j + 1) (Nat.succ_pos j) (by omega)
  simp only [walkAll, lfMap_getD L hP]
  rw [h, hm, Nat.add_sub_cancel, List.range_succ_eq_map]
  simp

/-- The block is the emitted sequence read backwards, without its first symbol, the marker (R124). -/
theorem reverse_take_eq (f : Nat → Nat) (n : Nat) :
    ((List.range n).map f).reverse.take (n - 1) = (List.range (n - 1)).map fun j => f (n - 1 - j) := by
  refine List.ext_getElem (by simp) fun j hj _ => ?_
  simp

/-! ### The checks of `BWT.DEC` (R125, R126) -/

/-- An empty source, or a marker row beyond it, is no transform. -/
theorem bwtDecode_of_no_row {s : State} {b : Bsel} (hok : s.bwtOk) (hlen : s.lenOk b)
    (hrow : ¬ (1 ≤ s.lenNat b ∧ s.mpos.toNat < s.lenNat b)) : bwtDecode b s = .error ⟨.invalidTransform, 0⟩ := by
  rw [bwtDecode, if_neg (not_not_intro hok), if_neg (not_not_intro hlen), if_pos hrow]

/-- After the checks on the registers and the range of the elements, `BWT.DEC` is the inverse. -/
theorem bwtDecode_eq_inverse {s : State} {b : Bsel} (hok : s.bwtOk) (hlen : s.lenOk b)
    (hrow : 1 ≤ s.lenNat b ∧ s.mpos.toNat < s.lenNat b) (hrange : ∀ v ∈ s.source b, v < s.asize.toNat) :
    bwtDecode b s = bwtInverse b s := by
  rw [bwtDecode, if_neg (not_not_intro hok), if_neg (not_not_intro hlen), if_neg (not_not_intro hrow),
    (scan_range_eq_none_iff _ _).mpr hrange]

theorem bwtInverse_of_marker {s : State} {b : Bsel}
    (h : ¬ ((s.source b).count s.eob.toNat = 1 ∧ (s.source b).getD s.mpos.toNat 0 = s.eob.toNat)) :
    bwtInverse b s = .error ⟨.invalidTransform, 0⟩ := by rw [bwtInverse, if_pos h]

theorem bwtInverse_of_early_return {s : State} {b : Bsel} (h : walkAll (s.source b) s.mpos.toNat = none) :
    bwtInverse b s = .error ⟨.invalidTransform, 0⟩ := by
  rw [bwtInverse, h]
  split <;> rfl

theorem bwtInverse_of_walk {s : State} {b : Bsel} {out : List Nat}
    (h : (s.source b).count s.eob.toNat = 1 ∧ (s.source b).getD s.mpos.toNat 0 = s.eob.toNat)
    (hwalk : walkAll (s.source b) s.mpos.toNat = some out) :
    bwtInverse b s = .ok (s.putSeq (otherBuf b) (out.reverse.take ((s.source b).length - 1))) := by
  rw [bwtInverse, if_neg (not_not_intro h), hwalk]

/-- `BWT.DEC` completes on a valid last column `L` and marker row `P` whose walk does not return early. -/
theorem exec_bwtDec {s : State} {b : Bsel} {L : List Nat} {P : Nat} (hf : s.fault = false) (hok : s.bwtOk)
    (hL : s.source b = L) (hP : s.mpos.toNat = P) (hlen : L.length ≤ cfg.nmax) (hrow : P < L.length)
    (hrange : ∀ v ∈ L, v < s.asize.toNat) (hmark : L.count s.eob.toNat = 1 ∧ L.getD P 0 = s.eob.toNat)
    (hno : ∀ k, 1 ≤ k → k < L.length → (lfIndex L)^[k] P ≠ P) :
    exec (.bwtDec b) s = .next (s.putSeq (otherBuf b)
      ((List.range (L.length - 1)).map fun j => L.getD ((lfIndex L)^[L.length - 1 - j] P) 0)) := by
  subst hL hP
  have hdone := bwtInverse_of_walk hmark (walkAll_of_no_return _ hrow hno)
  rw [reverse_take_eq] at hdone
  rw [source_length] at hlen hrow
  exact exec_of_ok _ s _ hf ((bwtDecode_eq_inverse hok hlen ⟨Nat.one_le_of_lt hrow, hrow⟩ hrange).trans hdone)

/-- Settles O37: the checks in their order, then the walk, which is the LF-mapping iterated. -/
theorem bwtDecFollowsTheWalk : Obligations.BwtDecFollowsTheWalk := by
  intro s b hf hok hlen
  have herror (h : bwtDecode b s = .error ⟨.invalidTransform, 0⟩) := exec_of_error (.bwtDec b) s _ hf h
  refine ⟨fun hrow => herror (bwtDecode_of_no_row hok hlen hrow), fun hn hP hrange => ?_⟩
  have hdec := bwtDecode_eq_inverse hok hlen ⟨hn, hP⟩ hrange
  rw [← source_length s b] at hlen hP ⊢
  refine ⟨fun h => herror (hdec.trans (bwtInverse_of_marker h)), fun hcount hmark => ⟨?_, fun hno => ?_⟩⟩
  · rintro ⟨k, hk, hkn, hreturn⟩
    exact herror (hdec.trans (bwtInverse_of_early_return (walkAll_of_return _ hP hk hkn hreturn)))
  · exact exec_bwtDec hf hok rfl rfl hlen hP hrange ⟨hcount, hmark⟩ hno

end Sys2Proof.Machine
end

-- ==== Round trip: the walk over an encoded block reads it backwards (spec/40_bwt.md R124, R127) ====
section

namespace Sys2Proof.Machine

open Sys2Proof

/-! ### The offset before (R118) -/

/-- The offset before `o`, around the block: `(o - 1) mod n` (R118). -/
def prevOffset (n o : Nat) : Nat := (o + n - 1) % n

theorem prevOffset_zero (n : Nat) (hn : 0 < n) : prevOffset n 0 = n - 1 := by
  rw [prevOffset, Nat.zero_add, Nat.mod_eq_of_lt (by omega)]

theorem prevOffset_succ (n o : Nat) (ho : o + 1 < n) : prevOffset n (o + 1) = o := by
  rw [prevOffset, show o + 1 + n - 1 = o + n by omega, Nat.add_mod_right, Nat.mod_eq_of_lt (by omega)]

theorem prevOffset_lt (n o : Nat) (hn : 0 < n) : prevOffset n o < n := Nat.mod_lt _ hn

theorem prevOffset_perm (n : Nat) : ((List.range n).map (prevOffset n)).Perm (List.range n) := by
  refine map_range_perm _ n (fun i hi => prevOffset_lt n i (by omega)) fun i hi j hj h => ?_
  rcases i with _ | i <;> rcases j with _ | j
  · rfl
  · rw [prevOffset_zero n hi, prevOffset_succ n j hj] at h
    omega
  · rw [prevOffset_zero n hj, prevOffset_succ n i hi] at h
    omega
  · rw [prevOffset_succ n i hi, prevOffset_succ n j hj] at h
    rw [h]

/-- One offset earlier, a symbol stands one position later. -/
theorem sortKey_prevOffset (T : List Nat) (j o : Nat) (hT : 0 < T.length) :
    sortKey T (j + 1) (prevOffset T.length o) = sortKey T j o := by
  rw [sortKey, sortKey, prevOffset, Nat.mod_add_mod,
    show o + T.length - 1 + (j + 1) = o + j + T.length by omega, Nat.add_mod_right]

theorem rotationSlice_prevOffset (T : List Nat) (k m o : Nat) (hT : 0 < T.length) :
    rotationSlice T (k + 1) m (prevOffset T.length o) = rotationSlice T k m o := by
  induction m generalizing k with
  | zero => rfl
  | succ m ih => rw [rotationSlice_succ, rotationSlice_succ, sortKey_prevOffset T k o hT, ih]

/-- Slices that are in order stay so without their last symbols. -/
theorem rotationSlice_le_of_succ (T : List Nat) (k m x y : Nat)
    (h : rotationSlice T k (m + 1) x ≤ rotationSlice T k (m + 1) y) :
    rotationSlice T k m x ≤ rotationSlice T k m y := by
  induction m generalizing k with
  | zero => exact le_rfl
  | succ m ih =>
    rw [rotationSlice_succ_le_iff] at h ⊢
    exact h.imp_right fun ⟨heq, hle⟩ => ⟨heq, ih (k + 1) hle⟩

theorem lastColumn_eq_map_sortKey (T RI : List Nat) :
    lastColumn T RI = (RI.map (prevOffset T.length)).map (sortKey T 0) := by
  simp [lastColumn, sortKey, prevOffset]

/-- The last column holds the symbols of the block. -/
theorem lastColumn_perm (T RI : List Nat) (hRI : RI.Perm (List.range T.length)) : (lastColumn T RI).Perm T := by
  have h := ((hRI.map (prevOffset T.length)).trans (prevOffset_perm _)).map (sortKey T 0)
  rwa [← lastColumn_eq_map_sortKey, map_sortKey_zero] at h

theorem lastColumn_getD (T RI : List Nat) {i o : Nat} (h : RI[i]? = some o) :
    (lastColumn T RI).getD i 0 = T.getD (prevOffset T.length o) 0 := by
  simp [lastColumn, prevOffset, List.getD_eq_getElem?_getD, h]

/-! ### The LF-mapping of an encoded block (R124) -/

/-- The offsets before those of the Rotation Index are in order by their rotations from position 1 on. -/
theorem prevOffsets_pairwise (A : Nat) (T : List Nat) (m : Nat) (hm : T.length = m + 1) :
    ((sortRotations A T).map (prevOffset T.length)).Pairwise fun x y =>
      rotationSlice T 1 m x ≤ rotationSlice T 1 m y := by
  have hpos : 0 < T.length := by omega
  refine List.pairwise_map.mpr ((sortRotations_pairwise_le A T).imp fun {x y} hxy => ?_)
  rw [rotation_eq_slice, rotation_eq_slice, hm] at hxy
  rw [rotationSlice_prevOffset T 0 m x hpos, rotationSlice_prevOffset T 0 m y hpos]
  exact rotationSlice_le_of_succ T 0 m x y hxy

section
variable {A : Nat} {T : List Nat} (hT : T ≠ []) (hA : ∀ v ∈ T, v < A)
  (hinj : ∀ x < T.length, ∀ y < T.length, rotation T x = rotation T y → x = y)
include hT hA hinj

/-- One pass over the offsets before those of the Rotation Index gives the Rotation Index again. -/
theorem sortPass_prevOffsets :
    sortPass A T 0 ((sortRotations A T).map (prevOffset T.length)) = sortRotations A T := by
  obtain ⟨m, hm⟩ : ∃ m, T.length = m + 1 := Nat.exists_eq_succ_of_ne_zero (by simpa using hT)
  have hRI := sortRotations_perm A T hT hA
  have hperm := (sortPass_perm A 0 T _ hT hA).trans ((hRI.map (prevOffset T.length)).trans (prevOffset_perm _))
  have hsorted := (sortPass_pairwise A T 0 (prevOffsets_pairwise A T m hm)).imp fun {x y} =>
    (rotationSlice_succ_le_iff T 0 m x y).mpr
  simp only [← hm, ← rotation_eq_slice] at hsorted
  refine List.Perm.eq_of_pairwise (fun x y hx hy hxy hyx => ?_) hsorted (sortRotations_pairwise_le A T)
    (hperm.trans hRI.symm)
  exact hinj x (List.mem_range.mp (hperm.mem_iff.mp hx)) y (List.mem_range.mp (hRI.mem_iff.mp hy))
    (le_antisymm hxy hyx)

/-- The LF-mapping takes the row of a rotation to the row of the rotation one offset earlier. -/
theorem sortRotations_lfIndex {i o : Nat} (h : (sortRotations A T)[i]? = some o) :
    (sortRotations A T)[lfIndex (lastColumn T (sortRotations A T)) i]? = some (prevOffset T.length o) := by
  have hkey : ∀ o ∈ (sortRotations A T).map (prevOffset T.length), sortKey T 0 o < A := fun o _ =>
    hA _ (sortKey_mem T 0 o hT)
  have hget : (sortPass A T 0 ((sortRotations A T).map (prevOffset T.length)))[_]? = _ :=
    bucketSort_getElem?_lfIndex (sortKey T 0) A _ hkey (i := i) (x := prevOffset T.length o) (by simp [h])
  rwa [sortPass_prevOffsets hT hA hinj, ← lastColumn_eq_map_sortKey] at hget

/-- Step `k` of the walk is at the row of the rotation at offset `(n - k) mod n`. -/
theorem sortRotations_walk (k : Nat) (hk : k ≤ T.length) :
    (sortRotations A T)[(lfIndex (lastColumn T (sortRotations A T)))^[k] (markerRow (sortRotations A T))]? =
      some ((T.length - k) % T.length) := by
  have hpos : 0 < T.length := List.length_pos_iff.mpr hT
  induction k with
  | zero =>
    rw [Nat.sub_zero, Nat.mod_self]
    exact List.getElem?_idxOf ((sortRotations_perm A T hT hA).mem_iff.mpr (List.mem_range.mpr hpos))
  | succ k ih =>
    rw [Function.iterate_succ_apply', sortRotations_lfIndex hT hA hinj (ih (Nat.le_of_succ_le hk)), prevOffset,
      Nat.add_sub_assoc hpos, Nat.mod_add_mod,
      show T.length - k + (T.length - 1) = T.length - (k + 1) + T.length by omega, Nat.add_mod_right]

/-- The walk over an encoded block does not return early. -/
theorem walk_no_early_return (k : Nat) (hk : 1 ≤ k) (hkn : k < T.length) :
    (lfIndex (lastColumn T (sortRotations A T)))^[k] (markerRow (sortRotations A T)) ≠
      markerRow (sortRotations A T) := by
  intro hreturn
  have hstart := sortRotations_walk hT hA hinj 0 (Nat.zero_le _)
  have hat := sortRotations_walk hT hA hinj k (Nat.le_of_lt hkn)
  rw [hreturn, ← Function.iterate_zero_apply (lfIndex _) (markerRow _), hstart, Option.some.injEq, Nat.sub_zero,
    Nat.mod_self, Nat.mod_eq_of_lt (by omega)] at hat
  omega

/-- The symbol of step `n - 1 - j` of the walk is the block's symbol at `j`. -/
theorem walk_symbol (j : Nat) (hj : j + 1 < T.length) :
    (lastColumn T (sortRotations A T)).getD
      ((lfIndex (lastColumn T (sortRotations A T)))^[T.length - 1 - j] (markerRow (sortRotations A T))) 0 =
      T.getD j 0 := by
  have hrow := sortRotations_walk hT hA hinj (T.length - 1 - j) (by omega)
  rw [show T.length - (T.length - 1 - j) = j + 1 by omega, Nat.mod_eq_of_lt hj] at hrow
  rw [lastColumn_getD T _ hrow, prevOffset_succ _ j hj]

end

/-! ### The two commands in a row (R127) -/

@[simp] theorem bwtForward_fault (b : Bsel) (s : State) : (bwtForward b s).fault = s.fault := by simp [bwtForward]
@[simp] theorem bwtForward_asize (b : Bsel) (s : State) : (bwtForward b s).asize = s.asize := by simp [bwtForward]
@[simp] theorem bwtForward_eob (b : Bsel) (s : State) : (bwtForward b s).eob = s.eob := by simp [bwtForward]

/-- The destination of `BWT.ENC` reads back as the last column. -/
theorem bwtForward_source {s : State} {b : Bsel} (hok : s.bwtOk) (hlen : s.lenNat b + 1 ≤ cfg.nmax)
    (hfree : MarkerFree s b) :
    (bwtForward b s).source (otherBuf b) = lastColumn (s.block b) (sortRotations s.asize.toNat (s.block b)) := by
  have hA := hfree.block_lt hok
  have hcol := lastColumn_perm _ _ (sortRotations_perm _ _ (s.block_ne_nil b) hA)
  have hamax : s.asize.toNat ≤ cfg.amax := hok.1.1.2
  rw [cfg_amax] at hamax
  have hwritten := source_congr
    (s.putSeq (otherBuf b) (lastColumn (s.block b) (sortRotations s.asize.toNat (s.block b))))
    (bwtForward b s) (otherBuf b) (otherBuf b) (by cases b <;> rfl) (by cases b <;> rfl)
  refine hwritten.trans (putSeq_source s _ _ (by rwa [hcol.length_eq, State.block_length]) fun v hv => ?_)
  have := hA v (hcol.mem_iff.mp hv)
  omega

theorem markerRow_lt {T RI : List Nat} (hT : T ≠ []) (hRI : RI.Perm (List.range T.length)) :
    markerRow RI < T.length := by
  have hmem : 0 ∈ RI := hRI.mem_iff.mpr (List.mem_range.mpr (List.length_pos_iff.mpr hT))
  simpa [markerRow, hRI.length_eq] using List.idxOf_lt_length_of_mem hmem

/-- `MPOS` holds the marker row. -/
theorem bwtForward_mpos {s : State} {b : Bsel} (hok : s.bwtOk) (hlen : s.lenNat b + 1 ≤ cfg.nmax)
    (hfree : MarkerFree s b) :
    (bwtForward b s).mpos.toNat = markerRow (sortRotations s.asize.toNat (s.block b)) := by
  have hrow := markerRow_lt (s.block_ne_nil b) (sortRotations_perm _ _ (s.block_ne_nil b) (hfree.block_lt hok))
  rw [State.block_length] at hrow
  rw [cfg_nmax] at hlen
  exact (BitVec.toNat_ofNat (markerRow (sortRotations _ (s.block b))) 32).trans (Nat.mod_eq_of_lt (by omega))

/-- What the walk over an encoded block reads, backwards and without the marker, is the block. -/
theorem walk_block {A E : Nat} {S : List Nat} (hS : E ∉ S) (hA : ∀ v ∈ S ++ [E], v < A) :
    ((List.range ((S ++ [E]).length - 1)).map fun j =>
      (lastColumn (S ++ [E]) (sortRotations A (S ++ [E]))).getD
        ((lfIndex (lastColumn (S ++ [E]) (sortRotations A (S ++ [E]))))^[(S ++ [E]).length - 1 - j]
          (markerRow (sortRotations A (S ++ [E])))) 0) = S := by
  refine List.ext_getElem (by simp) fun j _ hj => ?_
  rw [List.getElem_map, List.getElem_range, walk_symbol (by simp) hA (rotation_inj hS) j (by simpa using hj),
    List.getD_append _ _ _ _ hj, List.getD_eq_getElem _ _ hj]

/-- The last column of a marker-terminated block is a valid one: the marker is in it once, at the marker row (R125). -/
theorem lastColumn_marker {A E : Nat} {S : List Nat} (hS : E ∉ S) (hA : ∀ v ∈ S ++ [E], v < A) :
    (lastColumn (S ++ [E]) (sortRotations A (S ++ [E]))).count E = 1 ∧
      (lastColumn (S ++ [E]) (sortRotations A (S ++ [E]))).getD (markerRow (sortRotations A (S ++ [E]))) 0 = E := by
  have hT : S ++ [E] ≠ [] := by simp
  have hrow := sortRotations_walk hT hA (rotation_inj hS) 0 (Nat.zero_le _)
  rw [Nat.sub_zero, Nat.mod_self, Function.iterate_zero_apply] at hrow
  constructor
  · rw [(lastColumn_perm _ _ (sortRotations_perm A _ hT hA)).count_eq, List.count_append,
      List.count_eq_zero_of_not_mem hS, List.count_singleton_self]
  · rw [lastColumn_getD _ _ hrow, prevOffset_zero _ (List.length_pos_iff.mpr hT)]
    simp

/-- `BWT.DEC` on the state that `BWT.ENC` leaves writes the source back. -/
theorem exec_bwtDec_bwtForward {s : State} {b : Bsel} (hf : s.fault = false) (hok : s.bwtOk)
    (hlen : s.lenNat b + 1 ≤ cfg.nmax) (hfree : MarkerFree s b) :
    exec (.bwtDec (otherBuf b)) (bwtForward b s) = .next ((bwtForward b s).putSeq b (s.source b)) := by
  have hA := hfree.block_lt hok
  have hT := s.block_ne_nil b
  have hinj := rotation_inj hfree.not_mem
  have hRI := sortRotations_perm _ _ hT hA
  have hcol := lastColumn_perm _ _ hRI
  have hdec := exec_bwtDec (s := bwtForward b s) (b := otherBuf b) (by simpa using hf)
    (by simpa only [State.bwtOk, State.markerOk, State.alphabetOk, bwtForward_asize, bwtForward_eob] using hok)
    (bwtForward_source hok hlen hfree) (bwtForward_mpos hok hlen hfree)
    (by rwa [hcol.length_eq, State.block_length]) (by rw [hcol.length_eq]; exact markerRow_lt hT hRI)
    (fun v hv => by rw [bwtForward_asize]; exact hA v (hcol.mem_iff.mp hv))
    (by rw [bwtForward_eob]; exact lastColumn_marker hfree.not_mem hA)
    (fun k hk hkn => walk_no_early_return hT hA hinj k hk (hcol.length_eq ▸ hkn))
  rwa [hcol.length_eq, State.block, walk_block hfree.not_mem hA, otherBuf_otherBuf] at hdec

/-- Settles O38: the walk of `BWT.DEC` reads the encoded block backwards. -/
theorem bwtRoundTrip : Obligations.BwtRoundTrip := by
  intro s b hf hok hlen hfree
  have hroom : s.lenNat b + 1 ≤ cfg.nmax := Nat.succ_le_succ hlen
  have hfit : (s.source b).length ≤ cfg.nmax := by
    rw [source_length]
    exact Nat.le_of_succ_le hroom
  refine ⟨_, _, exec_bwtEnc hf hok hroom hfree, exec_bwtDec_bwtForward hf hok hroom hfree, ?_, ?_, ?_, ?_⟩
  · simp [hf]
  · simp [hf]
  · exact putSeq_source _ b _ hfit (source_lt s b)
  · simp [State.lenNat]

end Sys2Proof.Machine
end

-- ==== Rank List: the lists between the elements, and the two commands in a row (spec/41_mtf.md R141 to R148) ====
section

namespace Sys2Proof.Machine

open Sys2Proof

/-! ### One move to the front (R142) -/

/-- Moving the element at a value's index takes the value out and puts it at index 0. -/
theorem moveToFront_idxOf {RL : List Nat} {v : Nat} (h : v ∈ RL) : moveToFront RL (RL.idxOf v) = v :: RL.erase v := by
  have hlt := List.idxOf_lt_length_of_mem h
  rw [moveToFront, List.eraseIdx_idxOf_eq_erase, List.getD_eq_getElem _ _ hlt, List.getElem_idxOf hlt]

/-- A move to the front neither loses a value nor adds one. -/
theorem mem_moveToFront {RL : List Nat} {r : Nat} (h : r < RL.length) (v : Nat) : v ∈ moveToFront RL r ↔ v ∈ RL :=
  (moveToFront_perm RL r h).mem_iff

/-! ### The list at each element (R144, R146) -/

/-- The outputs of a list function that gives `out` of the current Rank List and goes on with `step`'s: the Rank List
at element `i` is the one after the elements before it. -/
theorem eq_map_foldl_take {f : List Nat → List Nat → List Nat} {step : List Nat → Nat → List Nat}
    {out : List Nat → Nat → Nat} (hnil : ∀ RL, f RL [] = [])
    (hcons : ∀ RL v rest, f RL (v :: rest) = out RL v :: f (step RL v) rest) (RL vs : List Nat) :
    f RL vs = (List.range vs.length).map fun i => out ((vs.take i).foldl step RL) (vs.getD i 0) := by
  induction vs generalizing RL with
  | nil => exact hnil RL
  | cons v rest ih =>
    rw [hcons, ih, List.length_cons, List.range_succ_eq_map, List.map_cons, List.map_map]
    rfl

/-- Over values of the list, moving each value's index to the front and taking the value out agree. -/
theorem foldl_moveToFront_idxOf (RL S : List Nat) (h : ∀ v ∈ S, v ∈ RL) :
    S.foldl (fun RL v => moveToFront RL (RL.idxOf v)) RL = S.foldl (fun RL v => v :: RL.erase v) RL := by
  induction S generalizing RL with
  | nil => rfl
  | cons w rest ih =>
    have hw : w ∈ RL := h w List.mem_cons_self
    have hrest : ∀ v ∈ rest, v ∈ moveToFront RL (RL.idxOf w) := fun v hv =>
      (mem_moveToFront (List.idxOf_lt_length_of_mem hw) v).mpr (h v (List.mem_cons_of_mem w hv))
    rw [List.foldl_cons, ih _ hrest, moveToFront_idxOf hw, List.foldl_cons]

theorem rankListBy_eq_foldl (A : Nat) (R : List Nat) : rankListBy A R = R.foldl moveToFront (List.range A) :=
  List.foldl_ext _ _ _ fun RL r _ => by rw [moveToFront, List.eraseIdx_eq_take_drop_succ]

theorem ranksOf_range_eq (A : Nat) (S : List Nat) (h : ∀ v ∈ S, v < A) :
    ranksOf (List.range A) S =
      (List.range S.length).map fun i => (rankListAfter A (S.take i)).idxOf (S.getD i 0) := by
  rw [eq_map_foldl_take (f := ranksOf) (out := fun RL v => RL.idxOf v) (fun _ => rfl) (fun _ _ _ => rfl)]
  refine List.map_congr_left fun i _ => ?_
  rw [foldl_moveToFront_idxOf _ _ fun v hv => List.mem_range.mpr (h v (List.mem_of_mem_take hv)), rankListAfter]

theorem symbolsOf_range_eq (A : Nat) (R : List Nat) :
    symbolsOf (List.range A) R =
      (List.range R.length).map fun i => (rankListBy A (R.take i)).getD (R.getD i 0) 0 := by
  simp only [rankListBy_eq_foldl]
  exact eq_map_foldl_take (out := fun RL r => RL.getD r 0) (fun _ => rfl) (fun _ _ _ => rfl) _ R

/-! ### Streams in range (R144, R146) -/

/-- The rank of a value of the list is an index into the list. -/
theorem ranksOf_lt (RL vs : List Nat) (h : ∀ v ∈ vs, v ∈ RL) : ∀ r ∈ ranksOf RL vs, r < RL.length := by
  induction vs generalizing RL with
  | nil => simp [ranksOf]
  | cons w rest ih =>
    have hw := List.idxOf_lt_length_of_mem (h w List.mem_cons_self)
    refine List.forall_mem_cons.mpr ⟨hw, ?_⟩
    rw [← moveToFront_length RL _ hw]
    exact ih _ fun v hv => (mem_moveToFront hw v).mpr (h v (List.mem_cons_of_mem w hv))

/-- The symbol at an index into the list is a value of the list. -/
theorem symbolsOf_mem (RL rs : List Nat) (h : ∀ r ∈ rs, r < RL.length) : ∀ v ∈ symbolsOf RL rs, v ∈ RL := by
  induction rs generalizing RL with
  | nil => simp [symbolsOf]
  | cons r rest ih =>
    have hr := h r List.mem_cons_self
    refine List.forall_mem_cons.mpr ⟨?_, fun v hv => (mem_moveToFront hr v).mp (ih _ (fun x hx => ?_) v hv)⟩
    · rw [List.getD_eq_getElem _ _ hr]
      exact List.getElem_mem hr
    · rw [moveToFront_length RL r hr]
      exact h x (List.mem_cons_of_mem r hx)

/-- The symbols at the ranks of a stream are the stream (R148). -/
theorem symbolsOf_ranksOf (RL vs : List Nat) (h : ∀ v ∈ vs, v ∈ RL) : symbolsOf RL (ranksOf RL vs) = vs := by
  induction vs generalizing RL with
  | nil => rfl
  | cons w rest ih =>
    have hw := List.idxOf_lt_length_of_mem (h w List.mem_cons_self)
    have hrest : ∀ v ∈ rest, v ∈ moveToFront RL (RL.idxOf w) := fun v hv =>
      (mem_moveToFront hw v).mpr (h v (List.mem_cons_of_mem w hv))
    rw [ranksOf, symbolsOf, ih _ hrest, List.getD_eq_getElem _ _ hw, List.getElem_idxOf hw]

/-- The ranks of the symbols at given ranks are these ranks, since the list repeats no value (R146). -/
theorem ranksOf_symbolsOf (RL rs : List Nat) (hRL : RL.Nodup) (h : ∀ r ∈ rs, r < RL.length) :
    ranksOf RL (symbolsOf RL rs) = rs := by
  induction rs generalizing RL with
  | nil => rfl
  | cons r rest ih =>
    have hr := h r List.mem_cons_self
    have hidx : RL.idxOf (RL.getD r 0) = r := by
      rw [List.getD_eq_getElem _ _ hr, hRL.idxOf_getElem r hr]
    have hrest : ∀ x ∈ rest, x < (moveToFront RL r).length := fun x hx => by
      rw [moveToFront_length RL r hr]
      exact h x (List.mem_cons_of_mem r hx)
    rw [symbolsOf, ranksOf, hidx, ih _ ((moveToFront_perm RL r hr).nodup_iff.mpr hRL) hrest]

/-! ### What the Rank List is after a stream (R141, R142) -/

theorem rankListAfter_concat (A : Nat) (S : List Nat) (w : Nat) :
    rankListAfter A (S ++ [w]) = w :: (rankListAfter A S).erase w := List.foldl_concat _ _ w S

theorem rankListAfter_nodup (A : Nat) (S : List Nat) : (rankListAfter A S).Nodup := by
  induction S using List.reverseRecOn with
  | nil => exact List.nodup_range
  | append_singleton S w ih =>
    rw [rankListAfter_concat]
    exact List.nodup_cons.mpr ⟨ih.not_mem_erase, ih.erase w⟩

/-- A value that comes again counts at its last place. -/
theorem dedup_concat (S : List Nat) (w : Nat) : (S ++ [w]).dedup = (S.dedup.filter fun x => x != w) ++ [w] := by
  induction S with
  | nil => rfl
  | cons a S ih =>
    by_cases ha : a ∈ S
    · rw [List.cons_append, List.dedup_cons_of_mem (List.mem_append_left _ ha), List.dedup_cons_of_mem ha, ih]
    · by_cases haw : a = w
      · subst haw
        rw [List.cons_append, List.dedup_cons_of_mem (by simp), List.dedup_cons_of_notMem ha, ih]
        simp
      · rw [List.cons_append, List.dedup_cons_of_notMem (by simp [ha, haw]), List.dedup_cons_of_notMem ha, ih]
        simp [haw]

/-- The Rank List holds the symbols seen, the latest first, and then the others in ascending order. -/
theorem rankListAfter_eq (A : Nat) (S : List Nat) :
    rankListAfter A S = S.dedup.reverse ++ (List.range A).filter fun x => decide (x ∉ S) := by
  induction S using List.reverseRecOn with
  | nil => simp [rankListAfter]
  | append_singleton S w ih =>
    have hothers : ((List.range A).filter fun x => decide (x ∉ S ++ [w])) =
        ((List.range A).filter fun x => decide (x ∉ S)).filter fun x => x != w := by
      rw [List.filter_filter]
      refine List.filter_congr fun x _ => ?_
      by_cases hx : x = w <;> simp [hx]
    rw [rankListAfter_concat, (rankListAfter_nodup A S).erase_eq_filter, ih, List.filter_append, hothers,
      dedup_concat, List.reverse_append, List.filter_reverse]
    rfl

/-! ### The rank of a first occurrence (R144) -/

/-- The values below a kept one that are kept as well are those before it. -/
theorem idxOf_filter_range (p : Nat → Bool) {v A : Nat} (hv : v < A) (hp : p v = true) :
    ((List.range A).filter p).idxOf v = ((List.range v).filter p).length := by
  obtain ⟨k, rfl⟩ : ∃ k, A = v + (k + 1) := ⟨A - v - 1, by omega⟩
  have hnot : v ∉ (List.range v).filter p := by simp
  rw [List.range_add, List.filter_append, List.idxOf_append_of_notMem hnot, List.range_succ_eq_map]
  simp [hp]

/-- The values below `v` are the smaller ones seen and those not seen. -/
theorem length_dedup_filter_lt_add (S : List Nat) (v : Nat) :
    (S.dedup.filter fun x => decide (x < v)).length + ((List.range v).filter fun x => decide (x ∉ S)).length = v := by
  have hperm : (S.dedup.filter fun x => decide (x < v)).Perm ((List.range v).filter fun x => decide (x ∈ S)) := by
    refine (List.perm_ext_iff_of_nodup (S.nodup_dedup.filter _) (List.nodup_range.filter _)).mpr fun x => ?_
    simp [and_comm]
  have hsplit := List.length_eq_length_filter_add (l := List.range v) fun x => decide (x ∈ S)
  rw [List.length_range] at hsplit
  simp only [hperm.length_eq, decide_not]
  exact hsplit.symm

/-- The values seen are the smaller and the larger ones, where `v` itself is not among them. -/
theorem length_dedup_eq_of_not_mem {S : List Nat} {v : Nat} (hv : v ∉ S) :
    S.dedup.length =
      (S.dedup.filter fun x => decide (x < v)).length + (S.dedup.filter fun x => decide (v < x)).length := by
  have hlarger : (S.dedup.filter fun x => !decide (x < v)) = S.dedup.filter fun x => decide (v < x) := by
    refine List.filter_congr fun x hx => ?_
    have hne : x ≠ v := fun h => hv (h ▸ List.mem_dedup.mp hx)
    rw [Bool.eq_iff_iff]
    simp only [Bool.not_eq_true', decide_eq_false_iff_not, decide_eq_true_eq]
    omega
  rw [List.length_eq_length_filter_add (l := S.dedup) fun x => decide (x < v), hlarger]

/-- A value not yet seen stands behind all values seen and the smaller ones not seen. -/
theorem idxOf_rankListAfter_of_not_mem {A v : Nat} {S : List Nat} (hvA : v < A) (hv : v ∉ S) :
    (rankListAfter A S).idxOf v = v + (S.dedup.filter fun x => decide (v < x)).length := by
  have hfront : v ∉ S.dedup.reverse := by simpa using hv
  have hbelow := length_dedup_filter_lt_add S v
  have hseen := length_dedup_eq_of_not_mem hv
  rw [rankListAfter_eq, List.idxOf_append_of_notMem hfront, List.length_reverse,
    idxOf_filter_range _ hvA (by simpa using hv)]
  omega

/-- A value just seen is at index 0. -/
theorem idxOf_rankListAfter_of_getLast? {A v : Nat} {S : List Nat} (h : S.getLast? = some v) :
    (rankListAfter A S).idxOf v = 0 := by
  obtain ⟨S', rfl⟩ := List.getLast?_eq_some_iff.mp h
  rw [rankListAfter_concat, List.idxOf_cons_self]

/-! ### The two commands (R143, R144, R146) -/

/-- The ranks of a buffer's stream. -/
def State.mtfRanks (s : State) (b : Bsel) : List Nat := ranksOf (List.range s.asize.toNat) (s.source b)

/-- The symbols of a buffer's rank stream. -/
def State.mtfSymbols (s : State) (b : Bsel) : List Nat := symbolsOf (List.range s.asize.toNat) (s.source b)

@[simp] theorem mtfRanks_length (s : State) (b : Bsel) : (s.mtfRanks b).length = s.lenNat b := by
  rw [State.mtfRanks, ranksOf_length, source_length]

@[simp] theorem mtfSymbols_length (s : State) (b : Bsel) : (s.mtfSymbols b).length = s.lenNat b := by
  rw [State.mtfSymbols, symbolsOf_length, source_length]

theorem source_getD {s : State} {b : Bsel} {i : Nat} (hi : i < s.lenNat b) :
    (s.source b).getD i 0 = (s.bufAt b i).toNat := by
  rw [List.getD_eq_getElem?_getD, source_getElem?, if_pos hi, Option.getD_some]

/-- The premises of the statements below: no fault is recorded and the checks of a Rank List command pass
(R143, R144, R146). -/
structure MtfReady (s : State) (b : Bsel) : Prop where
  noFault : s.fault = false
  alphabet : s.alphabetOk
  length : s.lenNat b ≤ cfg.nmax
  inRange : ∀ v ∈ s.source b, v < s.asize.toNat

namespace MtfReady

variable {s : State} {b : Bsel} (h : MtfReady s b)
include h

theorem exec_mtfEnc : exec (.mtfEnc b) s = .next (s.putSeq (otherBuf b) (s.mtfRanks b)) :=
  exec_of_ok _ s _ h.noFault ((mtfCommand_ok ranksOf b s _).mpr ⟨h.alphabet, h.length, h.inRange, rfl⟩)

theorem exec_mtfDec : exec (.mtfDec b) s = .next (s.putSeq (otherBuf b) (s.mtfSymbols b)) :=
  exec_of_ok _ s _ h.noFault ((mtfCommand_ok symbolsOf b s _).mpr ⟨h.alphabet, h.length, h.inRange, rfl⟩)

theorem mem_range : ∀ v ∈ s.source b, v ∈ List.range s.asize.toNat := fun v hv =>
  List.mem_range.mpr (h.inRange v hv)

theorem lt_length_range : ∀ v ∈ s.source b, v < (List.range s.asize.toNat).length := fun v hv => by
  rw [List.length_range]
  exact h.inRange v hv

theorem ranks_lt : ∀ r ∈ s.mtfRanks b, r < s.asize.toNat := fun r hr => by
  simpa using ranksOf_lt _ _ h.mem_range r hr

theorem symbols_lt : ∀ v ∈ s.mtfSymbols b, v < s.asize.toNat := fun v hv =>
  List.mem_range.mp (symbolsOf_mem _ _ h.lt_length_range v hv)

/-- A stream in range, as long as the source, reads back from the destination. -/
theorem putSeq_source_eq {out : List Nat} (hlen : out.length = s.lenNat b) (hout : ∀ v ∈ out, v < s.asize.toNat) :
    (s.putSeq (otherBuf b) out).source (otherBuf b) = out := by
  have hamax := h.alphabet.2
  rw [cfg_amax] at hamax
  refine putSeq_source s _ out (hlen ▸ h.length) fun v hv => ?_
  have := hout v hv
  omega

/-- It is then the source of a command of the Rank List. -/
theorem ready_putSeq {out : List Nat} (hlen : out.length = s.lenNat b) (hout : ∀ v ∈ out, v < s.asize.toNat) :
    MtfReady (s.putSeq (otherBuf b) out) (otherBuf b) where
  noFault := (State.putSeq_fault s _ out).trans h.noFault
  alphabet := by simpa only [State.alphabetOk, State.putSeq_asize] using h.alphabet
  length := by
    rw [putSeq_lenNat s _ out (hlen ▸ h.length), hlen]
    exact h.length
  inRange := by rwa [h.putSeq_source_eq hlen hout, State.putSeq_asize]

/-- Writing the source back into its buffer, in any state, gives back the stream and its length. -/
theorem putSeq_source_back (t : State) :
    (t.putSeq b (s.source b)).source b = s.source b ∧ (t.putSeq b (s.source b)).len b = s.len b :=
  ⟨putSeq_source t b _ ((source_length s b).trans_le h.length) (source_lt s b), by simp [State.lenNat]⟩

/-- `MTF.DEC` on the ranks that `MTF.ENC` writes gives the source (R148). -/
theorem exec_mtfDec_ranks :
    exec (.mtfDec (otherBuf b)) (s.putSeq (otherBuf b) (s.mtfRanks b)) =
      .next ((s.putSeq (otherBuf b) (s.mtfRanks b)).putSeq b (s.source b)) := by
  have hlen := mtfRanks_length s b
  rw [(h.ready_putSeq hlen h.ranks_lt).exec_mtfDec, State.mtfSymbols, h.putSeq_source_eq hlen h.ranks_lt,
    State.putSeq_asize, State.mtfRanks, symbolsOf_ranksOf _ _ h.mem_range, otherBuf_otherBuf]

/-- `MTF.ENC` on the symbols that `MTF.DEC` writes gives the source (R146). -/
theorem exec_mtfEnc_symbols :
    exec (.mtfEnc (otherBuf b)) (s.putSeq (otherBuf b) (s.mtfSymbols b)) =
      .next ((s.putSeq (otherBuf b) (s.mtfSymbols b)).putSeq b (s.source b)) := by
  have hlen := mtfSymbols_length s b
  rw [(h.ready_putSeq hlen h.symbols_lt).exec_mtfEnc, State.mtfRanks, h.putSeq_source_eq hlen h.symbols_lt,
    State.putSeq_asize, State.mtfSymbols, ranksOf_symbolsOf _ _ List.nodup_range h.lt_length_range, otherBuf_otherBuf]

/-- The length that `MTF.ENC` leaves is the source's (R144). -/
theorem ranks_lenNat : (s.putSeq (otherBuf b) (s.mtfRanks b)).lenNat (otherBuf b) = s.lenNat b := by
  rw [putSeq_lenNat s _ _ (by simpa using h.length), mtfRanks_length]

/-- Element `i` that `MTF.ENC` writes is the index of symbol `i` in the Rank List of that moment (R144). -/
theorem rank_eq {i : Nat} (hi : i < s.lenNat b) :
    ((s.putSeq (otherBuf b) (s.mtfRanks b)).bufAt (otherBuf b) i).toNat =
      (rankListAfter s.asize.toNat ((s.source b).take i)).idxOf (s.bufAt b i).toNat := by
  rw [← source_getD (h.ranks_lenNat.symm ▸ hi), h.putSeq_source_eq (mtfRanks_length s b) h.ranks_lt, State.mtfRanks,
    ranksOf_range_eq _ _ h.inRange, source_length, ← source_getD hi]
  simp [hi]

/-- Every rank that `MTF.ENC` writes is below `ASIZE` (R144). -/
theorem rank_lt {i : Nat} (hi : i < s.lenNat b) :
    ((s.putSeq (otherBuf b) (s.mtfRanks b)).bufAt (otherBuf b) i).toNat < s.asize.toNat := by
  have hrange := (h.ready_putSeq (mtfRanks_length s b) h.ranks_lt).inRange
  rw [State.putSeq_asize] at hrange
  exact hrange _ ((mem_source _ _ _).mpr ⟨i, h.ranks_lenNat.symm ▸ hi, rfl⟩)

end MtfReady

/-! ### The statements -/

/-- Settles O39: the Rank List at symbol `i` is the one after the symbols before it. -/
theorem mtfEncWritesRanks : Obligations.MtfEncWritesRanks := by
  intro s b hf halpha hlen hrange
  rw [(MtfReady.mk hf halpha hlen hrange).exec_mtfEnc, State.mtfRanks, ranksOf_range_eq _ _ hrange, source_length]

/-- Settles O40: the Rank List at rank `i` is the one after the ranks before it. -/
theorem mtfDecWritesSymbols : Obligations.MtfDecWritesSymbols := by
  intro s b hf halpha hlen hrange
  rw [(MtfReady.mk hf halpha hlen hrange).exec_mtfDec, State.mtfSymbols, symbolsOf_range_eq, source_length]

/-- Settles O41: the Rank List holds the symbols seen, the latest first, and then the others in ascending order. -/
theorem mtfRanksOfFirstOccurrences : Obligations.MtfRanksOfFirstOccurrences := by
  intro s b hf halpha hlen hrange
  have h : MtfReady s b := ⟨hf, halpha, hlen, hrange⟩
  refine ⟨_, h.exec_mtfEnc, by simp [hf], h.ranks_lenNat, fun i hi =>
    ⟨h.rank_lt hi, fun hlast => ?_, fun hnew => ?_⟩⟩
  · rw [h.rank_eq hi, idxOf_rankListAfter_of_getLast? hlast]
  · have hsym := hrange _ ((mem_source s b _).mpr ⟨i, hi, rfl⟩)
    rw [h.rank_eq hi, idxOf_rankListAfter_of_not_mem hsym hnew]

/-- Settles O42: both commands move the same element to the front, so their Rank Lists agree at every element. -/
theorem mtfRoundTrip : Obligations.MtfRoundTrip := by
  intro s b hf halpha hlen hrange
  have h : MtfReady s b := ⟨hf, halpha, hlen, hrange⟩
  exact ⟨⟨_, _, h.exec_mtfEnc, h.exec_mtfDec_ranks, by simp [hf], by simp [hf], h.putSeq_source_back _⟩,
    ⟨_, _, h.exec_mtfDec, h.exec_mtfEnc_symbols, by simp [hf], by simp [hf], h.putSeq_source_back _⟩⟩

end Sys2Proof.Machine
end

-- ==== Numerals: bijective numerals and their digit symbols (spec/42_zrle.md R155 to R158) ====
section

namespace Sys2Proof.Machine

open Sys2Proof

/-! ### Numeral and value (R155 to R157) -/

/-- Any two numbers of rounds that suffice give the same digits. -/
theorem digitsEmitted_fuel_congr {fuel fuel' x : Nat} (h : x ≤ fuel) (h' : x ≤ fuel') :
    digitsEmitted fuel x = digitsEmitted fuel' x := by
  induction fuel generalizing fuel' x with
  | zero =>
    obtain rfl := Nat.le_zero.mp h
    cases fuel' <;> rfl
  | succ fuel ih =>
    cases fuel' with
    | zero =>
      obtain rfl := Nat.le_zero.mp h'
      rfl
    | succ fuel' =>
      have hq := ih (show (x + 1) / 2 - 1 ≤ fuel by omega) (show (x + 1) / 2 - 1 ≤ fuel' by omega)
      simp only [digitsEmitted, hq]

@[simp] theorem bijDigits_zero : bijDigits 0 = [] := rfl

/-- A round of the recurrence emits the last digit and goes on with what is left (R156). -/
theorem digitsEmitted_two_mul_add (fuel q : Nat) {d : Nat} (hd : d = 1 ∨ d = 2) :
    digitsEmitted (fuel + 1) (2 * q + d) = d :: digitsEmitted fuel q := by
  have hpos : 2 * q + d ≠ 0 := by omega
  have hq : (2 * q + d + 1) / 2 - 1 = q := by omega
  simp only [digitsEmitted, if_neg hpos, hq, Nat.add_sub_cancel_left]

/-- The last digit of a numeral is the one emitted first. -/
theorem bijDigits_two_mul_add (q : Nat) {d : Nat} (hd : d = 1 ∨ d = 2) :
    bijDigits (2 * q + d) = bijDigits q ++ [d] := by
  rw [bijDigits, digitsEmitted_fuel_congr le_rfl (Nat.le_succ _), digitsEmitted_two_mul_add _ q hd, List.reverse_cons,
    digitsEmitted_fuel_congr (show q ≤ 2 * q + d by omega) le_rfl, bijDigits]

/-- Numbers are made from 0 by appending digits 1 and 2. -/
theorem numeral_induction {P : Nat → Prop} (zero : P 0)
    (digit : ∀ q d, d = 1 ∨ d = 2 → P q → P (2 * q + d)) (x : Nat) : P x := by
  induction x using Nat.strongRecOn with
  | ind x ih =>
    by_cases hx : x = 0
    · exact hx ▸ zero
    · have hsplit : x = 2 * ((x + 1) / 2 - 1) + (x - 2 * ((x + 1) / 2 - 1)) := by omega
      rw [hsplit]
      exact digit _ _ (by omega) (ih _ (by omega))

theorem digits_bijDigits (x : Nat) : Digits (bijDigits x) := fun d hd =>
  digitsEmitted_digits x x d (List.mem_reverse.mp hd)

theorem bijValue_concat (d : List Nat) (x : Nat) : bijValue (d ++ [x]) = 2 * bijValue d + x :=
  List.foldl_concat _ _ x d

/-- Reading a numeral's digits gives the number. -/
@[simp] theorem bijValue_bijDigits (x : Nat) : bijValue (bijDigits x) = x := by
  induction x using numeral_induction with
  | zero => rfl
  | digit q d hd ih => rw [bijDigits_two_mul_add q hd, bijValue_concat, ih]

/-- Digits are the numeral of their value. -/
theorem bijDigits_bijValue {d : List Nat} (hd : Digits d) : bijDigits (bijValue d) = d := by
  induction d using List.reverseRecOn with
  | nil => rfl
  | append_singleton d x ih =>
    have hx : x = 1 ∨ x = 2 := hd x (by simp)
    rw [bijValue_concat, bijDigits_two_mul_add _ hx, ih fun y hy => hd y (List.mem_append_left _ hy)]

/-- Each further digit halves what is left. -/
theorem bijDigits_length (x : Nat) : (bijDigits x).length = Nat.log2 (x + 1) := by
  induction x using numeral_induction with
  | zero => rfl
  | digit q d hd ih =>
    have hhalf : (2 * q + d + 1) / 2 = q + 1 := by omega
    rw [bijDigits_two_mul_add q hd, List.length_append, ih, Nat.log2_def (2 * q + d + 1), if_pos (by omega), hhalf,
      List.length_singleton]

theorem bijDigits_length_le_self (x : Nat) : (bijDigits x).length ≤ x := by
  rw [bijDigits, List.length_reverse]
  exact digitsEmitted_length_le x x

theorem bijDigits_ne_nil {x : Nat} (hx : x ≠ 0) : bijDigits x ≠ [] := fun h => hx <| by
  rw [← bijValue_bijDigits x, h]
  rfl

/-- Settles O43: the recurrence and the value undo each other one digit at a time. -/
theorem numeralIsUnique : Obligations.NumeralIsUnique :=
  ⟨fun x _ => ⟨digits_bijDigits x, bijValue_bijDigits x, bijDigits_length x, bijDigits_length_le_self x⟩,
    fun _ _ hd => bijDigits_bijValue hd⟩

/-! ### Digit symbols (R158, R159) -/

theorem isDigit_iff (d1 d2 v : Nat) : isDigit d1 d2 v = true ↔ v = d1 ∨ v = d2 := by simp [isDigit]

theorem digitSym_eq_or (d1 d2 x : Nat) : digitSym d1 d2 x = d1 ∨ digitSym d1 d2 x = d2 := by
  unfold digitSym
  split
  · exact .inl rfl
  · exact .inr rfl

theorem mem_map_digitSym {d1 d2 v : Nat} {d : List Nat} (hv : v ∈ d.map (digitSym d1 d2)) : v = d1 ∨ v = d2 := by
  obtain ⟨x, -, rfl⟩ := List.mem_map.mp hv
  exact digitSym_eq_or d1 d2 x

theorem digitOf_eq_or (d1 v : Nat) : digitOf d1 v = 1 ∨ digitOf d1 v = 2 := by
  unfold digitOf
  split
  · exact .inl rfl
  · exact .inr rfl

/-- A digit symbol is the symbol of its digit. -/
theorem digitSym_digitOf {d1 d2 v : Nat} (hv : v = d1 ∨ v = d2) : digitSym d1 d2 (digitOf d1 v) = v := by
  by_cases h : v = d1
  · simp [digitSym, digitOf, h]
  · rw [digitOf, if_neg h, digitSym, if_neg (by decide), hv.resolve_left h]

/-- What the check of R159 says of the two digit symbols as numbers. -/
structure LegalDigits (d1 d2 : Nat) : Prop where
  ne : d1 ≠ d2
  zero_ne : 0 ≠ d1 ∧ 0 ≠ d2
  lt : d1 < 65536 ∧ d2 < 65536

theorem legalDigits_of_digitsOk {s : State} (h : s.digitsOk) : LegalDigits s.dig1.toNat s.dig2.toNat := by
  obtain ⟨hne, h1, h2, hlt⟩ := h
  exact ⟨BitVec.toNat_ne.mp hne, ⟨(BitVec.toNat_ne.mp h1).symm, (BitVec.toNat_ne.mp h2).symm⟩, hlt⟩

namespace LegalDigits

variable {d1 d2 : Nat} (h : LegalDigits d1 d2)
include h

theorem digitOf_digitSym {x : Nat} (hx : x = 1 ∨ x = 2) : digitOf d1 (digitSym d1 d2 x) = x := by
  obtain rfl | rfl := hx
  · simp [digitOf, digitSym]
  · simp [digitOf, digitSym, h.ne.symm]

theorem lt_of_eq_or {v : Nat} (hv : v = d1 ∨ v = d2) : v < 65536 := by
  obtain rfl | rfl := hv
  · exact h.lt.1
  · exact h.lt.2

/-- Reading written digits gives their value (R172). -/
theorem numeralOf_map_digitSym {d : List Nat} (hd : Digits d) :
    numeralOf d1 (d.map (digitSym d1 d2)) = bijValue d := by
  have hback : (d.map (digitSym d1 d2)).map (digitOf d1) = d := by
    rw [List.map_map]
    exact (List.map_congr_left fun x hx => h.digitOf_digitSym (hd x hx)).trans (List.map_id' d)
  rw [numeralOf, hback]

end LegalDigits

end Sys2Proof.Machine
end

-- ==== Zero runs: the token stream and the pass that expands it (spec/42_zrle.md R160 to R166) ====
section

namespace Sys2Proof.Machine

open Sys2Proof

/-! ### The token stream (R160, R162) -/

/-- Parts, each written by `f` and followed by the element that ends it. -/
def endedParts {α : Type} (f : α → List Nat) (parts : List (α × Nat)) : List Nat :=
  parts.flatMap fun p => f p.1 ++ [p.2]

@[simp] theorem endedParts_nil {α : Type} (f : α → List Nat) : endedParts f [] = [] := rfl

@[simp] theorem endedParts_cons {α : Type} (f : α → List Nat) (p : α × Nat) (parts : List (α × Nat)) :
    endedParts f (p :: parts) = f p.1 ++ p.2 :: endedParts f parts := by simp [endedParts]

/-- A run's token is its numeral in digit symbols; no run has the empty numeral. -/
theorem runToken_eq_map (d1 d2 k : Nat) : runToken d1 d2 k = (bijDigits k).map (digitSym d1 d2) := by
  unfold runToken
  split
  · simp [*]
  · rfl

theorem tokensOf_zero_cons (d1 d2 k : Nat) (rest : List Nat) :
    tokensOf d1 d2 k (0 :: rest) = tokensOf d1 d2 (k + 1) rest := by rw [tokensOf, if_pos rfl]

theorem tokensOf_cons_of_ne_zero (d1 d2 k : Nat) {v : Nat} (hv : v ≠ 0) (rest : List Nat) :
    tokensOf d1 d2 k (v :: rest) = runToken d1 d2 k ++ v :: tokensOf d1 d2 0 rest := by rw [tokensOf, if_neg hv]

/-- Zeros read lengthen the run. -/
theorem tokensOf_replicate_append (d1 d2 k n : Nat) (rest : List Nat) :
    tokensOf d1 d2 k (List.replicate n 0 ++ rest) = tokensOf d1 d2 (k + n) rest := by
  induction n generalizing k with
  | zero => rfl
  | succ n ih =>
    rw [List.replicate_succ, List.cons_append, tokensOf_zero_cons, ih, Nat.add_assoc, Nat.add_comm 1]

theorem tokensOf_replicate (d1 d2 n : Nat) : tokensOf d1 d2 0 (List.replicate n 0) = runToken d1 d2 n := by
  simpa [tokensOf] using tokensOf_replicate_append d1 d2 0 n []

/-- Each run of zeros becomes its token and the elements between the runs pass through. -/
theorem tokensOf_endedParts (d1 d2 last : Nat) (runs : List (Nat × Nat)) (hruns : ∀ p ∈ runs, p.2 ≠ 0) :
    tokensOf d1 d2 0 (endedParts (List.replicate · 0) runs ++ List.replicate last 0) =
      endedParts (runToken d1 d2) runs ++ runToken d1 d2 last := by
  induction runs with
  | nil => exact tokensOf_replicate d1 d2 last
  | cons p runs ih =>
    obtain ⟨hp, hruns⟩ := List.forall_mem_cons.mp hruns
    rw [endedParts_cons, endedParts_cons, List.append_assoc, List.cons_append, tokensOf_replicate_append,
      tokensOf_cons_of_ne_zero _ _ _ hp, ih hruns, Nat.zero_add, List.append_assoc, List.cons_append]

theorem mem_runToken {d1 d2 k v : Nat} (hv : v ∈ runToken d1 d2 k) : v = d1 ∨ v = d2 := by
  rw [runToken_eq_map] at hv
  exact mem_map_digitSym hv

/-- A token stream holds digit symbols and the source's elements other than 0. -/
theorem mem_tokensOf {d1 d2 k v : Nat} {vs : List Nat} (hv : v ∈ tokensOf d1 d2 k vs) :
    (v = d1 ∨ v = d2) ∨ (v ≠ 0 ∧ v ∈ vs) := by
  induction vs generalizing k with
  | nil => exact .inl (mem_runToken hv)
  | cons w rest ih =>
    have htail {k : Nat} (hv : v ∈ tokensOf d1 d2 k rest) : (v = d1 ∨ v = d2) ∨ (v ≠ 0 ∧ v ∈ w :: rest) :=
      (ih hv).imp id fun ⟨h0, hmem⟩ => ⟨h0, List.mem_cons_of_mem w hmem⟩
    by_cases hw : w = 0
    · subst hw
      rw [tokensOf_zero_cons] at hv
      exact htail hv
    · rw [tokensOf_cons_of_ne_zero _ _ _ hw, List.mem_append, List.mem_cons] at hv
      obtain hv | rfl | hv := hv
      · exact .inl (mem_runToken hv)
      · exact .inr ⟨hw, List.mem_cons_self⟩
      · exact htail hv

/-! ### One element of the expanding pass (R165) -/

/-- An element that the expanding pass puts out as it is (R162, R165). -/
def PassThrough (d1 d2 v : Nat) : Prop := v ≠ 0 ∧ v ≠ d1 ∧ v ≠ d2

theorem expandFrom_digit {d1 d2 v : Nat} (hv : v = d1 ∨ v = d2) (i k len : Nat) (rest : List Nat) :
    expandFrom d1 d2 i k len (v :: rest) = expandFrom d1 d2 (i + 1) (2 * k + digitOf d1 v) len rest := by
  rw [expandFrom, if_pos ((isDigit_iff d1 d2 v).mpr hv)]

/-- The end of the source ends the last group. -/
theorem expandFrom_end {d1 d2 i k len : Nat} (hfit : len + k ≤ cfg.nmax) :
    expandFrom d1 d2 i k len [] = .ok (List.replicate k 0) := by rw [expandFrom, if_neg (Nat.not_lt.mpr hfit)]

/-- An expansion of no further element is the zeros of the group read. -/
theorem expandFrom_nil_ok {d1 d2 i k len : Nat} {out : List Nat} (h : expandFrom d1 d2 i k len [] = .ok out) :
    out = List.replicate k 0 := by
  rw [expandFrom] at h
  split at h
  · cases h
  · exact (Except.ok.inj h).symm

/-- Once a group's zeros do not fit, no later element helps: another digit only raises the value. -/
theorem expandFrom_overflow {d1 d2 i k len : Nat} (h : cfg.nmax < len + k) (vs : List Nat) :
    expandFrom d1 d2 i k len vs = .error ⟨.capacity, 0⟩ := by
  induction vs generalizing i k with
  | nil => rw [expandFrom, if_pos h]
  | cons v rest ih =>
    by_cases hv : isDigit d1 d2 v = true
    · rw [expandFrom, if_pos hv]
      exact ih (by omega)
    · rw [expandFrom, if_neg hv, if_pos h]

/-- An element that passes through comes after its group's zeros, if both fit. -/
theorem expandFrom_passThrough {d1 d2 v : Nat} (hv : PassThrough d1 d2 v) (i k len : Nat) (rest : List Nat) :
    expandFrom d1 d2 i k len (v :: rest) =
      if len + k + 1 ≤ cfg.nmax then
        (expandFrom d1 d2 (i + 1) 0 (len + k + 1) rest).map (List.replicate k 0 ++ v :: ·)
      else .error ⟨.capacity, 0⟩ := by
  obtain ⟨h0, h12⟩ := hv
  have hno : ¬ isDigit d1 d2 v = true := fun h => ((isDigit_iff d1 d2 v).mp h).elim h12.1 h12.2
  by_cases hfit : len + k + 1 ≤ cfg.nmax
  · rw [expandFrom, if_neg hno, if_neg (by omega), if_neg h0, if_neg (by omega), if_pos hfit]
    cases expandFrom d1 d2 (i + 1) 0 (len + k + 1) rest <;> rfl
  · rw [expandFrom, if_neg hno, if_neg h0, if_neg hfit]
    split
    · rfl
    · rw [if_pos (by omega)]

/-- A literal 0 after a group that fits. -/
theorem LegalDigits.expandFrom_zero {d1 d2 i k len : Nat} (h : LegalDigits d1 d2) (hfit : len + k ≤ cfg.nmax)
    (rest : List Nat) : expandFrom d1 d2 i k len (0 :: rest) = .error ⟨.symbolRange, i⟩ := by
  have hno : ¬ isDigit d1 d2 0 = true := fun h0 =>
    ((isDigit_iff d1 d2 0).mp h0).elim h.zero_ne.1 h.zero_ne.2
  rw [expandFrom, if_neg hno, if_neg (Nat.not_lt.mpr hfit), if_pos rfl]

/-- A mapped result is a value only if the result is one. -/
theorem except_map_eq_ok {α β : Type} {f : α → β} {x : Except Raised α} {y : β} (h : x.map f = .ok y) :
    ∃ a, x = .ok a ∧ f a = y := by
  cases x with
  | error r => cases h
  | ok a => exact ⟨a, rfl, Except.ok.inj h⟩

/-- What the first element of an expanded source is, and how the pass goes on. -/
theorem expandFrom_cons_ok {d1 d2 i k len v : Nat} {rest out : List Nat}
    (h : expandFrom d1 d2 i k len (v :: rest) = .ok out) :
    ((v = d1 ∨ v = d2) ∧ expandFrom d1 d2 (i + 1) (2 * k + digitOf d1 v) len rest = .ok out) ∨
    (PassThrough d1 d2 v ∧ ∃ tail, expandFrom d1 d2 (i + 1) 0 (len + k + 1) rest = .ok tail ∧
      out = List.replicate k 0 ++ v :: tail) := by
  by_cases hv : v = d1 ∨ v = d2
  · exact .inl ⟨hv, expandFrom_digit hv i k len rest ▸ h⟩
  · by_cases h0 : v = 0
    · rw [expandFrom, if_neg (mt (isDigit_iff d1 d2 v).mp hv), if_pos h0] at h
      split at h <;> cases h
    · have hpass : PassThrough d1 d2 v := ⟨h0, not_or.mp hv⟩
      rw [expandFrom_passThrough hpass] at h
      split at h
      · obtain ⟨tail, htail, rfl⟩ := except_map_eq_ok h
        exact .inr ⟨hpass, tail, htail, rfl⟩
      · cases h

/-! ### Groups and whole sources (R165) -/

/-- A group of digits is read into the value. -/
theorem LegalDigits.expandFrom_digits {d1 d2 : Nat} (h : LegalDigits d1 d2) {g : List Nat} (hg : Digits g)
    (i k len : Nat) (rest : List Nat) :
    expandFrom d1 d2 i k len (g.map (digitSym d1 d2) ++ rest) =
      expandFrom d1 d2 (i + g.length) (g.foldl (fun k x => 2 * k + x) k) len rest := by
  induction g generalizing i k with
  | nil => rfl
  | cons x g ih =>
    obtain ⟨hx, hg⟩ := List.forall_mem_cons.mp hg
    rw [List.map_cons, List.cons_append, expandFrom_digit (digitSym_eq_or d1 d2 x), h.digitOf_digitSym hx, ih hg,
      List.foldl_cons, List.length_cons, Nat.add_assoc, Nat.add_comm 1]

/-- From no value on, a group of digits gives its own. -/
theorem LegalDigits.expandFrom_group {d1 d2 : Nat} (h : LegalDigits d1 d2) {g : List Nat} (hg : Digits g)
    (i len : Nat) (rest : List Nat) :
    expandFrom d1 d2 i 0 len (g.map (digitSym d1 d2) ++ rest) =
      expandFrom d1 d2 (i + g.length) (bijValue g) len rest := h.expandFrom_digits hg i 0 len rest

/-- A run's token gives the run's length. -/
theorem LegalDigits.expandFrom_runToken {d1 d2 : Nat} (h : LegalDigits d1 d2) (i k len : Nat) (rest : List Nat) :
    expandFrom d1 d2 i 0 len (runToken d1 d2 k ++ rest) =
      expandFrom d1 d2 (i + (bijDigits k).length) k len rest := by
  rw [runToken_eq_map, h.expandFrom_group (digits_bijDigits k), bijValue_bijDigits]

/-- The zeros a group of digits stands for. -/
def groupZeros (g : List Nat) : List Nat := List.replicate (bijValue g) 0

@[simp] theorem groupZeros_length (g : List Nat) : (groupZeros g).length = bijValue g := List.length_replicate

/-- Ended groups are expanded one after the other while they fit. -/
theorem LegalDigits.expandFrom_endedParts {d1 d2 : Nat} (h : LegalDigits d1 d2) {groups : List (List Nat × Nat)}
    (hgroups : ∀ p ∈ groups, Digits p.1 ∧ PassThrough d1 d2 p.2) (i : Nat) {len : Nat} (hlen : len ≤ cfg.nmax)
    (rest : List Nat) :
    expandFrom d1 d2 i 0 len (endedParts (List.map (digitSym d1 d2)) groups ++ rest) =
      if len + (endedParts groupZeros groups).length ≤ cfg.nmax then
        (expandFrom d1 d2 (i + (endedParts (List.map (digitSym d1 d2)) groups).length) 0
          (len + (endedParts groupZeros groups).length) rest).map (endedParts groupZeros groups ++ ·)
      else .error ⟨.capacity, 0⟩ := by
  induction groups generalizing i len with
  | nil =>
    rw [endedParts_nil, endedParts_nil, List.length_nil, Nat.add_zero, if_pos hlen]
    change expandFrom d1 d2 i 0 len rest = (expandFrom d1 d2 i 0 len rest).map id
    rw [Except.map_id, id]
  | cons p groups ih =>
    obtain ⟨⟨hg, hp⟩, hgroups⟩ := List.forall_mem_cons.mp hgroups
    have hout : len + (endedParts groupZeros (p :: groups)).length =
        len + bijValue p.1 + 1 + (endedParts groupZeros groups).length := by simp; omega
    have hin : i + (endedParts (List.map (digitSym d1 d2)) (p :: groups)).length =
        i + p.1.length + 1 + (endedParts (List.map (digitSym d1 d2)) groups).length := by simp; omega
    rw [hout, hin, endedParts_cons, endedParts_cons, List.append_assoc, List.cons_append, h.expandFrom_group hg,
      expandFrom_passThrough hp]
    by_cases hfit : len + bijValue p.1 + 1 ≤ cfg.nmax
    · rw [if_pos hfit, ih hgroups _ hfit]
      split
      · cases expandFrom d1 d2 _ 0 _ rest with
        | error r => rfl
        | ok out => simp [Except.map, groupZeros]
      · rfl
    · rw [if_neg hfit, if_neg (by omega)]

/-- A source of ended groups and a last one, up to the element after it. -/
theorem LegalDigits.expandFrom_groups {d1 d2 : Nat} (h : LegalDigits d1 d2) {groups : List (List Nat × Nat)}
    (hgroups : ∀ p ∈ groups, Digits p.1 ∧ PassThrough d1 d2 p.2) {last : List Nat} (hlast : Digits last)
    (rest : List Nat) :
    expandFrom d1 d2 0 0 0 (endedParts (List.map (digitSym d1 d2)) groups ++ last.map (digitSym d1 d2) ++ rest) =
      if (endedParts groupZeros groups).length ≤ cfg.nmax then
        (expandFrom d1 d2 (endedParts (List.map (digitSym d1 d2)) groups ++ last.map (digitSym d1 d2)).length
          (bijValue last) (endedParts groupZeros groups).length rest).map (endedParts groupZeros groups ++ ·)
      else .error ⟨.capacity, 0⟩ := by
  rw [List.append_assoc, h.expandFrom_endedParts hgroups 0 (Nat.zero_le _), h.expandFrom_group hlast,
    List.length_append, List.length_map, Nat.zero_add, Nat.zero_add]

/-! ### Expanding the tokens and tokenizing the expansion (R166) -/

/-- The expansion of a stream's tokens is the run being read and the stream. -/
theorem LegalDigits.expandFrom_tokensOf {d1 d2 : Nat} (h : LegalDigits d1 d2) (i k len : Nat) {vs : List Nat}
    (hvs : ∀ v ∈ vs, v ≠ d1 ∧ v ≠ d2) (hfit : len + k + vs.length ≤ cfg.nmax) :
    expandFrom d1 d2 i 0 len (tokensOf d1 d2 k vs) = .ok (List.replicate k 0 ++ vs) := by
  induction vs generalizing i k len with
  | nil =>
    rw [tokensOf, ← List.append_nil (runToken d1 d2 k), h.expandFrom_runToken, List.append_nil]
    exact expandFrom_end hfit
  | cons v rest ih =>
    obtain ⟨hv, hrest⟩ := List.forall_mem_cons.mp hvs
    rw [List.length_cons] at hfit
    by_cases h0 : v = 0
    · subst h0
      rw [tokensOf_zero_cons, ih i (k + 1) len hrest (by omega), List.replicate_succ', List.append_assoc,
        List.singleton_append]
    · rw [tokensOf_cons_of_ne_zero _ _ _ h0, h.expandFrom_runToken, expandFrom_passThrough ⟨h0, hv⟩,
        if_pos (by omega), ih _ 0 _ hrest (by omega)]
      rfl

/-- The tokens of an expansion are the digits read before and the source. -/
theorem tokensOf_expandFrom {d1 d2 i k len : Nat} {vs out : List Nat}
    (h : expandFrom d1 d2 i k len vs = .ok out) : tokensOf d1 d2 0 out = runToken d1 d2 k ++ vs := by
  induction vs generalizing i k len out with
  | nil =>
    rw [expandFrom_nil_ok h, tokensOf_replicate, List.append_nil]
  | cons v rest ih =>
    obtain ⟨hv, hrest⟩ | ⟨hv, tail, hrest, rfl⟩ := expandFrom_cons_ok h
    · rw [ih hrest, runToken_eq_map, runToken_eq_map, bijDigits_two_mul_add k (digitOf_eq_or d1 v), List.map_append,
        List.append_assoc, List.map_singleton, digitSym_digitOf hv, List.singleton_append]
    · rw [tokensOf_replicate_append, tokensOf_cons_of_ne_zero _ _ _ hv.1, ih hrest, Nat.zero_add]
      rfl

/-- An expansion holds zeros and the source's elements that pass through. -/
theorem mem_of_expandFrom {d1 d2 i k len v : Nat} {vs out : List Nat}
    (h : expandFrom d1 d2 i k len vs = .ok out) (hv : v ∈ out) : v = 0 ∨ (PassThrough d1 d2 v ∧ v ∈ vs) := by
  induction vs generalizing i k len out with
  | nil =>
    rw [expandFrom_nil_ok h] at hv
    exact .inl (List.eq_of_mem_replicate hv)
  | cons w rest ih =>
    have htail {i k len : Nat} {out : List Nat} (h : expandFrom d1 d2 i k len rest = .ok out) (hv : v ∈ out) :
        v = 0 ∨ (PassThrough d1 d2 v ∧ v ∈ w :: rest) :=
      (ih h hv).imp id fun ⟨hpass, hmem⟩ => ⟨hpass, List.mem_cons_of_mem w hmem⟩
    obtain ⟨-, hrest⟩ | ⟨hw, tail, hrest, rfl⟩ := expandFrom_cons_ok h
    · exact htail hrest hv
    · rw [List.mem_append, List.mem_cons] at hv
      obtain hv | rfl | hv := hv
      · exact .inl (List.eq_of_mem_replicate hv)
      · exact .inr ⟨hw, List.mem_cons_self⟩
      · exact htail hrest hv

end Sys2Proof.Machine
end

-- ==== Zero-Run Encoder: the four commands (spec/42_zrle.md R162 to R174) ====
section

namespace Sys2Proof.Machine

open Sys2Proof

/-- Writing a buffer's own sequence into it, in any state, gives back the sequence and its length. -/
theorem putSeq_source_of_source {s : State} {b : Bsel} (hlen : s.lenNat b ≤ cfg.nmax) (t : State) :
    (t.putSeq b (s.source b)).source b = s.source b ∧ (t.putSeq b (s.source b)).len b = s.len b :=
  ⟨putSeq_source t b _ ((source_length s b).trans_le hlen) (source_lt s b), by simp [State.lenNat]⟩

/-! ### `ZRL.ENC` and `ZRL.DEC` on a state that passes their first checks (R162, R165) -/

/-- The token stream of a buffer's sequence. -/
def State.zrlTokens (s : State) (b : Bsel) : List Nat := tokensOf s.dig1.toNat s.dig2.toNat 0 (s.source b)

/-- The premises of the statements below: no fault is recorded and the checks before the scan pass (R159, R162,
R165, R172). -/
structure ZrlReady (s : State) (b : Bsel) : Prop where
  noFault : s.fault = false
  digits : s.digitsOk
  length : s.lenNat b ≤ cfg.nmax

/-- A sequence that fits, written to a buffer, can be the source of the next command. -/
theorem zrlReady_putSeq {s : State} (hf : s.fault = false) (hok : s.digitsOk) (d : Bsel) {vs : List Nat}
    (hlen : vs.length ≤ cfg.nmax) : ZrlReady (s.putSeq d vs) d where
  noFault := (State.putSeq_fault s d vs).trans hf
  digits := by simpa only [State.digitsOk, State.putSeq_dig1, State.putSeq_dig2] using hok
  length := (putSeq_lenNat s d vs hlen).trans_le hlen

theorem zrlTokens_length_le (s : State) (b : Bsel) : (s.zrlTokens b).length ≤ s.lenNat b := by
  have hle := tokensOf_length_le s.dig1.toNat s.dig2.toNat 0 (s.source b)
  rwa [Nat.zero_add, source_length] at hle

namespace ZrlReady

variable {s : State} {b : Bsel} (h : ZrlReady s b)
include h

theorem legalDigits : LegalDigits s.dig1.toNat s.dig2.toNat := legalDigits_of_digitsOk h.digits

theorem exec_zrlEnc (hfree : ∀ v ∈ s.source b, v ≠ s.dig1.toNat ∧ v ≠ s.dig2.toNat) :
    exec (.zrlEnc b) s = .next (s.putSeq (otherBuf b) (s.zrlTokens b)) :=
  exec_of_ok _ s _ h.noFault ((zrlEncode_ok b s _).mpr ⟨h.digits, h.length, hfree, rfl⟩)

theorem exec_zrlDec {out : List Nat}
    (hout : expandFrom s.dig1.toNat s.dig2.toNat 0 0 0 (s.source b) = .ok out) :
    exec (.zrlDec b) s = .next (s.putSeq (otherBuf b) out) :=
  exec_of_ok _ s _ h.noFault ((zrlDecode_ok b s _).mpr ⟨h.digits, h.length, out, hout, rfl⟩)

theorem exec_zrlDec_error {r : Raised}
    (hr : expandFrom s.dig1.toNat s.dig2.toNat 0 0 0 (s.source b) = .error r) :
    exec (.zrlDec b) s = .next (s.raise (encode (.zrlDec b)) r) := by
  refine exec_of_error _ s r h.noFault ?_
  rw [effect, zrlDecode, if_neg (not_not_intro h.digits), if_neg (not_not_intro h.length), hr]

theorem zero_not_mem_zrlTokens : 0 ∉ s.zrlTokens b := fun h0 => by
  obtain hd | ⟨hne, -⟩ := mem_tokensOf h0
  · exact hd.elim h.legalDigits.zero_ne.1 h.legalDigits.zero_ne.2
  · exact hne rfl

theorem zrlTokens_lt : ∀ v ∈ s.zrlTokens b, v < 65536 := fun v hv => by
  obtain hd | ⟨-, hmem⟩ := mem_tokensOf hv
  · exact h.legalDigits.lt_of_eq_or hd
  · exact source_lt s b v hmem

/-- `ZRL.DEC` on the tokens that `ZRL.ENC` writes gives the source (R166). -/
theorem exec_zrlDec_zrlTokens (hfree : ∀ v ∈ s.source b, v ≠ s.dig1.toNat ∧ v ≠ s.dig2.toNat) :
    exec (.zrlDec (otherBuf b)) (s.putSeq (otherBuf b) (s.zrlTokens b)) =
      .next ((s.putSeq (otherBuf b) (s.zrlTokens b)).putSeq b (s.source b)) := by
  have hlen := (zrlTokens_length_le s b).trans h.length
  have hfit : 0 + 0 + (s.source b).length ≤ cfg.nmax := by simpa using h.length
  have hdec := (zrlReady_putSeq h.noFault h.digits (otherBuf b) hlen).exec_zrlDec (out := s.source b) (by
    rw [putSeq_source s _ _ hlen h.zrlTokens_lt, State.putSeq_dig1, State.putSeq_dig2]
    exact h.legalDigits.expandFrom_tokensOf 0 0 0 hfree hfit)
  rwa [otherBuf_otherBuf] at hdec

/-- `ZRL.ENC` on the expansion that `ZRL.DEC` writes gives the source (R166). -/
theorem exec_zrlEnc_expansion {out : List Nat}
    (hout : expandFrom s.dig1.toNat s.dig2.toNat 0 0 0 (s.source b) = .ok out) :
    exec (.zrlEnc (otherBuf b)) (s.putSeq (otherBuf b) out) =
      .next ((s.putSeq (otherBuf b) out).putSeq b (s.source b)) := by
  have hlen : out.length ≤ cfg.nmax := by simpa using expandFrom_length_le _ _ _ _ _ _ _ hout
  have hback : (s.putSeq (otherBuf b) out).source (otherBuf b) = out := putSeq_source s _ _ hlen fun v hv => by
    obtain rfl | ⟨-, hmem⟩ := mem_of_expandFrom hout hv
    · decide
    · exact source_lt s b v hmem
  have henc := (zrlReady_putSeq h.noFault h.digits (otherBuf b) hlen).exec_zrlEnc (by
    rw [hback, State.putSeq_dig1, State.putSeq_dig2]
    intro v hv
    obtain rfl | ⟨hpass, -⟩ := mem_of_expandFrom hout hv
    · exact h.legalDigits.zero_ne
    · exact hpass.2)
  rwa [State.zrlTokens, hback, State.putSeq_dig1, State.putSeq_dig2, tokensOf_expandFrom hout,
    otherBuf_otherBuf] at henc

end ZrlReady

/-- Settles O44: the token stream goes run by run, and each run's numeral is no longer than the run. -/
theorem zrlEncReplacesRuns : Obligations.ZrlEncReplacesRuns := by
  intro s b runs last hf hok hlen hruns hsource token out
  have h : ZrlReady s b := ⟨hf, hok, hlen⟩
  have hout : s.zrlTokens b = out := by
    rw [State.zrlTokens, hsource]
    exact tokensOf_endedParts _ _ last runs fun p hp => (hruns p hp).1
  have hfree : ∀ v ∈ s.source b, v ≠ s.dig1.toNat ∧ v ≠ s.dig2.toNat := by
    intro v hv
    rw [hsource, List.mem_append, List.mem_flatMap] at hv
    obtain ⟨p, hp, hv⟩ | hv := hv
    · obtain hv | hv := List.mem_append.mp hv
      · exact List.eq_of_mem_replicate hv ▸ h.legalDigits.zero_ne
      · exact List.mem_singleton.mp hv ▸ (hruns p hp).2
    · exact List.eq_of_mem_replicate hv ▸ h.legalDigits.zero_ne
  exact hout ▸ ⟨h.exec_zrlEnc hfree, h.zero_not_mem_zrlTokens, zrlTokens_length_le s b⟩

/-- Settles O45: the pass expands ended groups while they fit, and what follows the last group decides. -/
theorem zrlDecExpandsGroups : Obligations.ZrlDecExpandsGroups := by
  intro s b groups last more hf hok hlen hgroups hlast sym tokens out refused
  have h : ZrlReady s b := ⟨hf, hok, hlen⟩
  have hpass (rest : List Nat) := h.legalDigits.expandFrom_groups hgroups hlast rest
  have hout : out.length = (endedParts groupZeros groups).length + bijValue last := by
    rw [← groupZeros_length last]
    exact List.length_append
  have hparts (hfit : (endedParts groupZeros groups).length + bijValue last ≤ 4096) :
      (endedParts groupZeros groups).length ≤ cfg.nmax := Nat.le_of_add_right_le hfit
  rw [hout]
  refine ⟨fun hsource hfit => h.exec_zrlDec ?_, fun hsource hover => h.exec_zrlDec_error (r := ⟨.capacity, 0⟩) ?_,
    fun hsource hfit => h.exec_zrlDec_error (r := ⟨.symbolRange, tokens.length⟩) ?_⟩
  · rw [hsource, ← List.append_nil tokens]
    refine (hpass []).trans ?_
    rw [if_pos (hparts hfit), expandFrom_end hfit]
    rfl
  · rw [hsource]
    refine (hpass more).trans ?_
    rw [expandFrom_overflow hover]
    exact ite_self _
  · rw [hsource]
    refine (hpass (0 :: more)).trans ?_
    rw [if_pos (hparts hfit), h.legalDigits.expandFrom_zero hfit]
    rfl

/-- Settles O46: tokens expand to the stream they stand for, and an expansion's tokens are the tokens expanded. -/
theorem zrlRoundTrip : Obligations.ZrlRoundTrip := by
  constructor
  · intro s b hf hok hlen hfree
    have h : ZrlReady s b := ⟨hf, hok, hlen⟩
    exact ⟨_, _, h.exec_zrlEnc hfree, h.exec_zrlDec_zrlTokens hfree, by simp [hf], by simp [hf],
      putSeq_source_of_source h.length _⟩
  · intro s t b hf hexec ht
    obtain ⟨hok, hlen, out, hout, rfl⟩ := (zrlDecode_ok b s t).mp (effect_of_completed (.zrlDec b) s t hf hexec ht)
    have h : ZrlReady s b := ⟨hf, hok, hlen⟩
    exact ⟨_, h.exec_zrlEnc_expansion hout, by simp [hf], putSeq_source_of_source h.length _⟩

/-! ### `BIJ.ENC` and `BIJ.DEC` (R170 to R174) -/

/-- The numeral of `ARG0` in digit symbols. -/
def State.argNumeral (s : State) : List Nat :=
  (bijDigits s.arg0.toNat).map (digitSym s.dig1.toNat s.dig2.toNat)

theorem exec_bijEnc {s : State} (b : Bsel) (hf : s.fault = false) (hok : s.digitsOk) (harg : s.arg0 ≠ 0) :
    exec (.bijEnc b) s = .next (s.putSeq b s.argNumeral) :=
  exec_of_ok _ s _ hf ((bijEncode_ok b s _).mpr ⟨hok, BitVec.toNat_ne.mp harg, rfl⟩)

theorem exec_bijEnc_zero {s : State} (b : Bsel) (hf : s.fault = false) (hok : s.digitsOk) (harg : s.arg0 = 0) :
    exec (.bijEnc b) s = .next (s.raise (encode (.bijEnc b)) ⟨.invalidRunLength, 0⟩) := by
  have hzero : s.arg0.toNat = 0 := congrArg BitVec.toNat harg
  refine exec_of_error _ s _ hf ?_
  rw [effect, bijEncode, if_neg (not_not_intro hok), if_pos hzero]

/-- Settles O47: the numeral of `ARG0` is not empty unless `ARG0` is 0. -/
theorem bijEncWritesTheNumeral : Obligations.BijEncWritesTheNumeral := by
  intro s b hf hok
  refine ⟨fun harg => ⟨bijDigits s.arg0.toNat, ?_, bijDigits_length_le s.arg0, digits_bijDigits _,
    bijValue_bijDigits _, exec_bijEnc b hf hok harg⟩, exec_bijEnc_zero b hf hok⟩
  exact bijDigits_ne_nil (BitVec.toNat_ne.mp harg)

/-- A source of digit symbols is as long as the digit sequence. -/
theorem lenNat_eq_length_of_source_eq_map {s : State} {b : Bsel} {d : List Nat} {f : Nat → Nat}
    (hsource : s.source b = d.map f) : s.lenNat b = d.length := by
  rw [← source_length, hsource, List.length_map]

theorem ZrlReady.exec_bijDec_empty {s : State} {b : Bsel} (h : ZrlReady s b) (hempty : s.lenNat b = 0) :
    exec (.bijDec b) s = .next (s.raise (encode (.bijDec b)) ⟨.invalidRunLength, 0⟩) := by
  refine exec_of_error _ s _ h.noFault ?_
  rw [effect, bijDecode, if_neg (not_not_intro h.digits), if_neg (not_not_intro h.length), if_pos hempty]

namespace ZrlReady

variable {s : State} {b : Bsel} {d : List Nat} (h : ZrlReady s b) (hd : Digits d)
  (hsource : s.source b = d.map (digitSym s.dig1.toNat s.dig2.toNat))
include h hd hsource

theorem numeralOf_source : numeralOf s.dig1.toNat (s.source b) = bijValue d := by
  rw [hsource, h.legalDigits.numeralOf_map_digitSym hd]

theorem exec_bijDec (hne : d ≠ []) (hfit : bijValue d ≤ 4294967295) :
    exec (.bijDec b) s = .next { s with res0 := BitVec.ofNat 32 (bijValue d) } := by
  have hlen : s.lenNat b ≠ 0 := by rwa [lenNat_eq_length_of_source_eq_map hsource, Ne, List.length_eq_zero_iff]
  have hval := h.numeralOf_source hd hsource
  exact exec_of_ok _ s _ h.noFault ((bijDecode_ok b s _).mpr
    ⟨h.digits, h.length, hlen, fun _ hv => mem_map_digitSym (hsource ▸ hv), hval.trans_le hfit, by rw [hval]⟩)

theorem exec_bijDec_overflow (hover : 4294967295 < bijValue d) :
    exec (.bijDec b) s = .next (s.raise (encode (.bijDec b)) ⟨.capacity, 0⟩) := by
  have hlen : s.lenNat b ≠ 0 := by
    rw [lenNat_eq_length_of_source_eq_map hsource, Ne, List.length_eq_zero_iff]
    rintro rfl
    cases hover
  have hscan := (scan_eq_none_iff_forall (digitTest s.dig1.toNat s.dig2.toNat) _ (s.source b)
    (digitTest_eq_none_iff _ _)).mpr fun _ hv => mem_map_digitSym (hsource ▸ hv)
  refine exec_of_error _ s _ h.noFault ?_
  rw [effect, bijDecode, if_neg (not_not_intro h.digits), if_neg (not_not_intro h.length), if_neg hlen, hscan]
  exact if_pos (hover.trans_eq (h.numeralOf_source hd hsource).symm)

end ZrlReady

/-- `BIJ.DEC` on the numeral that `BIJ.ENC` writes gives `ARG0` (R174). -/
theorem exec_bijDec_argNumeral {s : State} (b : Bsel) (hf : s.fault = false) (hok : s.digitsOk) (harg : s.arg0 ≠ 0) :
    exec (.bijDec b) (s.putSeq b s.argNumeral) = .next { s.putSeq b s.argNumeral with res0 := s.arg0 } := by
  have hne : bijDigits s.arg0.toNat ≠ [] := bijDigits_ne_nil (BitVec.toNat_ne.mp harg)
  have hlen : s.argNumeral.length ≤ cfg.nmax := by
    have := bijDigits_length_le s.arg0
    rw [State.argNumeral, List.length_map, cfg_nmax]
    omega
  have hsym : ∀ v ∈ s.argNumeral, v < 65536 := fun v hv =>
    (legalDigits_of_digitsOk hok).lt_of_eq_or (mem_map_digitSym hv)
  have hfit : bijValue (bijDigits s.arg0.toNat) ≤ 4294967295 := by
    rw [bijValue_bijDigits]
    exact Nat.le_of_lt_succ s.arg0.isLt
  have hdec := (zrlReady_putSeq hf hok b hlen).exec_bijDec (digits_bijDigits s.arg0.toNat)
    (by rw [putSeq_source s b _ hlen hsym, State.putSeq_dig1, State.putSeq_dig2, State.argNumeral]) hne hfit
  rwa [bijValue_bijDigits, BitVec.ofNat_toNat, BitVec.setWidth_eq] at hdec

/-- Settles O48: the checks in their order, and the value of a numeral is the number. -/
theorem bijDecReadsTheNumeral : Obligations.BijDecReadsTheNumeral := by
  constructor
  · intro s b d hf hok hlen hd hsource refused
    have h : ZrlReady s b := ⟨hf, hok, hlen⟩
    have hempty (hnil : d = []) : s.lenNat b = 0 := by
      rw [lenNat_eq_length_of_source_eq_map hsource, hnil, List.length_nil]
    exact ⟨fun hnil => h.exec_bijDec_empty (hempty hnil), h.exec_bijDec hd hsource,
      h.exec_bijDec_overflow hd hsource⟩
  · intro s b hf hok harg
    exact ⟨_, _, exec_bijEnc b hf hok harg, exec_bijDec_argNumeral b hf hok harg, by simp [hf], by simp [hf], rfl⟩

end Sys2Proof.Machine
end

-- ==== Queue: the two sifts restore the heap property, and the three commands (spec/43_pq.md R185 to R196) ====
section

namespace Sys2Proof.Machine

open Sys2Proof

/-! ### Keys by position (R185, R186) -/

/-- The unsigned key at position `i` of a queue. -/
def keyAt (H : List Entry) (i : Nat) : Nat := (entryAt H i).key.toNat

theorem entryLess_entryAt (H : List Entry) (i j : Nat) :
    entryLess (entryAt H i) (entryAt H j) = true ↔ keyAt H i < keyAt H j := decide_eq_true_iff

/-- What each position holds after an exchange. -/
theorem keyAt_swapAt {H : List Entry} {i j : Nat} (hi : i < H.length) (hj : j < H.length) (k : Nat) :
    keyAt (swapAt H i j) k = if k = j then keyAt H i else if k = i then keyAt H j else keyAt H k := by
  simp only [keyAt, swapAt, entryAt, List.getD_eq_getElem?_getD, List.getElem?_set, List.length_set]
  grind

/-- A queue of at most one entry has no pair to be out of order. -/
theorem heapOrdered_of_length_le_one {H : List Entry} (h : H.length ≤ 1) : HeapOrdered H :=
  fun _ hpos hlt => absurd hlt (by omega)

/-- The root of an ordered queue has the least key. -/
theorem HeapOrdered.root_le {H : List Entry} (h : HeapOrdered H) (i : Nat) (hi : i < H.length) :
    keyAt H 0 ≤ keyAt H i := by
  induction i using Nat.strong_induction_on with
  | _ i ih =>
    obtain rfl | hpos := Nat.eq_zero_or_pos i
    · exact le_rfl
    · exact (ih ((i - 1) / 2) (by omega) (by omega)).trans (h i hpos hi)

/-! ### The loops' equations (R187, R188) -/

theorem siftUp_of_stop (fuel : Nat) {H : List Entry} {i : Nat}
    (h : ¬ (0 < i ∧ keyAt H i < keyAt H ((i - 1) / 2))) : siftUp fuel H i = H := by
  cases fuel with
  | zero => rfl
  | succ fuel => exact if_neg (by rwa [entryLess_entryAt])

theorem siftUp_of_swap (fuel : Nat) {H : List Entry} {i : Nat}
    (h : 0 < i ∧ keyAt H i < keyAt H ((i - 1) / 2)) :
    siftUp (fuel + 1) H i = siftUp fuel (swapAt H i ((i - 1) / 2)) ((i - 1) / 2) :=
  if_pos (by rwa [entryLess_entryAt])

theorem siftDown_of_stop (fuel : Nat) {H : List Entry} {i : Nat}
    (h : ¬ (2 * i + 1 < H.length ∧ keyAt H (pickChild H i) < keyAt H i)) : siftDown fuel H i = H := by
  cases fuel with
  | zero => rfl
  | succ fuel => exact if_neg (by rwa [entryLess_entryAt])

theorem siftDown_of_swap (fuel : Nat) {H : List Entry} {i : Nat}
    (h : 2 * i + 1 < H.length ∧ keyAt H (pickChild H i) < keyAt H i) :
    siftDown (fuel + 1) H i = siftDown fuel (swapAt H (pickChild H i) i) (pickChild H i) :=
  if_pos (by rwa [entryLess_entryAt])

theorem pickChild_eq_ite (H : List Entry) (i : Nat) :
    pickChild H i =
      if 2 * i + 2 < H.length ∧ keyAt H (2 * i + 2) < keyAt H (2 * i + 1) then 2 * i + 2 else 2 * i + 1 := by
  simp only [pickChild, entryLess_entryAt]

theorem lt_pickChild (H : List Entry) (i : Nat) : i < pickChild H i := by
  obtain h | ⟨h, -⟩ := pickChild_eq H i <;> omega

theorem pickChild_parent (H : List Entry) (i : Nat) : (pickChild H i - 1) / 2 = i := by
  obtain h | ⟨h, -⟩ := pickChild_eq H i <;> omega

theorem pickChild_lt {H : List Entry} {i : Nat} (h : 2 * i + 1 < H.length) : pickChild H i < H.length := by
  obtain hc | ⟨hc, hright⟩ := pickChild_eq H i <;> omega

/-- The child that is picked is the one of least key. -/
theorem keyAt_pickChild_le (H : List Entry) {i k : Nat} (hpos : 0 < k) (hk : k < H.length) (hpar : (k - 1) / 2 = i) :
    keyAt H (pickChild H i) ≤ keyAt H k := by
  obtain rfl | rfl : k = 2 * i + 1 ∨ k = 2 * i + 2 := by omega
  all_goals
    rw [pickChild_eq_ite]
    split <;> omega

/-- Rounds beyond those that suffice change nothing. -/
theorem siftUp_fuel (H : List Entry) {fuel more i : Nat} (hfuel : i ≤ fuel) (hmore : i ≤ more) :
    siftUp fuel H i = siftUp more H i := by
  induction fuel generalizing more H i with
  | zero => rw [siftUp_of_stop _ (by omega), siftUp_of_stop _ (by omega)]
  | succ fuel ih =>
    by_cases h : 0 < i ∧ keyAt H i < keyAt H ((i - 1) / 2)
    · obtain ⟨more, rfl⟩ := Nat.exists_eq_add_of_lt (h.1.trans_le hmore)
      rw [Nat.zero_add, siftUp_of_swap _ h, siftUp_of_swap _ h]
      exact ih _ (by omega) (by omega)
    · rw [siftUp_of_stop _ h, siftUp_of_stop _ h]

theorem siftDown_fuel (H : List Entry) {fuel more i : Nat} (hfuel : H.length ≤ fuel + i)
    (hmore : H.length ≤ more + i) : siftDown fuel H i = siftDown more H i := by
  induction fuel generalizing more H i with
  | zero => rw [siftDown_of_stop _ (by omega), siftDown_of_stop _ (by omega)]
  | succ fuel ih =>
    by_cases h : 2 * i + 1 < H.length ∧ keyAt H (pickChild H i) < keyAt H i
    · obtain ⟨more, rfl⟩ : ∃ n, more = n + 1 := ⟨more - 1, by omega⟩
      have hdeeper := lt_pickChild H i
      rw [siftDown_of_swap _ h, siftDown_of_swap _ h]
      exact ih _ (by rw [swapAt_length]; omega) (by rw [swapAt_length]; omega)
    · rw [siftDown_of_stop _ h, siftDown_of_stop _ h]

/-- An extract from two entries or more puts the last one first and sifts it down (R189). -/
theorem pqExtract_cons_concat (e l : Entry) (mid : List Entry) :
    pqExtract (e :: (mid ++ [l])) = (e, siftDown (mid.length + 1) (l :: mid) 0) := by
  have hswap : swapAt (e :: (mid ++ [l])) 0 (mid.length + 1) = l :: (mid ++ [e]) := by
    simp [swapAt, entryAt]
  have htake : (l :: (mid ++ [e])).take (mid.length + 1) = l :: mid := by simp
  simp only [pqExtract, List.length_cons, List.length_append, List.length_nil, Nat.zero_add, Nat.add_sub_cancel,
    hswap, htake]
  rfl

/-- Settles O49: a round is the loop's equation, and rounds beyond those that suffice change nothing. -/
theorem queueLoopsRunToTheirEnd : Obligations.QueueLoopsRunToTheirEnd := by
  refine ⟨fun H fuel i hfuel => ?_, fun H fuel i hfuel => ?_, fun _ _ => rfl,
    fun e l mid => ⟨pqExtract_cons_concat e l mid, rfl⟩⟩
  · split
    case isTrue h =>
      rw [siftUp_fuel H hfuel (Nat.le_succ i), siftUp_of_swap i h]
      exact siftUp_fuel _ (by omega) le_rfl
    case isFalse h => exact siftUp_of_stop fuel h
  · split
    case isTrue h => exact siftDown_of_stop fuel (by omega)
    case isFalse hchild =>
      extract_lets c
      have hc : c = pickChild H i := (pickChild_eq_ite H i).symm
      have hdeeper := lt_pickChild H i
      rw [hc]
      split
      case isTrue h =>
        rw [siftDown_fuel H hfuel (Nat.le_add_right_of_le (Nat.le_succ H.length)),
          siftDown_of_swap H.length ⟨by omega, h⟩]
        exact siftDown_fuel _ (by rw [swapAt_length]; omega) (by rw [swapAt_length]; omega)
      case isFalse h => exact siftDown_of_stop fuel fun hswap => h hswap.2

/-! ### The heap property around one position

Between two rounds of a sift only the entry on the move, at position `i`, may be out of order. -/

/-- The queue without position `i` is ordered: every other pair is, and the parent of `i` bounds its children. -/
structure OrderedAround (H : List Entry) (i : Nat) : Prop where
  pair : ∀ k, 0 < k → k < H.length → k ≠ i → (k - 1) / 2 ≠ i → keyAt H ((k - 1) / 2) ≤ keyAt H k
  bypass : ∀ k, 0 < k → k < H.length → (k - 1) / 2 = i → 0 < i → keyAt H ((i - 1) / 2) ≤ keyAt H k

/-- The entry at `i` is in order with its parent. -/
def ParentBelow (H : List Entry) (i : Nat) : Prop := 0 < i → keyAt H ((i - 1) / 2) ≤ keyAt H i

/-- The entry at `i` is in order with its children. -/
def ChildrenAbove (H : List Entry) (i : Nat) : Prop :=
  ∀ k, 0 < k → k < H.length → (k - 1) / 2 = i → keyAt H i ≤ keyAt H k

theorem OrderedAround.heapOrdered {H : List Entry} {i : Nat} (h : OrderedAround H i) (hparent : ParentBelow H i)
    (hchildren : ChildrenAbove H i) : HeapOrdered H := by
  intro k hpos hk
  by_cases hki : k = i
  · exact hki ▸ hparent (hki ▸ hpos)
  · by_cases hpar : (k - 1) / 2 = i
    · exact hpar ▸ hchildren k hpos hk hpar
    · exact h.pair k hpos hk hki hpar

/-- A round of `SiftUp` hands the disorder on to the parent's position (R187). -/
theorem OrderedAround.swap_parent {H : List Entry} {i p : Nat} (h : OrderedAround H i) (hi : i < H.length)
    (hpos : 0 < i) (hp : (i - 1) / 2 = p) (hless : keyAt H i < keyAt H p) :
    OrderedAround (swapAt H i p) p ∧ ChildrenAbove (swapAt H i p) p := by
  have hkey := keyAt_swapAt hi (show p < H.length by omega)
  have hsibling : ∀ k, 0 < k → k < H.length → (k - 1) / 2 = p → k ≠ i → keyAt H p ≤ keyAt H k :=
    fun k hk hlt hpar hki => hpar ▸ h.pair k hk hlt hki (by omega)
  refine ⟨⟨fun k hk hlt hkp hpar => ?_, fun k hk hlt hpar hp0 => ?_⟩, fun k hk hlt hpar => ?_⟩
  all_goals
    rw [swapAt_length] at hlt
    rw [hkey, hkey]
  · have hki : k ≠ i := by omega
    rw [if_neg hpar, if_neg hkp, if_neg hki]
    split
    case isTrue hchild => exact hp ▸ h.bypass k hk hlt hchild hpos
    case isFalse hother => exact h.pair k hk hlt hki hother
  · have hroot : keyAt H ((p - 1) / 2) ≤ keyAt H p := h.pair p hp0 (by omega) (by omega) (by omega)
    rw [if_neg (by omega), if_neg (by omega), if_neg (by omega)]
    split
    case isTrue => exact hroot
    case isFalse hki => exact hroot.trans (hsibling k hk hlt hpar hki)
  · rw [if_pos rfl, if_neg (by omega)]
    split
    case isTrue => exact hless.le
    case isFalse hki => exact hless.le.trans (hsibling k hk hlt hpar hki)

/-- A round of `SiftDown` hands the disorder on to the position of the least child (R188). -/
theorem OrderedAround.swap_child {H : List Entry} {i c : Nat} (h : OrderedAround H i) (hc : c < H.length)
    (hpos : 0 < c) (hci : (c - 1) / 2 = i) (hless : keyAt H c < keyAt H i)
    (hleast : ∀ k, 0 < k → k < H.length → (k - 1) / 2 = i → keyAt H c ≤ keyAt H k) :
    OrderedAround (swapAt H c i) c ∧ ParentBelow (swapAt H c i) c := by
  have hkey := keyAt_swapAt hc (show i < H.length by omega)
  refine ⟨⟨fun k hk hlt hkc hpar => ?_, fun k hk hlt hpar _ => ?_⟩, fun _ => ?_⟩
  · rw [swapAt_length] at hlt
    rw [hkey, hkey, if_neg hkc, if_neg hpar]
    obtain rfl | hki := eq_or_ne k i
    · rw [if_neg (by omega), if_pos rfl]
      exact h.bypass c hpos hc hci hk
    · rw [if_neg hki]
      split
      case isTrue hchild => exact hleast k hk hlt hchild
      case isFalse hother => exact h.pair k hk hlt hki hother
  · rw [swapAt_length] at hlt
    rw [hkey, hkey, if_pos hci, if_neg (by omega), if_neg (by omega)]
    exact hpar ▸ h.pair k hk hlt (by omega) (by omega)
  · rw [hkey, hkey, if_pos hci, if_neg (by omega), if_pos rfl]
    exact hless.le

/-- `SiftUp` orders a queue in which only the entry on the move may be below its parent. -/
theorem siftUp_heapOrdered {fuel i : Nat} {H : List Entry} (hfuel : i ≤ fuel) (hi : i < H.length)
    (h : OrderedAround H i) (hchildren : ChildrenAbove H i) : HeapOrdered (siftUp fuel H i) := by
  induction fuel generalizing H i with
  | zero =>
    rw [siftUp_of_stop _ (by omega)]
    exact h.heapOrdered (fun hpos => absurd hpos (by omega)) hchildren
  | succ fuel ih =>
    by_cases hswap : 0 < i ∧ keyAt H i < keyAt H ((i - 1) / 2)
    · obtain ⟨haround, habove⟩ := h.swap_parent hi hswap.1 rfl hswap.2
      rw [siftUp_of_swap _ hswap]
      exact ih (by omega) (by rw [swapAt_length]; omega) haround habove
    · rw [siftUp_of_stop _ hswap]
      exact h.heapOrdered (fun hpos => Nat.not_lt.mp fun hless => hswap ⟨hpos, hless⟩) hchildren

/-- Where `SiftDown` stops, the entry on the move is in order with its children. -/
theorem childrenAbove_of_stop {H : List Entry} {i : Nat}
    (h : ¬ (2 * i + 1 < H.length ∧ keyAt H (pickChild H i) < keyAt H i)) : ChildrenAbove H i := by
  intro k hpos hk hpar
  have hpick : keyAt H i ≤ keyAt H (pickChild H i) := Nat.not_lt.mp fun hless => h ⟨by omega, hless⟩
  exact hpick.trans (keyAt_pickChild_le H hpos hk hpar)

/-- `SiftDown` orders a queue in which only the entry on the move may be above its children. -/
theorem siftDown_heapOrdered {fuel i : Nat} {H : List Entry} (hfuel : H.length ≤ fuel + i)
    (h : OrderedAround H i) (hparent : ParentBelow H i) : HeapOrdered (siftDown fuel H i) := by
  induction fuel generalizing H i with
  | zero =>
    have hstop : ¬ (2 * i + 1 < H.length ∧ keyAt H (pickChild H i) < keyAt H i) := by omega
    rw [siftDown_of_stop _ hstop]
    exact h.heapOrdered hparent (childrenAbove_of_stop hstop)
  | succ fuel ih =>
    by_cases hswap : 2 * i + 1 < H.length ∧ keyAt H (pickChild H i) < keyAt H i
    · have hdeeper := lt_pickChild H i
      obtain ⟨haround, hbelow⟩ := h.swap_child (pickChild_lt hswap.1) (by omega) (pickChild_parent H i) hswap.2
        fun k => keyAt_pickChild_le H
      rw [siftDown_of_swap _ hswap]
      exact ih (by rw [swapAt_length]; omega) haround hbelow
    · rw [siftDown_of_stop _ hswap]
      exact h.heapOrdered hparent (childrenAbove_of_stop hswap)

/-! ### Insert and extract keep the heap property (R189, R196) -/

theorem keyAt_append_left {H : List Entry} {i : Nat} (hi : i < H.length) (e : Entry) :
    keyAt (H ++ [e]) i = keyAt H i := congrArg (·.key.toNat) (List.getD_append _ _ _ _ hi)

theorem keyAt_append_length (H : List Entry) (e : Entry) : keyAt (H ++ [e]) H.length = e.key.toNat := by
  simp [keyAt, entryAt]

/-- Only the appended entry may be below its parent. -/
theorem HeapOrdered.append_around {H : List Entry} (h : HeapOrdered H) (e : Entry) :
    OrderedAround (H ++ [e]) H.length ∧ ChildrenAbove (H ++ [e]) H.length := by
  have hlen : (H ++ [e]).length = H.length + 1 := List.length_append
  refine ⟨⟨fun k hpos hk hne _ => ?_, fun k hpos hk hpar => ?_⟩, fun k hpos hk hpar => ?_⟩
  · rw [keyAt_append_left (by omega), keyAt_append_left (by omega)]
    exact h k hpos (by omega)
  · omega
  · omega

theorem HeapOrdered.pqInsert {H : List Entry} (h : HeapOrdered H) (e : Entry) : HeapOrdered (pqInsert H e) :=
  have ⟨haround, hchildren⟩ := h.append_around e
  siftUp_heapOrdered le_rfl (by simp) haround hchildren

/-- An entry that is not below its parent stays last (R187). -/
theorem pqInsert_eq_append {H : List Entry} {e : Entry} (h : H = [] ∨ keyAt H ((H.length - 1) / 2) ≤ e.key.toNat) :
    pqInsert H e = H ++ [e] := by
  refine siftUp_of_stop _ fun ⟨hpos, hless⟩ => ?_
  obtain hempty | hparent := h
  · exact List.length_pos_iff.mp hpos hempty
  · rw [keyAt_append_length, keyAt_append_left (by omega)] at hless
    omega

/-- With another entry in the place of the root, only the root may be above its children. -/
theorem HeapOrdered.replace_root_around {e l : Entry} {mid : List Entry} (h : HeapOrdered (e :: (mid ++ [l]))) :
    OrderedAround (l :: mid) 0 := by
  refine ⟨fun k hpos hk _ hpar => ?_, fun _ _ _ _ hroot => absurd hroot (Nat.lt_irrefl 0)⟩
  have hsame : ∀ j, j ≠ 0 → j < mid.length + 1 → keyAt (e :: (mid ++ [l])) j = keyAt (l :: mid) j := by
    intro j hj hlt
    obtain ⟨j, rfl⟩ := Nat.exists_eq_succ_of_ne_zero hj
    exact keyAt_append_left (Nat.lt_of_succ_lt_succ hlt) l
  rw [List.length_cons] at hk
  rw [← hsame k (by omega) hk, ← hsame _ hpar (by omega)]
  exact h k hpos (by simp; omega)

theorem HeapOrdered.pqExtract {H : List Entry} (h : HeapOrdered H) : HeapOrdered (pqExtract H).2 := by
  obtain hshort | hlong := Nat.lt_or_ge H.length 2
  · exact heapOrdered_of_length_le_one (by rw [pqExtract_snd_length]; omega)
  · obtain ⟨e, rest, rfl⟩ := List.exists_cons_of_length_pos (Nat.zero_lt_of_lt hlong)
    obtain ⟨mid, l, rfl⟩ : ∃ mid l, rest = mid ++ [l] :=
      (List.eq_nil_or_concat' rest).resolve_left fun hnil => by simp [hnil] at hlong
    rw [pqExtract_cons_concat]
    exact siftDown_heapOrdered (Nat.le_refl _) h.replace_root_around fun hroot => absurd hroot (Nat.lt_irrefl 0)

/-- A build leaves one entry (spec/44_huffman.md R214). -/
theorem buildTree_queue_length (s : State) (halpha : s.alphabetOk) (hsum : countSum s.counts ≤ 4294967295)
    (hsome : s.counts.all (· == 0) = false) : (buildTree s.counts).2.length = 1 := by
  obtain ⟨-, e, he, -⟩ := buildTree_ok s.counts (by simpa using halpha.2) hsum hsome
  rw [he, List.length_singleton]

/-- The queue's commands and the build leave an ordered queue within its capacity; no other touches it. -/
theorem Completed.queueOk {s t : State} {i : Instr} (hc : Completed s i t) (h : QueueOk s) : QueueOk t := by
  obtain ⟨hordered, hlen⟩ := h
  cases hc with
  | pqClr => exact ⟨heapOrdered_of_length_le_one (Nat.zero_le 1), Nat.zero_le _⟩
  | pqIns hroom => exact ⟨hordered.pqInsert _, (pqInsert_length _ _).trans_le hroom⟩
  | pqExt => exact ⟨hordered.pqExtract, (pqExtract_snd_length _).trans_le ((Nat.sub_le _ _).trans hlen)⟩
  | hufBld halpha hsum hsome =>
    have hone := buildTree_queue_length s halpha hsum hsome
    exact ⟨heapOrdered_of_length_le_one hone.le, hone.trans_le (by decide)⟩
  | _ => simpa [QueueOk] using And.intro hordered hlen

/-- Settles O32: the two sifts restore the heap property, and only `PQ.INS` makes the queue longer. -/
theorem stepKeepsQueueOrdered : Obligations.StepKeepsQueueOrdered := by
  refine step_keeps (P := QueueOk) (fun _ _ _ _ h => h) (fun s a v h => ?_)
    (fun _ => ⟨heapOrdered_of_length_le_one (Nat.zero_le 1), Nat.zero_le _⟩)
    (fun _ _ _ _ h => h) (fun _ _ _ hc h => hc.queueOk h) (fun _ _ _ _ h => h)
  rw [State.store_eq]
  exact h

/-! ### `PQ.CLR`, `PQ.INS` and `PQ.EXT` (R190 to R194) -/

/-- Settles O50: clearing the queue makes no check. -/
theorem pqClrEmptiesTheQueue : Obligations.PqClrEmptiesTheQueue :=
  fun s hf => ⟨exec_of_ok .pqClr s _ hf rfl, rfl⟩

/-- Settles O51: the insert is a sift up of the appended entry. -/
theorem pqInsAddsTheEntry : Obligations.PqInsAddsTheEntry := by
  intro s hf
  constructor
  · intro hroom e H
    refine ⟨?_, ?_, pqInsert_perm s.heap e, fun h => h.pqInsert e, pqInsert_eq_append (e := e)⟩
    · exact exec_of_ok .pqIns s _ hf ((pqInsertArgs_ok s _).mpr ⟨hroom, rfl⟩)
    · rw [State.hsize, State.hsize, pqInsert_length, BitVec.ofNat_add]
      rfl
  · exact fun hfull => exec_of_error .pqIns s ⟨.capacity, 0⟩ hf (if_pos (Nat.not_lt.mpr hfull))

/-- Settles O52: the root of an ordered queue is a minimum, and the sift down restores the order of the rest. -/
theorem pqExtTakesAMinimum : Obligations.PqExtTakesAMinimum := by
  intro s hf
  constructor
  · intro e he H
    obtain ⟨hpos, hget⟩ := List.getElem?_eq_some_iff.mp he
    have hroot : entryAt s.heap 0 = e := (List.getD_eq_getElem _ _ hpos).trans hget
    have hperm := pqExtract_perm s.heap (List.length_pos_iff.mp hpos)
    refine ⟨?_, hroot ▸ hperm, fun h => ⟨h.pqExtract, fun x hx => ?_⟩⟩
    · have hexec := exec_of_ok .pqExt s _ hf ((pqExtractResult_ok s _).mpr ⟨hpos.ne', rfl⟩)
      rwa [pqExtract_fst, hroot] at hexec
    · obtain ⟨i, hi, rfl⟩ := List.getElem_of_mem hx
      have hleast := h.root_le i hi
      rwa [keyAt, hroot, keyAt, entryAt, List.getD_eq_getElem _ _ hi] at hleast
  · intro hempty
    exact exec_of_error .pqExt s ⟨.emptyQueue, 0⟩ hf (if_pos (List.length_eq_zero_iff.mpr hempty))

end Sys2Proof.Machine
end

-- ==== Counts: the frequency table of a stream (spec/44_huffman.md R205, R210) ====
section

namespace Sys2Proof.Machine

open Sys2Proof

/-! ### Counting a stream -/

/-- The counts of the values below a bound sum to the length of a list of such values. -/
theorem sum_map_count_range {A : Nat} {l : List Nat} (h : ∀ v ∈ l, v < A) :
    ((List.range A).map fun c => l.count c).sum = l.length := by
  have hmem : ∀ v ∈ (l : Multiset Nat), v ∈ Finset.range A := fun v hv => Finset.mem_range.mpr (h v hv)
  rw [← Multiset.coe_card, ← Multiset.sum_count_eq_card hmem]
  simp [Finset.sum, Multiset.range]

/-- The counts of a stream without the marker are those of the stream with the marker after it (R205, R210). -/
theorem countOf_eq_count {A E : Nat} {S : List Nat} (hS : ∀ v ∈ S, v < A ∧ v ≠ E) (c : Nat) :
    countOf A E S c = (S ++ [E]).count c := by
  have hmark : S.count E = 0 := List.count_eq_zero.mpr fun hmem => (hS E hmem).2 rfl
  have hrange (hc : ¬ c < A) : S.count c = 0 := List.count_eq_zero.mpr fun hmem => hc (hS c hmem).1
  rw [countOf, List.count_append, List.count_singleton]
  split
  case isTrue h => simp [h, hmark]
  case isFalse h =>
    split
    case isTrue => simp [Ne.symm h]
    case isFalse hc => simp [hrange hc, Ne.symm h]

theorem countOf_le (A E : Nat) (S : List Nat) (c : Nat) : countOf A E S c ≤ S.length + 1 := by
  have hle := List.count_le_length (a := c) (l := S)
  unfold countOf
  split_ifs <;> omega

/-- `FREQ` after `HUF.CNT b` (R210). -/
def State.countedFreq (s : State) (b : Bsel) : Cells Word := writeFrom 0 s.freq 0 (countsOf b s)

/-- The symbols of a marker-free stream and the marker are in the alphabet. -/
theorem lt_asize_of_mem_marked {s : State} {b : Bsel} (hok : s.markerOk) (hfree : MarkerFree s b) {v : Nat}
    (hv : v ∈ s.source b ++ [s.eob.toNat]) : v < s.asize.toNat := by
  obtain hv | hv := List.mem_append.mp hv
  · exact (hfree v hv).1
  · exact List.mem_singleton.mp hv ▸ hok.2

section

variable {s : State} {b : Bsel} (hok : s.markerOk) (hlen : s.lenNat b ≤ cfg.nmax) (hfree : MarkerFree s b)
include hlen

theorem cellGet_countedFreq {c : Nat} (hc : c < cfg.amax) :
    (cellGet 0 (s.countedFreq b) c).toNat = countOf s.asize.toNat s.eob.toNat (s.source b) c := by
  have hle := countOf_le s.asize.toNat s.eob.toNat (s.source b) c
  rw [source_length] at hle
  rw [cfg_nmax] at hlen
  rw [State.countedFreq, cellGet_writeFrom_lt _ _ _ _ (by rwa [countsOf_length]), countsOf,
    List.getD_eq_getElem _ _ (by simpa using hc)]
  simp only [List.getElem_map, List.getElem_range, BitVec.toNat_ofNat]
  omega

include hok hfree

/-- An alphabet's counts are those of the stream with the marker after it (R205). -/
theorem cellGet_countedFreq_eq_count {c : Nat} (hc : c < s.asize.toNat) :
    (cellGet 0 (s.countedFreq b) c).toNat = (s.source b ++ [s.eob.toNat]).count c := by
  obtain ⟨⟨-, hA⟩, -⟩ := hok
  rw [cellGet_countedFreq hlen (hc.trans_le hA), countOf_eq_count hfree]

theorem sum_countedFreq :
    ((List.range s.asize.toNat).map fun c => (cellGet 0 (s.countedFreq b) c).toNat).sum = s.lenNat b + 1 := by
  rw [List.map_congr_left fun c hc => cellGet_countedFreq_eq_count hok hlen hfree (List.mem_range.mp hc),
    sum_map_count_range fun v hv => lt_asize_of_mem_marked hok hfree hv, List.length_append, source_length,
    List.length_singleton]

end

theorem exec_hufCnt {s : State} {b : Bsel} (hf : s.fault = false) (hok : s.markerOk) (hlen : s.lenNat b ≤ cfg.nmax)
    (hfree : MarkerFree s b) : exec (.hufCnt b) s = .next { s with freq := s.countedFreq b } :=
  exec_of_ok (.hufCnt b) s _ hf ((hufCount_ok b s _).mpr ⟨hok, hlen, hfree, rfl⟩)

/-- Settles O53: an alphabet's counts are those of the stream with the marker after it. -/
theorem hufCntCountsTheStream : Obligations.HufCntCountsTheStream := by
  intro s b hf hok hlen hfree
  exact ⟨s.countedFreq b, exec_hufCnt hf hok hlen hfree, fun c hc => cellGet_countedFreq hlen hc,
    sum_countedFreq hok hlen hfree⟩

end Sys2Proof.Machine
end

-- ==== Code table: paths in a tree and the table of its leaves' paths (spec/44_huffman.md R208, R220, R221) ====
section

namespace Sys2Proof.Machine

open Sys2Proof

/-! ### Paths (R208) -/

/-- The node a bit leads to from an internal node: 0 left, 1 right (R208). -/
def childOf (nodes : List Node) (i : Nat) (bit : Bool) : Nat :=
  (if bit then (nodeOf nodes i).right else (nodeOf nodes i).left).toNat

theorem reach_nil (nodes : List Node) (i : Nat) : reach nodes i [] = some i := rfl

theorem reach_cons_of_leaf {nodes : List Node} {i : Nat} (h : (nodeOf nodes i).leaf = true) (bit : Bool) (rest : Bits) :
    reach nodes i (bit :: rest) = none := if_pos h

theorem reach_cons_of_inner {nodes : List Node} {i : Nat} (h : (nodeOf nodes i).leaf = false) (bit : Bool)
    (rest : Bits) : reach nodes i (bit :: rest) = reach nodes (childOf nodes i bit) rest := if_neg (by simp [h])

theorem inner_of_reach_cons {nodes : List Node} {i j : Nat} {bit : Bool} {rest : Bits}
    (h : reach nodes i (bit :: rest) = some j) : (nodeOf nodes i).leaf = false := by
  cases hleaf : (nodeOf nodes i).leaf with
  | false => rfl
  | true => rw [reach_cons_of_leaf hleaf] at h; cases h

theorem reach_append (nodes : List Node) (i : Nat) (p q : Bits) :
    reach nodes i (p ++ q) = (reach nodes i p).bind fun j => reach nodes j q := by
  induction p generalizing i with
  | nil => rfl
  | cons bit rest ih =>
    rw [List.cons_append]
    cases hleaf : (nodeOf nodes i).leaf with
    | true => rw [reach_cons_of_leaf hleaf, reach_cons_of_leaf hleaf, Option.bind_none]
    | false => rw [reach_cons_of_inner hleaf, reach_cons_of_inner hleaf, ih]

/-- The last step of a path is from an internal node to one of its children. -/
theorem reach_concat {nodes : List Node} {i j : Nat} {p : Bits} {bit : Bool} :
    reach nodes i (p ++ [bit]) = some j ↔
      ∃ m, reach nodes i p = some m ∧ (nodeOf nodes m).leaf = false ∧ childOf nodes m bit = j := by
  simp only [reach_append, Option.bind_eq_some_iff]
  refine exists_congr fun m => and_congr_right fun _ => ?_
  cases hleaf : (nodeOf nodes m).leaf with
  | true => simp [reach_cons_of_leaf hleaf]
  | false => simp [reach_cons_of_inner hleaf, reach_nil]

/-- The path leads from node `i` to a leaf of the symbol `c`. -/
def LeadsTo (nodes : List Node) (i : Nat) (p : Bits) (c : Nat) : Prop :=
  ∃ j, reach nodes i p = some j ∧ (nodeOf nodes j).leaf = true ∧ (nodeOf nodes j).sym.toNat = c

theorem leadsTo_of_leaf {nodes : List Node} {i : Nat} (h : (nodeOf nodes i).leaf = true) (p : Bits) (c : Nat) :
    LeadsTo nodes i p c ↔ p = [] ∧ (nodeOf nodes i).sym.toNat = c := by
  cases p with
  | nil => simp [LeadsTo, reach_nil, h]
  | cons bit rest => simp [LeadsTo, reach_cons_of_leaf h]

theorem not_leadsTo_nil_of_inner {nodes : List Node} {i : Nat} (h : (nodeOf nodes i).leaf = false) (c : Nat) :
    ¬ LeadsTo nodes i [] c := by simp [LeadsTo, reach_nil, h]

theorem leadsTo_cons_of_inner {nodes : List Node} {i : Nat} (h : (nodeOf nodes i).leaf = false) (bit : Bool)
    (rest : Bits) (c : Nat) : LeadsTo nodes i (bit :: rest) c ↔ LeadsTo nodes (childOf nodes i bit) rest c := by
  rw [LeadsTo, reach_cons_of_inner h, LeadsTo]

/-! ### Codewords (R215, R221) -/

theorem isCodeword_of_leaf {nodes : List Node} {root : Nat} (h : (nodeOf nodes root).leaf = true) (p : Bits) (c : Nat) :
    IsCodeword nodes root p c ↔ p = [false] ∧ (nodeOf nodes root).sym.toNat = c := by rw [IsCodeword, if_pos h]

theorem isCodeword_of_inner {nodes : List Node} {root : Nat} (h : (nodeOf nodes root).leaf = false) (p : Bits)
    (c : Nat) : IsCodeword nodes root p c ↔ LeadsTo nodes root p c := by
  rw [IsCodeword, if_neg (by simp [h]), LeadsTo]

/-- A path to a leaf cannot be continued (R221). -/
theorem eq_of_isCodeword_prefix {nodes : List Node} {root c d : Nat} {p q : Bits} (hp : IsCodeword nodes root p c)
    (hq : IsCodeword nodes root q d) (hpq : p <+: q) : c = d := by
  cases hleaf : (nodeOf nodes root).leaf with
  | true => exact ((isCodeword_of_leaf hleaf p c).mp hp).2.symm.trans ((isCodeword_of_leaf hleaf q d).mp hq).2
  | false =>
    obtain ⟨j, hj, hjleaf, rfl⟩ := (isCodeword_of_inner hleaf p c).mp hp
    obtain ⟨j', hj', -, rfl⟩ := (isCodeword_of_inner hleaf q d).mp hq
    obtain ⟨rest, rfl⟩ := hpq
    rw [reach_append, hj, Option.bind_some] at hj'
    cases rest with
    | nil => rw [Option.some.inj hj']
    | cons bit rest => rw [reach_cons_of_leaf hjleaf] at hj'; cases hj'

theorem ne_nil_of_isCodeword {nodes : List Node} {root c : Nat} {p : Bits} (h : IsCodeword nodes root p c) :
    p ≠ [] := by
  rintro rfl
  cases hleaf : (nodeOf nodes root).leaf with
  | true => cases ((isCodeword_of_leaf hleaf _ c).mp h).1
  | false => exact not_leadsTo_nil_of_inner hleaf c ((isCodeword_of_inner hleaf _ c).mp h)

/-! ### Paths in a built tree (R214) -/

namespace ArenaOk

variable {nodes : List Node} {k : Nat} (h : ArenaOk nodes k)
include h

theorem length_lt : nodes.length < 1024 := by
  obtain ⟨-, hk, hlen, -⟩ := h
  rw [cfg_amax] at hk
  omega

theorem length_pos : 0 < nodes.length := by
  obtain ⟨hk, -, hlen, -⟩ := h
  omega

theorem leaf_eq {i : Nat} (hi : i < nodes.length) : (nodeOf nodes i).leaf = decide (i < k) := by
  obtain ⟨-, -, -, ⟨hleaf, -⟩, hinner, -⟩ := h
  by_cases hik : i < k
  · rw [decide_eq_true hik]
    exact (hleaf i hik).1
  · rw [decide_eq_false hik]
    exact (hinner i (Nat.not_lt.mp hik) hi).1

theorem le_of_inner {i : Nat} (hi : i < nodes.length) (hleaf : (nodeOf nodes i).leaf = false) : k ≤ i := by
  rw [h.leaf_eq hi] at hleaf
  simpa using hleaf

theorem childOf_lt {i : Nat} (hi : i < nodes.length) (hleaf : (nodeOf nodes i).leaf = false) (bit : Bool) :
    childOf nodes i bit < i := by
  have hki := h.le_of_inner hi hleaf
  obtain ⟨-, -, -, -, hinner, -⟩ := h
  obtain ⟨-, -, hleft, hright, -⟩ := hinner i hki hi
  cases bit
  · exact hleft
  · exact hright

theorem par_childOf {i : Nat} (hi : i < nodes.length) (hleaf : (nodeOf nodes i).leaf = false) (bit : Bool) :
    (nodeOf nodes (childOf nodes i bit)).par.toNat = i := by
  have hki := h.le_of_inner hi hleaf
  obtain ⟨-, -, -, -, hinner, -⟩ := h
  obtain ⟨-, -, -, -, -, hleft, hright, -⟩ := hinner i hki hi
  cases bit
  · exact hleft
  · exact hright

theorem childOf_injective {i : Nat} (hi : i < nodes.length) (hleaf : (nodeOf nodes i).leaf = false) :
    Function.Injective (childOf nodes i) := by
  have hki := h.le_of_inner hi hleaf
  obtain ⟨-, -, -, -, hinner, -⟩ := h
  obtain ⟨-, -, -, -, hne, -⟩ := hinner i hki hi
  intro bit bit' heq
  cases bit <;> cases bit'
  · rfl
  · exact absurd (BitVec.eq_of_toNat_eq heq) hne
  · exact absurd (BitVec.eq_of_toNat_eq heq).symm hne
  · rfl

/-- A path goes down in the arena. -/
theorem reach_add_length_le {i j : Nat} (hi : i < nodes.length) {p : Bits} (hp : reach nodes i p = some j) :
    j + p.length ≤ i := by
  induction p generalizing i with
  | nil => exact (Option.some.inj hp).ge
  | cons bit rest ih =>
    have hleaf := inner_of_reach_cons hp
    have hlt := h.childOf_lt hi hleaf bit
    have hrest := ih (hlt.trans hi) ((reach_cons_of_inner hleaf bit rest).symm.trans hp)
    rw [List.length_cons]
    omega

/-- A node is reached on one path only: each node on the way is the parent of the next (R214). -/
theorem path_unique {i j : Nat} (hi : i < nodes.length) {p q : Bits} (hp : reach nodes i p = some j)
    (hq : reach nodes i q = some j) : p = q := by
  have hdown {r : Bits} (hr : reach nodes i r = some j) := h.reach_add_length_le hi hr
  induction p using List.reverseRecOn generalizing q j with
  | nil =>
    have hlen := hdown hq
    rw [← Option.some.inj hp] at hlen
    exact (List.length_eq_zero_iff.mp (by omega)).symm
  | append_singleton p bit ih =>
    obtain ⟨m, hm, hmleaf, rfl⟩ := reach_concat.mp hp
    have hmi := h.reach_add_length_le hi hm
    obtain rfl | ⟨q, bit', rfl⟩ := List.eq_nil_or_concat' q
    · have hlen := hdown hp
      rw [← Option.some.inj hq, List.length_append, List.length_singleton] at hlen
      omega
    · obtain ⟨m', hm', hmleaf', hsame⟩ := reach_concat.mp hq
      have hmi' := h.reach_add_length_le hi hm'
      have hpar := h.par_childOf (by omega) hmleaf bit
      rw [← hsame, h.par_childOf (by omega) hmleaf' bit'] at hpar
      subst hpar
      rw [ih hm hm' fun hr => h.reach_add_length_le hi hr, h.childOf_injective (by omega) hmleaf' hsame]

/-- Leaves have different symbols, so a symbol's leaf is found on one path only (R214). -/
theorem leadsTo_unique {i c : Nat} (hi : i < nodes.length) {p q : Bits} (hp : LeadsTo nodes i p c)
    (hq : LeadsTo nodes i q c) : p = q := by
  obtain ⟨j, hj, hleaf, hsym⟩ := hp
  obtain ⟨j', hj', hleaf', hsym'⟩ := hq
  have hji := h.reach_add_length_le hi hj
  have hji' := h.reach_add_length_le hi hj'
  rw [h.leaf_eq (by omega), decide_eq_true_eq] at hleaf hleaf'
  have heq : j = j' := by
    obtain ⟨-, -, -, ⟨-, hascending⟩, -⟩ := h
    obtain hlt | heq | hlt := Nat.lt_trichotomy j j'
    · have := hascending j j' hlt hleaf'
      omega
    · exact heq
    · have := hascending j' j hlt hleaf
      omega
  exact h.path_unique hi hj (heq ▸ hj')

/-- Every node is reached from the root: its parent is, and the parent is a later node (R214). -/
theorem exists_path {j : Nat} (hj : j < nodes.length) : ∃ p, reach nodes (nodes.length - 1) p = some j := by
  obtain ⟨n, hn⟩ : ∃ n, j + n = nodes.length - 1 := ⟨nodes.length - 1 - j, by omega⟩
  induction n using Nat.strong_induction_on generalizing j with
  | _ n ih =>
    obtain rfl | hpos := Nat.eq_zero_or_pos n
    · exact ⟨[], congrArg some (by omega)⟩
    · have hparent : HasParent nodes j := by
        obtain ⟨-, -, -, -, -, -, hparents⟩ := h
        exact hparents j (by omega)
      obtain ⟨hm, hmleaf, hchild⟩ := hparent
      obtain ⟨bit, hbit⟩ : ∃ bit, childOf nodes (nodeOf nodes j).par.toNat bit = j :=
        hchild.elim (⟨false, ·⟩) (⟨true, ·⟩)
      have hlater := h.childOf_lt hm hmleaf bit
      rw [hbit] at hlater
      obtain ⟨p, hp⟩ := ih (nodes.length - 1 - (nodeOf nodes j).par.toNat) (by omega) hm (by omega)
      exact ⟨p ++ [bit], reach_concat.mpr ⟨_, hp, hmleaf, hbit⟩⟩

/-- Every leaf has a codeword (R220). -/
theorem exists_codeword {j : Nat} (hj : j < k) :
    ∃ p, IsCodeword nodes (nodes.length - 1) p (nodeOf nodes j).sym.toNat := by
  have hlen : j < nodes.length := by
    obtain ⟨-, -, hlen, -⟩ := h
    omega
  have hjleaf : (nodeOf nodes j).leaf = true := by rw [h.leaf_eq hlen, decide_eq_true hj]
  obtain ⟨p, hp⟩ := h.exists_path hlen
  cases hleaf : (nodeOf nodes (nodes.length - 1)).leaf with
  | false => exact ⟨p, (isCodeword_of_inner hleaf p _).mpr ⟨j, hp, hjleaf, rfl⟩⟩
  | true =>
    have hroot : j = nodes.length - 1 := by
      cases p with
      | nil => exact (Option.some.inj hp).symm
      | cons bit rest => rw [reach_cons_of_leaf hleaf] at hp; cases hp
    exact ⟨[false], (isCodeword_of_leaf hleaf _ _).mpr ⟨rfl, by rw [hroot]⟩⟩

end ArenaOk

/-! ### The walk (R220) -/

theorem walkTree_of_leaf {nodes : List Node} {i : Nat} (hleaf : (nodeOf nodes i).leaf = true) (fuel : Nat) (path : Bits)
    (C : Cells (Option Bits)) :
    walkTree nodes (fuel + 1) i path C = setCode C (nodeOf nodes i).sym.toNat path := if_pos hleaf

theorem walkTree_of_inner {nodes : List Node} {i : Nat} (hleaf : (nodeOf nodes i).leaf = false) (fuel : Nat)
    (path : Bits) (C : Cells (Option Bits)) :
    walkTree nodes (fuel + 1) i path C = walkTree nodes fuel (childOf nodes i true) (path ++ [true])
      (walkTree nodes fuel (childOf nodes i false) (path ++ [false]) C) := if_neg (ne_true_of_eq_false hleaf)

theorem cellGet_setCode (C : Cells (Option Bits)) {c : Nat} (hc : c < cfg.amax) (w : Bits) (d : Nat) :
    cellGet none (setCode C c w) d = if d = c then some w else cellGet none C d := by
  rw [setCode, if_pos hc, cellGet_cellSet]

namespace ArenaOk

variable {nodes : List Node} {k : Nat} (h : ArenaOk nodes k)
include h

theorem sym_lt_of_leaf {i : Nat} (hi : i < nodes.length) (hleaf : (nodeOf nodes i).leaf = true) :
    (nodeOf nodes i).sym.toNat < cfg.amax := by
  rw [h.leaf_eq hi, decide_eq_true_eq] at hleaf
  obtain ⟨-, -, -, ⟨hleaves, -⟩, -⟩ := h
  obtain ⟨-, -, -, hsym, -⟩ := hleaves i hleaf
  exact hsym

/-- The walk from a node leaves the entries of symbols that have no leaf below it. -/
theorem walkTree_of_not_leadsTo {fuel i c : Nat} (hi : i < nodes.length) (hno : ∀ q, ¬ LeadsTo nodes i q c) (path : Bits)
    (C : Cells (Option Bits)) : cellGet none (walkTree nodes fuel i path C) c = cellGet none C c := by
  induction fuel generalizing i path C with
  | zero => rfl
  | succ fuel ih =>
    cases hleaf : (nodeOf nodes i).leaf with
    | true =>
      have hc : c ≠ (nodeOf nodes i).sym.toNat := fun hc => hno [] ((leadsTo_of_leaf hleaf [] c).mpr ⟨rfl, hc.symm⟩)
      rw [walkTree_of_leaf hleaf, cellGet_setCode C (h.sym_lt_of_leaf hi hleaf), if_neg hc]
    | false =>
      have hchild (bit : Bool) (C' : Cells (Option Bits)) :=
        ih ((h.childOf_lt hi hleaf bit).trans hi)
          (fun q hq => hno (bit :: q) ((leadsTo_cons_of_inner hleaf bit q c).mpr hq)) (path ++ [bit]) C'
      rw [walkTree_of_inner hleaf, hchild true, hchild false]

/-- The walk from a node writes each leaf below it the path to it. -/
theorem walkTree_of_leadsTo {fuel i c : Nat} (hi : i < nodes.length) (hfuel : i < fuel) {q : Bits}
    (hq : LeadsTo nodes i q c) (path : Bits) (C : Cells (Option Bits)) :
    cellGet none (walkTree nodes fuel i path C) c = some (path ++ q) := by
  induction fuel generalizing i q path C with
  | zero => omega
  | succ fuel ih =>
    cases hleaf : (nodeOf nodes i).leaf with
    | true =>
      obtain ⟨rfl, hc⟩ := (leadsTo_of_leaf hleaf q c).mp hq
      rw [walkTree_of_leaf hleaf, cellGet_setCode C (h.sym_lt_of_leaf hi hleaf), if_pos hc.symm, List.append_nil]
    | false =>
      rw [walkTree_of_inner hleaf]
      have hlt := h.childOf_lt hi hleaf
      match q with
      | [] => exact absurd hq (not_leadsTo_nil_of_inner hleaf c)
      | true :: rest =>
        have hrest := (leadsTo_cons_of_inner hleaf true rest c).mp hq
        rw [ih ((hlt true).trans hi) (by have := hlt true; omega) hrest, List.append_assoc, List.singleton_append]
      | false :: rest =>
        have hrest := (leadsTo_cons_of_inner hleaf false rest c).mp hq
        have hright : ∀ q', ¬ LeadsTo nodes (childOf nodes i true) q' c := fun q' hq' => by
          cases h.leadsTo_unique hi hq ((leadsTo_cons_of_inner hleaf true q' c).mpr hq')
        rw [h.walkTree_of_not_leadsTo ((hlt true).trans hi) hright,
          ih ((hlt false).trans hi) (by have := hlt false; omega) hrest, List.append_assoc, List.singleton_append]

/-- The code table of a built tree holds its codewords and nothing else (R220). -/
theorem cellGet_codesOf {root : Nat} (hroot : root < nodes.length) (c : Nat) (p : Bits) :
    cellGet none (codesOf nodes root) c = some p ↔ IsCodeword nodes root p c := by
  cases hleaf : (nodeOf nodes root).leaf with
  | true =>
    have hcodes : codesOf nodes root = setCode [] (nodeOf nodes root).sym.toNat [false] := if_pos hleaf
    rw [hcodes, cellGet_setCode [] (h.sym_lt_of_leaf hroot hleaf), isCodeword_of_leaf hleaf]
    by_cases hc : c = (nodeOf nodes root).sym.toNat
    · simp [hc, eq_comm]
    · simp [hc, Ne.symm hc]
  | false =>
    have hcodes : codesOf nodes root = walkTree nodes nodes.length root [] [] := if_neg (ne_true_of_eq_false hleaf)
    rw [hcodes, isCodeword_of_inner hleaf]
    constructor
    · intro hp
      by_cases hex : ∃ q, LeadsTo nodes root q c
      · obtain ⟨q, hq⟩ := hex
        rw [h.walkTree_of_leadsTo hroot hroot hq, List.nil_append] at hp
        exact Option.some.inj hp ▸ hq
      · rw [h.walkTree_of_not_leadsTo hroot (not_exists.mp hex)] at hp
        cases hp
    · exact fun hp => h.walkTree_of_leadsTo hroot hroot hp [] []

end ArenaOk

/-- A valid tree is a built arena with its root at the last node. -/
theorem TreeOk.arenaOk {s : State} (h : TreeOk s) (htree : s.treev = true) :
    (∃ k, ArenaOk s.node k) ∧ s.root.toNat < s.node.length := by
  obtain ⟨hagree, -⟩ := h
  rw [if_pos htree] at hagree
  obtain ⟨⟨k, harena⟩, hroot⟩ := hagree
  have hlt := harena.length_lt
  have hpos := harena.length_pos
  refine ⟨⟨k, harena⟩, ?_⟩
  rw [hroot, BitVec.toNat_ofNat]
  omega

theorem exec_hufTab {s : State} (hf : s.fault = false) (htree : s.treev = true) :
    exec .hufTab s = .next { s with code := codesOf s.node s.root.toNat, codev := true } :=
  exec_of_ok .hufTab s _ hf ((hufTable_ok s _).mpr ⟨htree, rfl⟩)

/-- Settles O55: the walk writes the path of each leaf, and a path to a leaf cannot be continued. -/
theorem hufTabWritesLeafPaths : Obligations.HufTabWritesLeafPaths := by
  intro s hf htree
  refine ⟨_, exec_hufTab hf htree, fun hok => ?_⟩
  obtain ⟨⟨k, harena⟩, hroot⟩ := hok.arenaOk htree
  have hcode := harena.cellGet_codesOf hroot
  refine ⟨hcode, fun c d p q hp hq hpq => ?_, fun c p hp => ?_⟩
  · exact eq_of_isCodeword_prefix ((hcode c p).mp hp) ((hcode d q).mp hq) hpq
  · exact ne_nil_of_isCodeword ((hcode c p).mp hp)

end Sys2Proof.Machine
end

-- ==== Least merges: the build joins the two least nodes each time (spec/44_huffman.md R212 to R214) ====
section

namespace Sys2Proof.Machine

open Sys2Proof

/-! ### The leaves (R211) -/

/-- The leaves of consecutive symbols' counts: one per symbol of a count that is not 0, in ascending order. -/
theorem leavesFrom_map_range' (f : Nat → Word) (c n : Nat) :
    leavesFrom c ((List.range' c n).map f) =
      ((List.range' c n).filter fun d => decide (f d ≠ 0)).map fun d => leafNode d (f d) := by
  induction n generalizing c with
  | zero => rfl
  | succ n ih =>
    rw [List.range'_succ, List.map_cons, leavesFrom, ih, List.filter_cons]
    by_cases hf : f c = 0#32 <;> simp [hf]

/-- The symbols that get a leaf: those below `ASIZE` with a count that is not 0 (R211). -/
def State.countedSymbols (s : State) : List Nat := (List.range s.asize.toNat).filter fun c => decide (s.freqAt c ≠ 0)

theorem leavesFrom_counts (s : State) :
    leavesFrom 0 s.counts = s.countedSymbols.map fun c => leafNode c (s.freqAt c) := by
  rw [State.counts, State.countedSymbols, List.range_eq_range']
  exact leavesFrom_map_range' s.freqAt 0 s.asize.toNat

theorem counts_all_zero_iff (s : State) : s.counts.all (· == 0) = false ↔ s.countedSymbols ≠ [] := by
  rw [← Bool.not_eq_true, not_iff_not]
  simp [State.counts, State.countedSymbols]

/-! ### What a build leaves of a node -/

/-- What a build never changes of a node: its symbol and its count. -/
def Node.label (nd : Node) : Sym × Word := (nd.sym, nd.cnt)

theorem map_label_setParent (nodes : List Node) (i t : Nat) :
    (setParent nodes i t).map Node.label = nodes.map Node.label := by
  refine List.ext_getElem? fun j => ?_
  rw [setParent, List.getElem?_map, List.getElem?_modify, List.getElem?_map, Option.map_eq_map, Option.map_map]
  refine congrArg (Option.map · _) (funext fun nd => ?_)
  dsimp only [Function.comp]
  split <;> rfl

theorem map_label_joinNodes (nodes : List Node) (cnt : Word) (l r : Nat) :
    (joinNodes nodes cnt l r).map Node.label = nodes.map Node.label ++ [(0, cnt)] := by
  rw [joinNodes, map_label_setParent, map_label_setParent, List.map_append]
  rfl

/-- Merging adds nodes behind the ones there are. -/
theorem map_label_prefix_mergeAll (fuel : Nat) (nodes : List Node) (H : List Entry) :
    nodes.map Node.label <+: (mergeAll fuel nodes H).1.map Node.label := by
  induction fuel generalizing nodes H with
  | zero => exact List.prefix_rfl
  | succ fuel ih =>
    rw [mergeAll]
    split
    · refine List.IsPrefix.trans ?_ (ih _ _)
      rw [mergeOnce, mergeNodes_eq, map_label_joinNodes]
      exact List.prefix_append _ _
    · exact List.prefix_rfl

/-- The first nodes of a built arena are its leaves (R211). -/
theorem map_label_take_buildTree (counts : List Word) :
    ((buildTree counts).1.take (leavesFrom 0 counts).length).map Node.label =
      (leavesFrom 0 counts).map Node.label := by
  have hprefix : (leavesFrom 0 counts).map Node.label <+: (buildTree counts).1.map Node.label :=
    map_label_prefix_mergeAll _ _ _
  rw [List.map_take, ← List.length_map (f := Node.label), ← List.prefix_iff_eq_take.mp hprefix]

/-! ### Each merge joins the two least nodes (R212, R214) -/

/-- The internal node `i` joins the two least of the nodes that had no parent before it, the lesser one left, and no
later node's count is below its own. -/
structure JoinsLeast (nodes : List Node) (i : Nat) : Prop where
  ordered : (nodeOf nodes (nodeOf nodes i).left.toNat).cnt.toNat ≤ (nodeOf nodes (nodeOf nodes i).right.toNat).cnt.toNat
  least : ∀ j < i, i < (nodeOf nodes j).par.toNat →
    (nodeOf nodes (nodeOf nodes i).right.toNat).cnt.toNat ≤ (nodeOf nodes j).cnt.toNat
  rising : ∀ j, i < j → j < nodes.length → (nodeOf nodes i).cnt.toNat ≤ (nodeOf nodes j).cnt.toNat

/-- Between two merges the arena and the queue agree, the queue is ordered and each merge so far joined the two least
nodes. -/
structure GreedyOk (k total : Nat) (nodes : List Node) (H : List Entry) : Prop where
  build : BuildOk k total nodes H
  ordered : HeapOrdered H
  joins : ∀ i, k ≤ i → i < nodes.length → JoinsLeast nodes i

/-- A node still without a parent is no less than the greater child of any merge so far. -/
theorem JoinsLeast.right_le_of_free {nodes : List Node} {k i j : Nat} (h : JoinsLeast nodes i)
    (hinner : InnerOk nodes k) (hki : k ≤ i) (hi : i < nodes.length) (hlen : nodes.length < 65535)
    (hj : j < nodes.length) (hfree : (nodeOf nodes j).par = nilPtr) :
    (nodeOf nodes (nodeOf nodes i).right.toNat).cnt.toNat ≤ (nodeOf nodes j).cnt.toNat := by
  obtain ⟨-, -, -, -, -, -, -, hsum⟩ := hinner i hki hi
  obtain hlt | rfl | hlt := Nat.lt_trichotomy j i
  · refine h.least j hlt ?_
    rw [hfree, show nilPtr.toNat = 65535 from rfl]
    omega
  · omega
  · have hrising := h.rising j hlt hj
    omega

section

variable {nodes : List Node} {cnt : Word} {l r i : Nat} (hi : i < nodes.length)
include hi

theorem cnt_joinNodes_lt : (nodeOf (joinNodes nodes cnt l r) i).cnt = (nodeOf nodes i).cnt := by
  rw [nodeOf_joinNodes_lt _ _ _ _ i hi]

theorem left_joinNodes_lt : (nodeOf (joinNodes nodes cnt l r) i).left = (nodeOf nodes i).left := by
  rw [nodeOf_joinNodes_lt _ _ _ _ i hi]

theorem right_joinNodes_lt : (nodeOf (joinNodes nodes cnt l r) i).right = (nodeOf nodes i).right := by
  rw [nodeOf_joinNodes_lt _ _ _ _ i hi]

end

section

variable {k total : Nat} {nodes : List Node} {x y : Entry} {rest : List Entry}
  (hbuild : BuildOk k total nodes (x :: y :: rest)) (hk : k ≤ cfg.amax)
include hbuild hk

/-- A merge of the two least entries makes a node that joins the two least nodes. -/
theorem joinsLeast_new (hxy : x.key.toNat ≤ y.key.toNat) (hleast : ∀ e ∈ rest, y.key.toNat ≤ e.key.toNat) (cnt : Word) :
    JoinsLeast (joinNodes nodes cnt x.val.toNat y.val.toNat) nodes.length := by
  obtain ⟨hx, hxkey, -⟩ := hbuild.free x (by simp)
  obtain ⟨hy, hykey, -⟩ := hbuild.free y (by simp)
  have hsize := hbuild.size
  rw [cfg_amax] at hk
  have hl := ptr_toNat x.val.toNat (by omega)
  have hr := ptr_toNat y.val.toNat (by omega)
  constructor
  · rw [nodeOf_joinNodes_length _ _ _ _ hx hy]
    simp only [innerNode, hl, hr]
    rwa [cnt_joinNodes_lt hx, cnt_joinNodes_lt hy, ← hxkey, ← hykey]
  · intro j hj hpar
    rw [nodeOf_joinNodes_lt _ _ _ _ j hj] at hpar
    have hother : ¬ (j = x.val.toNat ∨ j = y.val.toNat) := by
      intro hjoined
      rw [if_pos hjoined, ptr_toNat _ (by omega)] at hpar
      exact lt_irrefl _ hpar
    rw [if_neg hother] at hpar
    have hwaiting : j ∈ (x :: y :: rest).map fun e => e.val.toNat := by
      by_contra howned
      exact hpar.not_gt (hbuild.owned j hj howned).1
    rw [not_or] at hother
    simp only [List.map_cons, List.mem_cons, hother.1, hother.2, false_or] at hwaiting
    obtain ⟨e, he, rfl⟩ := List.mem_map.mp hwaiting
    obtain ⟨-, hkey, -⟩ := hbuild.free e (by simp [he])
    rw [nodeOf_joinNodes_length _ _ _ _ hx hy]
    simp only [innerNode, hr]
    rw [cnt_joinNodes_lt hy, cnt_joinNodes_lt hj, ← hykey, ← hkey]
    exact hleast e he
  · intro j hj hlt
    rw [joinNodes_length] at hlt
    omega

/-- A merge leaves the merges before it as they are, and its node is no less than theirs. -/
theorem JoinsLeast.joinNodes_old {cnt : Word} (hcnt : cnt.toNat = x.key.toNat + y.key.toNat) {i : Nat} (hki : k ≤ i)
    (hi : i < nodes.length) (h : JoinsLeast nodes i) :
    JoinsLeast (joinNodes nodes cnt x.val.toNat y.val.toNat) i := by
  obtain ⟨hx, hxkey, hxpar⟩ := hbuild.free x (by simp)
  obtain ⟨hy, hykey, hypar⟩ := hbuild.free y (by simp)
  obtain ⟨-, -, hleft, hright, -, -, -, hsum⟩ := hbuild.inner i hki hi
  have hsize := hbuild.size
  rw [cfg_amax] at hk
  constructor
  · rw [left_joinNodes_lt hi, right_joinNodes_lt hi, cnt_joinNodes_lt (hleft.trans hi),
      cnt_joinNodes_lt (hright.trans hi)]
    exact h.ordered
  · intro j hj hpar
    rw [right_joinNodes_lt hi, cnt_joinNodes_lt (hright.trans hi), cnt_joinNodes_lt (hj.trans hi)]
    rw [nodeOf_joinNodes_lt _ _ _ _ j (hj.trans hi)] at hpar
    refine h.least j hj ?_
    by_cases hjoined : j = x.val.toNat ∨ j = y.val.toNat
    · have hfree : (nodeOf nodes j).par = nilPtr := by
        obtain rfl | rfl := hjoined
        · exact hxpar
        · exact hypar
      rw [hfree, show nilPtr.toNat = 65535 from rfl]
      omega
    · rwa [if_neg hjoined] at hpar
  · intro j hj hlt
    rw [joinNodes_length] at hlt
    rw [cnt_joinNodes_lt hi]
    obtain hlt | rfl := Nat.lt_succ_iff_lt_or_eq.mp hlt
    · rw [cnt_joinNodes_lt hlt]
      exact h.rising j hj hlt
    · have hfromx := h.right_le_of_free hbuild.inner hki hi (by omega) hx hxpar
      have hfromy := h.right_le_of_free hbuild.inner hki hi (by omega) hy hypar
      have hordered := h.ordered
      rw [nodeOf_joinNodes_length _ _ _ _ hx hy]
      simp only [innerNode, hcnt, hxkey, hykey]
      omega

end

theorem HeapOrdered.root_le_of_mem {H : List Entry} (h : HeapOrdered H) {e : Entry} (he : e ∈ H) :
    (entryAt H 0).key.toNat ≤ e.key.toNat := by
  obtain ⟨i, hi, rfl⟩ := List.getElem_of_mem he
  have hle := h.root_le i hi
  rwa [keyAt, keyAt, entryAt, entryAt, List.getD_eq_getElem _ _ hi] at hle

/-- Two extracts from an ordered queue give its two least entries. -/
theorem GreedyOk.mergeOnce_ok {k total : Nat} {nodes : List Node} {H : List Entry} (h : GreedyOk k total nodes H)
    (hk : k ≤ cfg.amax) (htotal : total ≤ 4294967295) (hmore : 1 < H.length) :
    GreedyOk k total (mergeOnce nodes H).1 (mergeOnce nodes H).2 := by
  have hfirst := pqExtract_perm H (List.length_pos_iff.mp (by omega))
  have hrest := h.ordered.pqExtract
  have hsecond := pqExtract_perm (pqExtract H).2 (List.length_pos_iff.mp (by rw [pqExtract_snd_length]; omega))
  have htwo := h.build.of_perm ((hsecond.cons _).trans hfirst).symm
  have hin : ∀ e ∈ (pqExtract H).2, (entryAt H 0).key.toNat ≤ e.key.toNat := fun e he =>
    h.ordered.root_le_of_mem (hfirst.mem_iff.mp (List.mem_cons_of_mem _ he))
  have hin' : ∀ e ∈ (pqExtract (pqExtract H).2).2, (entryAt (pqExtract H).2 0).key.toNat ≤ e.key.toNat := fun e he =>
    hrest.root_le_of_mem (hsecond.mem_iff.mp (List.mem_cons_of_mem _ he))
  have hxy := hin _ (hsecond.mem_iff.mp List.mem_cons_self)
  have hcnt : (BitVec.ofNat 32 ((entryAt H 0).key.toNat + (entryAt (pqExtract H).2 0).key.toNat)).toNat =
      (entryAt H 0).key.toNat + (entryAt (pqExtract H).2 0).key.toNat := by
    have hsum := htwo.sum
    simp only [List.map_cons, List.sum_cons] at hsum
    rw [BitVec.toNat_ofNat]
    omega
  refine ⟨h.build.mergeOnce_ok hk htotal hmore, ?_, fun i hki hi => ?_⟩
  · rw [mergeOnce, mergeNodes_eq]
    exact hrest.pqExtract.pqInsert _
  · rw [mergeOnce, mergeNodes_eq] at hi ⊢
    rw [joinNodes_length] at hi
    obtain hi | rfl := Nat.lt_succ_iff_lt_or_eq.mp hi
    · exact (h.joins i hki hi).joinNodes_old htwo hk hcnt hki hi
    · exact joinsLeast_new htwo hk hxy hin' _

theorem GreedyOk.mergeAll_ok {k total : Nat} (hk : k ≤ cfg.amax) (htotal : total ≤ 4294967295) (fuel : Nat)
    {nodes : List Node} {H : List Entry} (h : GreedyOk k total nodes H) :
    GreedyOk k total (mergeAll fuel nodes H).1 (mergeAll fuel nodes H).2 := by
  induction fuel generalizing nodes H with
  | zero => exact h
  | succ fuel ih =>
    rw [mergeAll]
    split
    · exact ih (h.mergeOnce_ok hk htotal ‹_›)
    · exact h

theorem heapOrdered_enqueueFrom (j : Nat) {H : List Entry} (h : HeapOrdered H) (nodes : List Node) :
    HeapOrdered (enqueueFrom j H nodes) := by
  induction nodes generalizing j H with
  | nil => exact h
  | cons nd rest ih => exact ih (j + 1) (h.pqInsert _)

/-- The whole build keeps the invariant. -/
theorem buildTree_greedyOk (counts : List Word) (h : counts.length ≤ cfg.amax) (hsum : countSum counts ≤ 4294967295)
    (hsome : counts.all (· == 0) = false) :
    GreedyOk (leavesFrom 0 counts).length (countSum counts) (buildTree counts).1 (buildTree counts).2 := by
  have hstart := (buildOk_leaves counts h hsome).of_perm (enqueueFrom_perm 0 [] (leavesFrom 0 counts)).symm
  refine GreedyOk.mergeAll_ok ((leavesFrom_length_le 0 counts).trans h) hsum _
    ⟨hstart, heapOrdered_enqueueFrom 0 (H := []) (heapOrdered_of_length_le_one (Nat.zero_le 1)) _, fun i hki hi => ?_⟩
  exact absurd hi (Nat.not_lt.mpr hki)

/-! ### `HUF.BLD` (R213, R214) -/

/-- The one entry that a build leaves is the root's, with the sum of all counts. -/
theorem buildTree_root (counts : List Word) (h : counts.length ≤ cfg.amax) (hsum : countSum counts ≤ 4294967295)
    (hsome : counts.all (· == 0) = false) :
    (buildTree counts).2 = [⟨BitVec.ofNat 32 (countSum counts), BitVec.ofNat 32 ((buildTree counts).1.length - 1)⟩] ∧
    (nodeOf (buildTree counts).1 ((buildTree counts).1.length - 1)).cnt.toNat = countSum counts := by
  obtain ⟨-, e, he, hroot⟩ := buildTree_ok counts h hsum hsome
  have hbuild := (buildTree_greedyOk counts h hsum hsome).build
  rw [he] at hbuild
  have hkey : e.key.toNat = countSum counts := by simpa using hbuild.sum
  obtain ⟨-, hcnt, -⟩ := hbuild.free e (by simp)
  rw [he, ← hroot, ← hkey, BitVec.ofNat_toNat, BitVec.ofNat_toNat, BitVec.setWidth_eq, BitVec.setWidth_eq]
  exact ⟨rfl, congrArg BitVec.toNat hcnt.symm⟩

section

variable {s : State} (halpha : s.alphabetOk) (hsum : countSum s.counts ≤ 4294967295)
  (hsymbols : s.countedSymbols ≠ [])
include halpha hsum hsymbols

theorem exec_hufBld (hf : s.fault = false) : exec .hufBld s = .next (s.installTree (buildTree s.counts)) :=
  exec_of_ok .hufBld s _ hf ((hufBuild_ok s _).mpr ⟨halpha, hsum, (counts_all_zero_iff s).mpr hsymbols, rfl⟩)

theorem arenaOk_build : ArenaOk (buildTree s.counts).1 s.countedSymbols.length := by
  obtain ⟨harena, -⟩ := buildTree_ok s.counts (by simpa using halpha.2) hsum ((counts_all_zero_iff s).mpr hsymbols)
  rwa [leavesFrom_counts, List.length_map] at harena

/-- The one entry that a build leaves is the root's, with the sum of all counts. -/
theorem build_queue :
    (buildTree s.counts).2 =
      [⟨BitVec.ofNat 32 (countSum s.counts), BitVec.ofNat 32 ((buildTree s.counts).1.length - 1)⟩] ∧
    (nodeOf (buildTree s.counts).1 ((buildTree s.counts).1.length - 1)).cnt.toNat = countSum s.counts :=
  buildTree_root s.counts (by simpa using halpha.2) hsum ((counts_all_zero_iff s).mpr hsymbols)

theorem build_joinsLeast {i : Nat} (hki : s.countedSymbols.length ≤ i) (hi : i < (buildTree s.counts).1.length) :
    JoinsLeast (buildTree s.counts).1 i := by
  have hgreedy := buildTree_greedyOk s.counts (by simpa using halpha.2) hsum ((counts_all_zero_iff s).mpr hsymbols)
  rw [leavesFrom_counts, List.length_map] at hgreedy
  exact hgreedy.joins i hki hi

end

/-- The leaves of a build have the counted symbols and their counts. -/
theorem map_label_take_build (s : State) :
    ((buildTree s.counts).1.take s.countedSymbols.length).map Node.label =
      s.countedSymbols.map fun c => (BitVec.ofNat 16 c, s.freqAt c) := by
  have hlabel := map_label_take_buildTree s.counts
  rwa [leavesFrom_counts, List.length_map, List.map_map] at hlabel

theorem map_sym_take_build {s : State} (halpha : s.alphabetOk) :
    ((buildTree s.counts).1.take s.countedSymbols.length).map (fun nd => nd.sym.toNat) = s.countedSymbols := by
  obtain ⟨-, hA⟩ := halpha
  rw [cfg_amax] at hA
  have hsyms := congrArg (List.map fun l => l.1.toNat) (map_label_take_build s)
  rw [List.map_map, List.map_map] at hsyms
  refine hsyms.trans (List.map_congr_left fun c hc => ?_) |>.trans (List.map_id _)
  have hlt := List.mem_range.mp (List.mem_filter.mp hc).1
  exact ptr_toNat c (by omega)

theorem map_cnt_take_build (s : State) :
    ((buildTree s.counts).1.take s.countedSymbols.length).map (fun nd => nd.cnt) =
      s.countedSymbols.map s.freqAt := by
  have hcnts := congrArg (List.map Prod.snd) (map_label_take_build s)
  rwa [List.map_map, List.map_map] at hcnts

/-- Settles O54: the queue gives the two least nodes at each merge, and the leaves keep their symbols and counts. -/
theorem hufBldBuildsATree : Obligations.HufBldBuildsATree := by
  refine ⟨fun counts => (buildTree counts).1, fun s hf halpha => ?_⟩
  intro counts total symbols nodes hsum hsymbols
  obtain ⟨hqueue, hroot⟩ := build_queue halpha hsum hsymbols
  refine ⟨?_, arenaOk_build halpha hsum hsymbols, map_sym_take_build halpha, map_cnt_take_build s, hroot,
    fun i hki hi => ?_⟩
  · have hexec := exec_hufBld halpha hsum hsymbols hf
    rwa [State.installTree, hqueue] at hexec
  · obtain ⟨hordered, hleast, hrising⟩ := build_joinsLeast halpha hsum hsymbols hki hi
    exact ⟨hordered, hleast, hrising⟩

end Sys2Proof.Machine
end

-- ==== Huffman encoder: the scan and the bits written (spec/44_huffman.md R225, spec/20_memory.md R80) ====
section

namespace Sys2Proof.Machine

open Sys2Proof

/-! ### Packed bits (spec/20_memory.md R80) -/

theorem packByte_getLsbD (bits : Bits) (k : Nat) {t : Nat} (h : t < 8) :
    (packByte bits k).getLsbD (7 - t) = bits.getD (8 * k + t) false := by
  rw [packByte, BitVec.getLsbD_ofNat, testBit_sum_bits (fun t => bits.getD (8 * k + t) false) h]
  simp [show 7 - t < 8 by omega]

/-- Within the packed bytes the bitstream holds the bits, then zeros. -/
theorem bitAt_of_packBits {t : State} {m : List Host.Cell} {bits : Bits} (hbs : t.bs = writeFrom 0 m 0 (packBits bits))
    {j : Nat} (hj : j < 8 * ((bits.length + 7) / 8)) : t.bitAt j = bits.getD j false := by
  have hbyte : j / 8 < (packBits bits).length := by rw [packBits_length]; omega
  rw [State.bitAt, State.bsAt, hbs, cellGet_writeFrom_lt _ _ _ _ hbyte, List.getD_eq_getElem _ _ hbyte]
  simp only [packBits, List.getElem_map, List.getElem_range]
  rw [packByte_getLsbD bits _ (Nat.mod_lt j (by decide)), Nat.div_add_mod]

/-! ### The checks of `HUF.ENC` (R225) -/

section

variable {s : State} {b : Bsel} (hcode : s.codev = true) (hok : s.markerOk) (hlen : s.lenOk b)
include hcode hok hlen

theorem hufEncode_of_scan_error {r : Raised} (hscan : scanFrom (codedTest s) 0 (s.source b) = some r) :
    hufEncode b s = .error r := by
  rw [hufEncode, if_neg (not_not_intro hcode), if_neg (not_not_intro hok), if_neg (not_not_intro hlen), hscan]

variable (hscan : scanFrom (codedTest s) 0 (s.source b) = none)
include hscan

theorem hufEncode_of_marker_uncoded (hmark : s.codeAt s.eob.toNat = none) :
    hufEncode b s = .error ⟨.unknownSymbol, s.lenNat b⟩ := by
  rw [hufEncode, if_neg (not_not_intro hcode), if_neg (not_not_intro hok), if_neg (not_not_intro hlen), hscan]
  exact if_pos hmark

theorem hufEncode_of_overflow (hmark : s.codeAt s.eob.toNat ≠ none)
    (hover : cfg.bmax < ((s.encodedBits (s.source b)).length + 7) / 8) :
    hufEncode b s = .error ⟨.capacity, 0⟩ := by
  rw [hufEncode, if_neg (not_not_intro hcode), if_neg (not_not_intro hok), if_neg (not_not_intro hlen), hscan]
  exact (if_neg hmark).trans (if_pos hover)

end

theorem codedTest_eq_none_iff (s : State) (i v : Nat) :
    codedTest s i v = none ↔ v < s.asize.toNat ∧ v ≠ s.eob.toNat ∧ s.codeAt v ≠ none := by
  rw [← and_assoc, ← markerTest_eq_none_iff s.asize.toNat s.eob.toNat i v, codedTest]
  cases markerTest s.asize.toNat s.eob.toNat i v with
  | some r => simp
  | none => by_cases hc : s.codeAt v = none <;> simp [hc]

/-! ### The bits of a stream -/

theorem encodedBits_eq_flatMap {s : State} {b : Bsel} {word : Nat → Bits}
    (hwords : ∀ v ∈ s.source b, s.codeAt v = some (word v)) (hmark : s.codeAt s.eob.toNat = some (word s.eob.toNat)) :
    s.encodedBits (s.source b) = (s.source b ++ [s.eob.toNat]).flatMap word := by
  rw [State.encodedBits, List.flatMap_append, List.flatMap_singleton, State.codeword, hmark, Option.getD_some]
  refine congrArg (· ++ _) (List.flatMap_congr fun v hv => ?_)
  rw [State.codeword, hwords v hv, Option.getD_some]

/-- Settles O56: the scan passes, and the bits are packed from the first byte on. -/
theorem hufEncWritesCodewords : Obligations.HufEncWritesCodewords := by
  intro s b word hf hcode hok hlen hfree hwords hmark bits bytes
  have hbits : s.encodedBits (s.source b) = bits := encodedBits_eq_flatMap hwords hmark
  have hpass : ∀ v ∈ s.source b, v < s.asize.toNat ∧ v ≠ s.eob.toNat ∧ s.codeAt v ≠ none := fun v hv =>
    ⟨(hfree v hv).1, (hfree v hv).2, by simp [hwords v hv]⟩
  have hmark' : s.codeAt s.eob.toNat ≠ none := by simp [hmark]
  refine ⟨fun hfit => ⟨writeFrom 0 s.bs 0 (packBits bits), ?_, fun j hj => bitAt_of_packBits rfl hj, fun k hk => ?_⟩,
    fun hover => ?_⟩
  · have hdone := exec_of_ok (.hufEnc b) s _ hf ((hufEncode_ok b s _).mpr
      ⟨hcode, hok, hlen, hpass, hmark', by rwa [hbits], rfl⟩)
    rwa [hbits, State.putBits, packBits_length] at hdone
  · exact cellGet_writeFrom_ge _ _ _ _ (by rwa [packBits_length])
  · have hscan := (scan_eq_none_iff_forall (codedTest s) _ (s.source b) (codedTest_eq_none_iff s)).mpr hpass
    exact exec_of_error (.hufEnc b) s _ hf (hufEncode_of_overflow hcode hok hlen hscan hmark' (by rwa [hbits]))

/-! ### The scan (R225, R254) -/

/-- Settles O57: the scan reports the first element that fails, by the first test it fails. -/
theorem hufEncScanReportsFirstFailure : Obligations.HufEncScanReportsFirstFailure := by
  intro s b j hf hcode hok hlen hpass refused
  have hbefore : ∀ i v, i < j → (s.source b)[i]? = some v → codedTest s (0 + i) v = none := by
    intro i v hi hv
    rw [source_getElem?] at hv
    split at hv
    · exact Option.some.inj hv ▸ (codedTest_eq_none_iff s _ _).mpr (hpass i hi)
    · cases hv
  constructor
  · intro hj
    have hfirst (kind : ErrorKind) (hbad : codedTest s (0 + j) (s.bufAt b j).toNat = some ⟨kind, j⟩) :
        exec (.hufEnc b) s = .next (s.raise (encode (.hufEnc b)) ⟨kind, j⟩) := by
      have hscan := scanFrom_eq_some_of_first (codedTest s) 0 j (s.source b) _ _
        (by rw [source_getElem?, if_pos hj]) hbad hbefore
      exact exec_of_error (.hufEnc b) s _ hf (hufEncode_of_scan_error hcode hok hlen hscan)
    refine ⟨fun hrange => hfirst .symbolRange ?_, fun heob => hfirst .duplicateMarker ?_,
      fun hrange heob hnone => hfirst .unknownSymbol ?_⟩
    · rw [codedTest, markerTest, if_pos hrange, Nat.zero_add]
    · rw [codedTest, markerTest, if_neg (heob.trans_lt hok.2).not_ge, if_pos heob, Nat.zero_add]
    · rw [codedTest, (markerTest_eq_none_iff _ _ _ _).mpr ⟨hrange, heob⟩, Nat.zero_add]
      exact if_pos hnone
  · rintro rfl hnone
    have hscan : scanFrom (codedTest s) 0 (s.source b) = none := by
      refine (scanFrom_eq_none_iff _ _ _).mpr fun i v hv => hbefore i v ?_ hv
      simpa using (List.getElem?_eq_some_iff.mp hv).1
    exact exec_of_error (.hufEnc b) s _ hf (hufEncode_of_marker_uncoded hcode hok hlen hscan hnone)

end Sys2Proof.Machine
end

-- ==== Huffman decoder: one codeword after the other (spec/44_huffman.md R230, R232) ====
section

namespace Sys2Proof.Machine

open Sys2Proof

/-! ### One bit (R230) -/

theorem stepDown_of_inner {nodes : List Node} {i : Nat} (h : (nodeOf nodes i).leaf = false) (bit : Bool) :
    stepDown nodes i bit = some (childOf nodes i bit) := if_neg (ne_true_of_eq_false h)

theorem stepDown_of_leaf {nodes : List Node} {i : Nat} (h : (nodeOf nodes i).leaf = true) (bit : Bool) :
    stepDown nodes i bit = if bit then none else some i := if_pos h

/-- What the decoder does at a leaf of the symbol `c`, the bits read up to `pos` (R230). -/
def emitSymbol (nodes : List Node) (root E c pos len : Nat) (rest : Bits) : Except Raised (List Nat × Nat) :=
  if c = E then .ok ([], pos)
  else if len = cfg.nmax then .error ⟨.capacity, 0⟩
  else (decodeFrom nodes root E pos pos root (len + 1) rest).map fun out => (c :: out.1, out.2)

section

variable {nodes : List Node} {i j : Nat} {bit : Bool} (hstep : stepDown nodes i bit = some j)
  (root E pos start len : Nat) (rest : Bits)
include hstep

theorem decodeFrom_to_inner (hleaf : (nodeOf nodes j).leaf = false) :
    decodeFrom nodes root E pos start i len (bit :: rest) = decodeFrom nodes root E (pos + 1) start j len rest := by
  rw [decodeFrom, hstep]
  exact if_pos (ne_true_of_eq_false hleaf)

theorem decodeFrom_to_leaf (hleaf : (nodeOf nodes j).leaf = true) :
    decodeFrom nodes root E pos start i len (bit :: rest) =
      emitSymbol nodes root E (nodeOf nodes j).sym.toNat (pos + 1) len rest := by
  rw [decodeFrom, hstep]
  refine (if_neg (not_not_intro hleaf)).trans ?_
  rw [emitSymbol]
  cases decodeFrom nodes root E (pos + 1) (pos + 1) root (len + 1) rest <;> rfl

end

theorem decodeFrom_of_no_step {nodes : List Node} {i : Nat} {bit : Bool} (hstep : stepDown nodes i bit = none)
    (root E pos start len : Nat) (rest : Bits) :
    decodeFrom nodes root E pos start i len (bit :: rest) = .error ⟨.unknownSymbol, start⟩ := by
  rw [decodeFrom, hstep]

/-! ### One codeword (R208, R215, R230) -/

/-- The decoder reads a path from an internal node to a leaf and is then at the leaf. -/
theorem decodeFrom_path {nodes : List Node} {i c : Nat} {p : Bits} (hinner : (nodeOf nodes i).leaf = false)
    (hp : LeadsTo nodes i p c) (root E pos start len : Nat) (rest : Bits) :
    decodeFrom nodes root E pos start i len (p ++ rest) = emitSymbol nodes root E c (pos + p.length) len rest := by
  induction p generalizing i pos with
  | nil => exact absurd hp (not_leadsTo_nil_of_inner hinner c)
  | cons bit p ih =>
    have hstep := stepDown_of_inner hinner bit
    rw [leadsTo_cons_of_inner hinner] at hp
    rw [List.cons_append, List.length_cons]
    cases hleaf : (nodeOf nodes (childOf nodes i bit)).leaf with
    | true =>
      obtain ⟨rfl, rfl⟩ := (leadsTo_of_leaf hleaf p c).mp hp
      exact decodeFrom_to_leaf hstep root E pos start len rest hleaf
    | false =>
      rw [decodeFrom_to_inner hstep _ _ _ _ _ _ hleaf, ih hleaf hp, Nat.add_assoc, Nat.add_comm 1]

/-- The decoder reads a codeword from the root and is then at its symbol's leaf. -/
theorem decodeFrom_codeword {nodes : List Node} {root c : Nat} {p : Bits} (hp : IsCodeword nodes root p c)
    (E pos start len : Nat) (rest : Bits) :
    decodeFrom nodes root E pos start root len (p ++ rest) = emitSymbol nodes root E c (pos + p.length) len rest := by
  cases hleaf : (nodeOf nodes root).leaf with
  | true =>
    obtain ⟨rfl, rfl⟩ := (isCodeword_of_leaf hleaf p c).mp hp
    exact decodeFrom_to_leaf (stepDown_of_leaf hleaf false) root E pos start len rest hleaf
  | false => exact decodeFrom_path hleaf ((isCodeword_of_inner hleaf p c).mp hp) root E pos start len rest

/-- Bits that end at an internal node are no codeword. -/
theorem decodeFrom_unfinished {nodes : List Node} {i j : Nat} {p : Bits} (hp : reach nodes i p = some j)
    (hj : (nodeOf nodes j).leaf = false) (root E pos start len : Nat) :
    decodeFrom nodes root E pos start i len p = .error ⟨.unknownSymbol, start⟩ := by
  induction p generalizing i pos with
  | nil => rfl
  | cons bit p ih =>
    have hinner := inner_of_reach_cons hp
    rw [reach_cons_of_inner hinner] at hp
    have hchild : (nodeOf nodes (childOf nodes i bit)).leaf = false := by
      cases p with
      | nil => exact Option.some.inj hp ▸ hj
      | cons bit' p => exact inner_of_reach_cons hp
    rw [decodeFrom_to_inner (stepDown_of_inner hinner bit) _ _ _ _ _ _ hchild, ih hp]

/-! ### A stream of codewords -/

/-- The decoder emits the symbols of codewords of symbols other than the marker, while they fit the buffer. -/
theorem decodeFrom_codewords {nodes : List Node} {root E : Nat} {words : List (Bits × Nat)}
    (hwords : ∀ w ∈ words, IsCodeword nodes root w.1 w.2 ∧ w.2 ≠ E) {len : Nat}
    (hfit : len + words.length ≤ cfg.nmax) (pos : Nat) (rest : Bits) :
    decodeFrom nodes root E pos pos root len (words.flatMap (fun w => w.1) ++ rest) =
      (decodeFrom nodes root E (pos + (words.flatMap fun w => w.1).length)
        (pos + (words.flatMap fun w => w.1).length) root (len + words.length) rest).map
        fun out => (words.map (fun w => w.2) ++ out.1, out.2) := by
  induction words generalizing pos len with
  | nil => exact (congrFun Except.map_id _).symm
  | cons w words ih =>
    obtain ⟨⟨hw, hne⟩, hwords⟩ := List.forall_mem_cons.mp hwords
    rw [List.length_cons] at hfit
    have hroom : len ≠ cfg.nmax := by omega
    rw [List.flatMap_cons, List.append_assoc, decodeFrom_codeword hw, emitSymbol, if_neg hne, if_neg hroom,
      ih hwords (by omega), List.length_append, List.length_cons, Nat.add_assoc pos, Nat.add_assoc len,
      Nat.add_comm 1]
    cases decodeFrom nodes root E _ _ root _ rest <;> rfl

/-! ### `HUF.DEC` (R230, R232) -/

/-- The decoder over the whole bitstream. -/
def State.decoded (s : State) : Except Raised (List Nat × Nat) :=
  decodeFrom s.node s.root.toNat s.eob.toNat 0 0 s.root.toNat 0 s.stream

section

variable {s : State} (b : Bsel) (hf : s.fault = false) (htree : s.treev = true) (hlen : s.bslen.toNat ≤ cfg.bmax)
include hf htree hlen

theorem exec_hufDec_of_ok {out : List Nat} {stop : Nat} (h : s.decoded = .ok (out, stop)) :
    exec (.hufDec b) s = .next { s.putSeq b out with res0 := BitVec.ofNat 32 stop } :=
  exec_of_ok (.hufDec b) s _ hf ((hufDecode_ok b s _).mpr ⟨htree, hlen, out, stop, h, rfl⟩)

theorem exec_hufDec_of_error {r : Raised} (h : s.decoded = .error r) :
    exec (.hufDec b) s = .next (s.raise (encode (.hufDec b)) r) := by
  rw [State.decoded] at h
  refine exec_of_error (.hufDec b) s r hf ?_
  rw [effect, hufDecode, if_neg (not_not_intro htree), if_neg hlen.not_gt, h]

end

/-- Settles O58: the decoder goes codeword by codeword, and what follows the last whole one decides. -/
theorem hufDecFollowsCodewords : Obligations.HufDecFollowsCodewords := by
  intro s b words p rest hf htree hlen hcount hwords bits refused
  have hrun (more : Bits) (hstream : s.stream = bits ++ more) :
      s.decoded = (decodeFrom s.node s.root.toNat s.eob.toNat bits.length bits.length s.root.toNat words.length
        more).map fun out => (words.map (fun w => w.2) ++ out.1, out.2) := by
    rw [State.decoded, hstream]
    have hall := decodeFrom_codewords hwords (len := 0) (by rwa [Nat.zero_add]) 0 more
    rwa [Nat.zero_add, Nat.zero_add] at hall
  have hrefused (more : Bits) (r : Raised) (hstream : s.stream = bits ++ more)
      (hr : decodeFrom s.node s.root.toNat s.eob.toNat bits.length bits.length s.root.toNat words.length more =
        .error r) : exec (.hufDec b) s = .next (s.raise (encode (.hufDec b)) r) :=
    exec_hufDec_of_error b hf htree hlen (by rw [hrun more hstream, hr]; rfl)
  refine ⟨fun hstream hp => ?_, fun hstream hend => ?_, fun hstream hleaf => ?_, fun c hstream hfull hc hp => ?_⟩
  · refine exec_hufDec_of_ok b hf htree hlen ?_
    rw [hrun (p ++ rest) (by rw [hstream, List.append_assoc]), decodeFrom_codeword hp, emitSymbol, if_pos rfl]
    exact congrArg (fun out => Except.ok (out, _)) (List.append_nil _)
  · refine hrefused p ⟨.unknownSymbol, bits.length⟩ hstream ?_
    obtain rfl | ⟨j, hj, hinner⟩ := hend
    · rfl
    · exact decodeFrom_unfinished hj hinner _ _ _ _ _
  · exact hrefused (true :: rest) ⟨.unknownSymbol, bits.length⟩ hstream
      (decodeFrom_of_no_step (stepDown_of_leaf hleaf true) _ _ _ _ _ _)
  · refine hrefused (p ++ rest) ⟨.capacity, 0⟩ (by rw [hstream, List.append_assoc]) ?_
    rw [decodeFrom_codeword hp, emitSymbol, if_neg hc]
    exact if_pos hfull

end Sys2Proof.Machine
end

-- ==== Huffman round trip: the five commands in a row (spec/44_huffman.md R233) ====
section

namespace Sys2Proof.Machine

open Sys2Proof

/-! ### The bitstream that `HUF.ENC` leaves (R225) -/

/-- Bits read on beyond their end are the bits and zeros. -/
theorem map_getD_range (bits : Bits) {n : Nat} (h : bits.length ≤ n) :
    (List.range n).map (fun j => bits.getD j false) = bits ++ List.replicate (n - bits.length) false := by
  refine List.ext_getElem (by simp; omega) fun j _ _ => ?_
  rw [List.getElem_map, List.getElem_range, List.getElem_append]
  split
  case isTrue hj => exact List.getD_eq_getElem _ _ hj
  case isFalse hj => rw [List.getD_eq_default _ _ (Nat.not_lt.mp hj), List.getElem_replicate]

theorem putBits_bslen_toNat (s : State) {bits : Bits} (hfit : (bits.length + 7) / 8 ≤ cfg.bmax) :
    (s.putBits bits).bslen.toNat = (bits.length + 7) / 8 := by
  rw [cfg_bmax] at hfit
  rw [State.putBits_bslen, packBits_length, BitVec.toNat_ofNat]
  omega

/-- The bitstream is the bits, padded with zeros to the end of the last byte. -/
theorem putBits_stream (s : State) {bits : Bits} (hfit : (bits.length + 7) / 8 ≤ cfg.bmax) :
    (s.putBits bits).stream =
      bits ++ List.replicate (8 * ((bits.length + 7) / 8) - bits.length) false := by
  rw [State.stream, putBits_bslen_toNat s hfit, ← map_getD_range bits (by omega)]
  exact List.map_congr_left fun j hj => bitAt_of_packBits (State.putBits_bs s bits) (List.mem_range.mp hj)

/-! ### Encoding and decoding with the code table of the tree in place -/

/-- What the last two commands of the round trip start from: the code table is the tree's and has a codeword for each
symbol of the stream and for the marker. -/
structure CodeReady (s : State) (b : Bsel) : Prop where
  noFault : s.fault = false
  tree : s.treev = true
  table : s.codev = true
  marker : s.markerOk
  length : s.lenNat b ≤ cfg.nmax
  free : MarkerFree s b
  codewords : ∀ c p, s.codeAt c = some p → IsCodeword s.node s.root.toNat p c
  coded : ∀ v ∈ s.source b ++ [s.eob.toNat], s.codeAt v ≠ none
  fits : ((s.encodedBits (s.source b)).length + 7) / 8 ≤ cfg.bmax

namespace CodeReady

variable {s : State} {b : Bsel} (h : CodeReady s b)
include h

theorem isCodeword_codeword {v : Nat} (hv : v ∈ s.source b ++ [s.eob.toNat]) :
    IsCodeword s.node s.root.toNat (s.codeword v) v := by
  obtain ⟨p, hp⟩ := Option.ne_none_iff_exists'.mp (h.coded v hv)
  rw [State.codeword, hp]
  exact h.codewords v p hp

theorem exec_hufEnc : exec (.hufEnc b) s = .next (s.putBits (s.encodedBits (s.source b))) := by
  have hpass : ∀ v ∈ s.source b, v < s.asize.toNat ∧ v ≠ s.eob.toNat ∧ s.codeAt v ≠ none := fun v hv =>
    ⟨(h.free v hv).1, (h.free v hv).2, h.coded v (List.mem_append_left _ hv)⟩
  exact exec_of_ok (.hufEnc b) s _ h.noFault ((hufEncode_ok b s _).mpr
    ⟨h.table, h.marker, h.length, hpass, h.coded _ (by simp), h.fits, rfl⟩)

/-- `HUF.DEC` on the bitstream that `HUF.ENC` leaves writes the stream, and reads as many bits as were written. -/
theorem exec_hufDec (d : Bsel) :
    exec (.hufDec d) (s.putBits (s.encodedBits (s.source b))) =
      .next { (s.putBits (s.encodedBits (s.source b))).putSeq d (s.source b) with
        res0 := BitVec.ofNat 32 (s.encodedBits (s.source b)).length } := by
  obtain ⟨words, hwords⟩ : ∃ words, words = (s.source b).map fun v => (s.codeword v, v) := ⟨_, rfl⟩
  have hbits : words.flatMap (fun w => w.1) ++ s.codeword s.eob.toNat = s.encodedBits (s.source b) := by
    rw [hwords, List.flatMap_map, State.encodedBits]
  have hsymbols : words.map (fun w => w.2) = s.source b := by
    rw [hwords, List.map_map]
    exact List.map_id _
  obtain ⟨hdone, -⟩ := hufDecFollowsCodewords (s.putBits (s.encodedBits (s.source b))) d words
    (s.codeword s.eob.toNat) _ h.noFault h.tree ((putBits_bslen_toNat s h.fits).trans_le h.fits)
    (by rw [hwords, List.length_map, source_length]; exact h.length) fun w hw => by
      obtain ⟨v, hv, rfl⟩ := List.mem_map.mp (hwords ▸ hw)
      exact ⟨h.isCodeword_codeword (List.mem_append_left _ hv), (h.free v hv).2⟩
  have hexec := hdone (by rw [hbits]; exact putBits_stream s h.fits) (h.isCodeword_codeword (by simp))
  rwa [← List.length_append, hbits, hsymbols] at hexec

/-- The other buffer then holds the stream. -/
theorem roundTrip (d : Bsel) :
    ∃ sent received, exec (.hufEnc b) s = .next sent ∧ exec (.hufDec d) sent = .next received ∧
      sent.fault = false ∧ received.fault = false ∧ received.source d = s.source b ∧ received.len d = s.len b ∧
      received.res0 = sent.res0 := by
  refine ⟨_, _, h.exec_hufEnc, h.exec_hufDec d, h.noFault, by simp [h.noFault], ?_, ?_, rfl⟩
  · refine (source_congr ((s.putBits _).putSeq d (s.source b)) _ d d rfl rfl).trans ?_
    exact putSeq_source _ d _ ((source_length s b).trans_le h.length) (source_lt s b)
  · exact (State.putSeq_len (s.putBits _) d (s.source b)).trans (by simp [State.lenNat])

end CodeReady

/-! ### Building the code table of a stream -/

/-- In a built arena every symbol that has a leaf has a codeword (R220). -/
theorem ArenaOk.exists_codeword_of_mem {nodes : List Node} {symbols : List Nat} (h : ArenaOk nodes symbols.length)
    (hsymbols : (nodes.take symbols.length).map (fun nd => nd.sym.toNat) = symbols) {v : Nat} (hv : v ∈ symbols) :
    ∃ p, IsCodeword nodes (nodes.length - 1) p v := by
  rw [← hsymbols] at hv
  obtain ⟨nd, hnd, rfl⟩ := List.mem_map.mp hv
  obtain ⟨j, hj, rfl⟩ := List.getElem_of_mem hnd
  rw [List.length_take, lt_min_iff] at hj
  obtain ⟨p, hp⟩ := h.exists_codeword hj.1
  rw [nodeOf, List.getD_eq_getElem _ _ hj.2] at hp
  exact ⟨p, by rwa [List.getElem_take]⟩

/-- The state after `HUF.BLD` (R213). -/
def State.built (s : State) : State := s.installTree (buildTree s.counts)

/-- The state after `HUF.BLD` and `HUF.TAB` (R213, R220). -/
def State.tabled (s : State) : State :=
  { s.built with code := codesOf s.built.node s.built.root.toNat, codev := true }

section

variable {s : State} (halpha : s.alphabetOk) (hsum : countSum s.counts ≤ 4294967295)
  (hsymbols : s.countedSymbols ≠ [])
include halpha hsum hsymbols

theorem built_root_toNat : s.built.root.toNat = s.built.node.length - 1 := by
  obtain ⟨hqueue, -⟩ := build_queue halpha hsum hsymbols
  have hlt := (arenaOk_build halpha hsum hsymbols).length_lt
  rw [State.built, State.installTree_root, State.installTree_node, hqueue]
  exact (BitVec.toNat_ofNat _ 32).trans (Nat.mod_eq_of_lt (by omega))

theorem tabled_codeAt (c : Nat) (p : Bits) :
    s.tabled.codeAt c = some p ↔ IsCodeword s.tabled.node s.tabled.root.toNat p c := by
  have harena := arenaOk_build halpha hsum hsymbols
  have hroot := built_root_toNat halpha hsum hsymbols
  have hpos := harena.length_pos
  exact harena.cellGet_codesOf (root := s.built.root.toNat) (by rw [hroot]; exact Nat.sub_one_lt_of_lt hpos) c p

theorem tabled_codeAt_ne_none {v : Nat} (hv : v ∈ s.countedSymbols) : s.tabled.codeAt v ≠ none := by
  obtain ⟨p, hp⟩ := (arenaOk_build halpha hsum hsymbols).exists_codeword_of_mem (map_sym_take_build halpha) hv
  have hroot : s.tabled.root.toNat = (buildTree s.counts).1.length - 1 := built_root_toNat halpha hsum hsymbols
  have hcode : s.tabled.codeAt v = some p :=
    (tabled_codeAt halpha hsum hsymbols v p).mpr (by rw [hroot]; exact hp)
  rw [hcode]
  exact Option.some_ne_none p

end

theorem countSum_withFreq (s : State) (F : Cells Word) :
    countSum ({ s with freq := F } : State).counts =
      ((List.range s.asize.toNat).map fun c => (cellGet 0 F c).toNat).sum := by
  rw [countSum, State.counts, List.map_map]
  rfl

theorem mem_countedSymbols_withFreq (s : State) (F : Cells Word) (c : Nat) :
    c ∈ ({ s with freq := F } : State).countedSymbols ↔ c < s.asize.toNat ∧ cellGet 0 F c ≠ 0 := by
  rw [State.countedSymbols, List.mem_filter, List.mem_range, decide_eq_true_iff]
  rfl

/-- Every symbol of the stream and the marker are counted. -/
theorem mem_countedSymbols_of_mem_marked {s : State} {b : Bsel} (hok : s.markerOk) (hlen : s.lenNat b ≤ cfg.nmax)
    (hfree : MarkerFree s b) {v : Nat} (hv : v ∈ s.source b ++ [s.eob.toNat]) :
    v ∈ ({ s with freq := s.countedFreq b } : State).countedSymbols := by
  have hlt := lt_asize_of_mem_marked hok hfree hv
  have hcount : (cellGet 0 (s.countedFreq b) v).toNat ≠ 0 := by
    rw [cellGet_countedFreq_eq_count hok hlen hfree hlt]
    exact (List.count_pos_iff.mpr hv).ne'
  exact (mem_countedSymbols_withFreq s _ v).mpr ⟨hlt, BitVec.toNat_ne.mpr hcount⟩

/-- Settles O59: every symbol of the stream and the marker are counted, so each has a leaf and a codeword, and the
decoder reads back the codewords written. -/
theorem hufRoundTrip : Obligations.HufRoundTrip := by
  intro s b hf hok hlen hfree
  obtain ⟨t, ht⟩ : ∃ t : State, t = { s with freq := s.countedFreq b } := ⟨_, rfl⟩
  have hsum : countSum t.counts ≤ 4294967295 := by
    rw [ht, countSum_withFreq, sum_countedFreq hok hlen hfree]
    omega
  have hcounted : ∀ v ∈ s.source b ++ [s.eob.toNat], v ∈ t.countedSymbols := fun v hv =>
    ht ▸ mem_countedSymbols_of_mem_marked hok hlen hfree hv
  have hsymbols : t.countedSymbols ≠ [] := List.ne_nil_of_mem (hcounted s.eob.toNat (by simp))
  have halpha : t.alphabetOk := ht ▸ hok.1
  have hft : t.fault = false := ht ▸ hf
  refine ⟨t, t.built, t.tabled, ht ▸ exec_hufCnt hf hok hlen hfree, exec_hufBld halpha hsum hsymbols hft,
    exec_hufTab hft rfl, hft, fun hfit => ?_⟩
  have hsource : t.tabled.source b = s.source b := source_congr s _ b b (by rw [ht]; rfl) (by rw [ht]; rfl)
  have hlength : t.tabled.len b = s.len b := by rw [ht]; rfl
  have hasize : t.tabled.asize = s.asize := by rw [ht]; rfl
  have heob : t.tabled.eob = s.eob := by rw [ht]; rfl
  rw [← hsource] at hfit hcounted ⊢
  rw [← hlength]
  refine CodeReady.roundTrip ?_ (otherBuf b)
  exact
    { noFault := hft
      tree := rfl
      table := rfl
      marker := by rwa [State.markerOk, State.alphabetOk, hasize, heob]
      length := by rwa [State.lenNat, hlength]
      free := by rwa [MarkerFree, hsource, hasize, heob]
      codewords := fun c p => (tabled_codeAt halpha hsum hsymbols c p).mp
      coded := fun v hv => tabled_codeAt_ne_none halpha hsum hsymbols (hcounted v (heob ▸ hv))
      fits := by rw [cfg_bmax]; omega }

end Sys2Proof.Machine
end

-- ==== Faults: sticky, precise, and the errors of each row (spec/60_exceptions.md R250 to R256) ====
section

namespace Sys2Proof.Machine

open Sys2Proof

/-! ### The record stays (R256) -/

theorem exec_ignored (i : Instr) (s : State) (h : s.fault = true) : exec i s = .next s := by
  rw [exec_eq_command, command_ignored i _ s h]

/-- Under a fault only the soft reset touches the flag or the record: a command is ignored, a read and a store leave
them alone. -/
theorem transact_keeps_record (s t : State) (x : Transaction) (hf : s.fault = true) (h : transact x s = .next t) :
    (t.fault = true ∧ t.err = s.err ∧ t.errinfo = s.errinfo ∧ t.errcmd = s.errcmd) ∨
    ∃ v, x = .write 0x00001#32 v ∧ v.getLsbD 0 = true := by
  obtain ⟨a, -, hx⟩ | ⟨a, w, -, -, hx⟩ | ⟨a, v, rfl, hl, hx⟩ | ⟨a, v, -, -, -, hx⟩ := transact_cases x s <;>
    rw [hx] at h
  · exact .inl (Host.Outcome.next.inj h ▸ ⟨hf, rfl, rfl, rfl⟩)
  · rw [issueCommand_ignored w hf] at h
    exact .inl (Host.Outcome.next.inj h ▸ ⟨hf, rfl, rfl, rfl⟩)
  · obtain rfl := Host.Outcome.next.inj h
    cases hv : v.getLsbD 0 with
    | true => exact .inr ⟨v, by rw [(locate_eq_reg_iff a .ctrl).mp hl]; rfl, hv⟩
    | false => exact .inl (by rw [State.writeCtrl, if_neg (ne_true_of_eq_false hv)]; exact ⟨hf, rfl, rfl, rfl⟩)
  · obtain rfl := Host.Outcome.next.inj h
    rw [State.store_eq]
    exact .inl ⟨hf, rfl, rfl, rfl⟩

/-- Settles O17: a command and a write of `CMD` are ignored, and no other transaction but the soft reset touches the
record. -/
theorem faultIsSticky : Obligations.FaultIsSticky :=
  ⟨exec_ignored, fun s w hf => (transact_write_cmd w s).trans (issueCommand_ignored w hf), transact_keeps_record⟩

/-! ### A fault writes the record and nothing else (R250) -/

/-- A command that leaves a fault in a state without one raised it: a completed command does not touch the flag. -/
theorem exec_faulted (i : Instr) (s t : State) (hf : s.fault = false) (h : exec i s = .next t)
    (ht : t.fault = true) : ∃ r, effect i s = .error r ∧ t = s.raise (encode i) r := by
  obtain ⟨hs, -⟩ | ⟨-, he⟩ | ⟨-, hraised⟩ := exec_cases i s t h
  · exact absurd (hf.symm.trans hs) Bool.false_ne_true
  · have hkept := (effect_completed i s t he).record_eq.1
    exact absurd ((hf.symm.trans hkept.symm).trans ht) Bool.false_ne_true
  · exact hraised

/-- Settles O18: the fault is the command's own, or an illegal word's. -/
theorem faultIsPrecise : Obligations.FaultIsPrecise := by
  refine ⟨fun i s t hf h ht => ?_, fun s t w hf h ht => ?_⟩
  · obtain ⟨r, -, rfl⟩ := exec_faulted i s t hf h ht
    exact ⟨r, rfl⟩
  · rw [transact_write_cmd] at h
    cases hdec : decode w with
    | error e =>
      rw [issueCommand_illegal hf hdec] at h
      exact ⟨⟨.illegalCommand, 0⟩, (Host.Outcome.next.inj h).symm⟩
    | ok i =>
      rw [issueCommand_legal s hdec] at h
      obtain ⟨r, -, rfl⟩ := exec_faulted i s t hf h ht
      exact ⟨r, by rw [← (decode_eq_ok_iff w i).mp hdec, State.raise]⟩

/-! ### Each error of a row is raised in some state (R253) -/

/-- A usable configuration with both validity flags set, and every sequence empty. -/
def legalState : State :=
  { State.reset with asize := 2, eob := 1, dig1 := 7, dig2 := 8, treev := true, codev := true }

/-- A state in which every command that can raise the error raises it: no valid tree and table for `SequenceError`,
no usable configuration, everything too long or too full, an element out of range or of the wrong kind, the marker,
and everything empty for the rest. -/
def faultWitness (k : ErrorKind) : State :=
  match k with
  | .sequence => State.reset
  | .config => { State.reset with codev := true }
  | .capacity =>
    { legalState with
      len0 := 4097, len1 := 4097, bslen := 16385, freq := [(0, 0xFFFFFFFF), (1, 1)],
      heap := List.replicate 512 Entry.zero }
  | .symbolRange => (legalState.putSeq .b0 [7, 0]).putSeq .b1 [7, 0]
  | .duplicateMarker => (legalState.putSeq .b0 [1]).putSeq .b1 [1]
  | .emptyQueue | .invalidRunLength | .unknownSymbol | .illegalCommand | .invalidTransform => legalState

theorem faultWitness_fault (k : ErrorKind) : (faultWitness k).fault = false := by cases k <;> rfl

/-- The error a command raises in a state without a recorded fault. -/
def raisedKind (i : Instr) (s : State) : Option ErrorKind :=
  match effect i s with
  | .ok _ => none
  | .error r => some r.kind

theorem exists_of_raisedKind {i : Instr} {s : State} {k : ErrorKind} (h : raisedKind i s = some k) :
    ∃ r, effect i s = .error r ∧ r.kind = k := by
  unfold raisedKind at h
  split at h
  · cases h
  · exact ⟨_, ‹_›, Option.some.inj h⟩

/-- Each command, run in the state of each error of its row, raises it. -/
theorem raisedKind_faultWitness (i : Instr) : ∀ k ∈ canRaise i, raisedKind i (faultWitness k) = some k := by
  cases i with
  | pqIns =>
    have hfull : ¬ (faultWitness .capacity).heap.length < cfg.heapmax :=
      Nat.not_lt.mpr (Nat.le_of_eq List.length_replicate.symm)
    intro k hk
    obtain rfl := List.mem_singleton.mp hk
    rw [raisedKind, effect, pqInsertArgs, if_pos hfull]
  | pqClr | pqExt | hufBld | hufTab => decide
  | _ b => cases b <;> decide

/-- Settles O19: no error outside the row, and for each of the row the state above. -/
theorem commandsRaiseExactlyTheirErrors : Obligations.CommandsRaiseExactlyTheirErrors := by
  refine ⟨fun i s t hf h ht => ?_, fun i k hk => ?_⟩
  · obtain ⟨r, he, rfl⟩ := exec_faulted i s t hf h ht
    exact ⟨r.kind, effect_raisesIn i s r he, rfl⟩
  · obtain ⟨r, he, rfl⟩ := exists_of_raisedKind (raisedKind_faultWitness i k hk)
    have hf := faultWitness_fault r.kind
    exact ⟨_, _, hf, exec_of_error i _ r hf he, rfl, rfl⟩

end Sys2Proof.Machine
end

-- ==== Checks: which check of a command its fault names (spec/60_exceptions.md R254, R257 to R259) ====
section

namespace Sys2Proof.Machine

open Sys2Proof

/-! ### A command's fault and the check that raised it -/

/-- The command leaves the record of the error `r` (spec/60_exceptions.md R250). -/
def Faults (i : Instr) (s : State) (r : Raised) : Prop := exec i s = .next (s.raise (encode i) r)

/-- Different errors have different codes (spec/60_exceptions.md R251). -/
theorem ErrorKind.code_injective : Function.Injective ErrorKind.code :=
  Function.LeftInverse.injective (g := fun w => ErrorKind.ofNat (w.toNat - 1)) fun k => by cases k <;> rfl

section

variable {i : Instr} {s : State} {r : Raised} (hf : s.fault = false)
include hf

theorem faults_of_effect (h : effect i s = .error r) : Faults i s r := exec_of_error i s r hf h

/-- The record in `ERR` names the kind of what was raised. -/
theorem Faults.effect_kind (h : Faults i s r) : ∃ r', effect i s = .error r' ∧ r'.kind = r.kind := by
  obtain ⟨r', he, hr⟩ := exec_faulted i s _ hf h rfl
  exact ⟨r', he, ErrorKind.code_injective (congrArg State.err hr).symm⟩

theorem not_faults_of_raisesIn {kinds : List ErrorKind} (h : RaisesIn kinds (effect i s)) (hr : r.kind ∉ kinds) :
    ¬ Faults i s r := fun hfaults => by
  obtain ⟨r', he, hkind⟩ := hfaults.effect_kind hf
  exact hr (hkind ▸ h r' he)

/-- A command gives the error of one of its checks exactly when the check fails, if nothing behind it raises an error
of that kind. -/
theorem faults_iff_of_check {p : Prop} [Decidable p] {kinds : List ErrorKind} {x : Except Raised State}
    (h : effect i s = if ¬ p then .error r else x) (hx : RaisesIn kinds x) (hr : r.kind ∉ kinds) :
    Faults i s r ↔ ¬ p := by
  refine ⟨fun hfaults hp => ?_, fun hp => faults_of_effect hf (h.trans (if_pos hp))⟩
  rw [if_neg (not_not_intro hp)] at h
  exact not_faults_of_raisesIn hf (h ▸ hx) hr hfaults

end

/-! ### `ConfigError` (R257) -/

/-- With a valid code table `HUF.ENC` looks at the configuration first, and at its flag no more. -/
theorem effect_hufEnc_config_check {s : State} (b : Bsel) (hcode : s.codev = true) :
    ∃ x, effect (.hufEnc b) s = (if ¬ s.markerOk then .error ⟨.config, 0⟩ else x) ∧
      RaisesIn [.capacity, .symbolRange, .duplicateMarker, .unknownSymbol] x :=
  ⟨_, if_neg (not_not_intro hcode), raisesIn_check (by simp) (raisesIn_scan
    (fun _ _ _ h => by simpa using .inr (codedTest_kind _ _ _ _ h))
    (raisesIn_check (by simp) (raisesIn_check (by simp) (raisesIn_ok _))))⟩

theorem effect_hufEnc_of_no_table {s : State} (b : Bsel) (hcode : s.codev = false) :
    effect (.hufEnc b) s = .error ⟨.sequence, 0⟩ := if_pos (by simp [hcode])

section

variable {s : State} (b : Bsel) (hf : s.fault = false)
include hf

theorem faults_bwtEnc_config_iff : Faults (.bwtEnc b) s ⟨.config, 0⟩ ↔ ¬ s.bwtOk :=
  faults_iff_of_check (kinds := [.capacity, .symbolRange, .duplicateMarker]) hf rfl
    (raisesIn_check (by simp) (raisesIn_check (by simp) (raisesIn_scan
      (fun _ _ _ h => by simpa using .inr (markerTest_kind _ _ _ _ _ h)) (raisesIn_ok _)))) (by decide)

theorem faults_bwtDec_config_iff : Faults (.bwtDec b) s ⟨.config, 0⟩ ↔ ¬ s.bwtOk := by
  refine faults_iff_of_check (kinds := [.capacity, .invalidTransform, .symbolRange]) hf rfl
    (raisesIn_check (by simp) (raisesIn_check (by simp) (raisesIn_scan
      (fun _ _ _ h => by simp [rangeTest_kind _ _ _ _ h]) (raisesIn_check (by simp) ?_)))) (by decide)
  split
  · exact raisesIn_error (by simp)
  · exact raisesIn_ok _

/-- The two commands of the Rank List share their checks. -/
theorem faults_mtf_config_iff {f : List Nat → List Nat → List Nat} {i : Instr} (hi : effect i s = mtfCommand f b s) :
    Faults i s ⟨.config, 0⟩ ↔ ¬ s.alphabetOk :=
  faults_iff_of_check (kinds := [.capacity, .symbolRange]) hf hi
    (raisesIn_check (by simp) (raisesIn_scan (fun _ _ _ h => by simp [rangeTest_kind _ _ _ _ h]) (raisesIn_ok _)))
    (by decide)

theorem faults_zrlEnc_config_iff : Faults (.zrlEnc b) s ⟨.config, 0⟩ ↔ ¬ s.digitsOk :=
  faults_iff_of_check (kinds := [.capacity, .symbolRange]) hf rfl
    (raisesIn_check (by simp) (raisesIn_scan
      (fun _ _ _ h => by simp [reservedTest_kind _ _ _ _ _ h]) (raisesIn_ok _))) (by decide)

theorem faults_zrlDec_config_iff : Faults (.zrlDec b) s ⟨.config, 0⟩ ↔ ¬ s.digitsOk := by
  refine faults_iff_of_check (kinds := [.capacity, .symbolRange]) hf rfl (raisesIn_check (by simp) ?_) (by decide)
  split
  · exact raisesIn_error (expandFrom_raisesIn _ _ _ _ _ _ _ ‹_›)
  · exact raisesIn_ok _

theorem faults_bijEnc_config_iff : Faults (.bijEnc b) s ⟨.config, 0⟩ ↔ ¬ s.digitsOk :=
  faults_iff_of_check (kinds := [.invalidRunLength]) hf rfl (raisesIn_check (by simp) (raisesIn_ok _)) (by decide)

theorem faults_bijDec_config_iff : Faults (.bijDec b) s ⟨.config, 0⟩ ↔ ¬ s.digitsOk :=
  faults_iff_of_check (kinds := [.capacity, .invalidRunLength, .symbolRange]) hf rfl
    (raisesIn_check (by simp) (raisesIn_check (by simp) (raisesIn_scan
      (fun _ _ _ h => by simp [digitTest_kind _ _ _ _ _ h]) (raisesIn_check (by simp) (raisesIn_ok _))))) (by decide)

theorem faults_hufCnt_config_iff : Faults (.hufCnt b) s ⟨.config, 0⟩ ↔ ¬ s.markerOk :=
  faults_iff_of_check (kinds := [.capacity, .symbolRange, .duplicateMarker]) hf rfl
    (raisesIn_check (by simp) (raisesIn_scan
      (fun _ _ _ h => by simpa using .inr (markerTest_kind _ _ _ _ _ h)) (raisesIn_ok _))) (by decide)

theorem faults_hufBld_config_iff : Faults .hufBld s ⟨.config, 0⟩ ↔ ¬ s.alphabetOk :=
  faults_iff_of_check (kinds := [.capacity, .emptyQueue]) hf rfl
    (raisesIn_check (by simp) (raisesIn_check (by simp) (raisesIn_ok _))) (by decide)

theorem faults_hufEnc_config_iff : Faults (.hufEnc b) s ⟨.config, 0⟩ ↔ s.codev = true ∧ ¬ s.markerOk := by
  cases hcode : s.codev with
  | false =>
    have hraises : RaisesIn [.sequence] (effect (.hufEnc b) s) :=
      effect_hufEnc_of_no_table b hcode ▸ raisesIn_error (by simp)
    exact iff_of_false (not_faults_of_raisesIn hf hraises (by decide)) (by simp)
  | true =>
    obtain ⟨x, hx, hraises⟩ := effect_hufEnc_config_check b hcode
    exact (faults_iff_of_check hf hx hraises (by decide)).trans (and_iff_right rfl).symm

/-! ### `SequenceError` (R259) -/

theorem faults_hufEnc_sequence_iff : Faults (.hufEnc b) s ⟨.sequence, 0⟩ ↔ s.codev = false := by
  refine ⟨fun hfaults => Bool.eq_false_iff.mpr fun hcode => ?_,
    fun hcode => faults_of_effect hf (effect_hufEnc_of_no_table b hcode)⟩
  obtain ⟨x, hx, hraises⟩ := effect_hufEnc_config_check b hcode
  refine not_faults_of_raisesIn (kinds := [.config, .capacity, .symbolRange, .duplicateMarker, .unknownSymbol]) hf ?_
    (by decide) hfaults
  rw [hx]
  exact raisesIn_check (by simp) (hraises.mono (by simp))

theorem faults_hufTab_sequence_iff : Faults .hufTab s ⟨.sequence, 0⟩ ↔ s.treev = false :=
  (faults_iff_of_check (kinds := []) hf rfl (raisesIn_ok _) (by decide)).trans Bool.eq_false_iff.symm

theorem faults_hufDec_sequence_iff : Faults (.hufDec b) s ⟨.sequence, 0⟩ ↔ s.treev = false := by
  refine (faults_iff_of_check (kinds := [.unknownSymbol, .capacity]) hf rfl
    (raisesIn_check (by simp) ?_) (by decide)).trans Bool.eq_false_iff.symm
  split
  · exact raisesIn_error (decodeFrom_raisesIn _ _ _ _ _ _ _ _ _ ‹_›)
  · exact raisesIn_ok _

/-- A command whose row lacks the error does not give it (R253). -/
theorem not_faults_of_not_mem {i : Instr} {r : Raised} (hr : r.kind ∉ canRaise i) : ¬ Faults i s r :=
  not_faults_of_raisesIn hf (effect_raisesIn i s) hr

end

/-- Settles O20: each command's first check, or its second in `HUF.ENC`, and no `ConfigError` in the other rows. -/
theorem unusableConfigurationFaults : Obligations.UnusableConfigurationFaults := by
  intro s hf refused alphabet marker digits
  have never (i : Instr) (hi : .config ∉ canRaise i) : ¬ refused i :=
    not_faults_of_not_mem (r := ⟨.config, 0⟩) hf hi
  exact ⟨fun b => ⟨faults_bwtEnc_config_iff b hf, faults_bwtDec_config_iff b hf, faults_mtf_config_iff b hf rfl,
    faults_mtf_config_iff b hf rfl, faults_zrlEnc_config_iff b hf, faults_zrlDec_config_iff b hf,
    faults_bijEnc_config_iff b hf, faults_bijDec_config_iff b hf, faults_hufCnt_config_iff b hf,
    faults_hufEnc_config_iff b hf, never (.hufDec b) (by simp [canRaise])⟩, faults_hufBld_config_iff hf,
    never .pqClr (by decide), never .pqIns (by decide), never .pqExt (by decide), never .hufTab (by decide)⟩

/-- Settles O21: each command's first check. -/
theorem missingTreeOrTableFaults : Obligations.MissingTreeOrTableFaults := by
  intro s hf refused
  exact ⟨faults_hufTab_sequence_iff hf,
    fun b => ⟨faults_hufDec_sequence_iff b hf, faults_hufEnc_sequence_iff b hf⟩⟩

/-! ### Lengths and counts (R258, spec/44_huffman.md R213) -/

section

variable {p : Prop} [Decidable p] {r : Raised} {x y : Except Raised State}

/-- A check that passes leaves what follows it. -/
theorem check_passed (hp : p) (h : x = y) : (if ¬ p then .error r else x) = y := (if_neg (not_not_intro hp)).trans h

/-- A check that fails decides. -/
theorem check_failed (hp : ¬ p) : (if ¬ p then .error r else x) = .error r := if_pos hp

end

section

variable {s : State} {b : Bsel}

/-- `BWT.ENC` needs room for the marker too (spec/40_bwt.md R120). -/
theorem bwtEncode_of_long (hok : s.bwtOk) (hlen : 4096 ≤ s.lenNat b) : bwtEncode b s = .error ⟨.capacity, 0⟩ := by
  refine check_passed hok ?_
  split
  · rfl
  · exact check_failed (Nat.not_le.mpr (Nat.lt_succ_of_le hlen))

theorem countSum_counts (s : State) :
    countSum s.counts = ((List.range s.asize.toNat).map fun c => (s.freqAt c).toNat).sum :=
  countSum_withFreq s s.freq

theorem hufBuild_of_large_counts (hok : s.alphabetOk)
    (hsum : 4294967295 < ((List.range s.asize.toNat).map fun c => (s.freqAt c).toNat).sum) :
    hufBuild s = .error ⟨.capacity, 0⟩ :=
  check_passed hok (if_pos (hsum.trans_eq (countSum_counts s).symm))

theorem hufBuild_of_zero_counts (hok : s.alphabetOk) (hzero : ∀ c < s.asize.toNat, s.freqAt c = 0) :
    hufBuild s = .error ⟨.emptyQueue, 0⟩ := by
  have hcounts : ∀ f ∈ s.counts, f = 0 := by simpa [State.counts] using hzero
  have hsum : countSum s.counts = 0 := 
    List.sum_eq_zero (List.forall_mem_map.mpr fun f hf => congrArg BitVec.toNat (hcounts f hf))
  refine check_passed hok ((if_neg (by simp [hsum])).trans (if_pos ?_))
  simpa using hcounts

end

/-- Settles O22: the checks before pass, and the one on the length, the size or the counts fails. -/
theorem lengthAndCountChecksFault : Obligations.LengthAndCountChecksFault := by
  intro s hf refused
  have capacity {i : Instr} (h : effect i s = .error ⟨.capacity, 0⟩) : refused i 8 := exec_of_error i s _ hf h
  refine ⟨fun b => ⟨fun hok hlen => ?_, fun hlen => ?_, fun htree hlen => ?_⟩, fun hfull => ?_,
    fun hok => ⟨fun hsum => ?_, fun hzero => ?_⟩⟩
  · exact capacity (bwtEncode_of_long hok hlen)
  · have hlong : ¬ s.lenOk b := Nat.not_le.mpr hlen
    exact ⟨fun hok => capacity (check_passed hok (check_failed hlong)),
      fun hok => ⟨capacity (check_passed hok (check_failed hlong)),
        capacity (check_passed hok (check_failed hlong))⟩,
      fun hok => ⟨capacity (check_passed hok (check_failed hlong)),
        capacity (check_passed hok (check_failed hlong)), capacity (check_passed hok (check_failed hlong))⟩,
      fun hok => ⟨capacity (check_passed hok (check_failed hlong)),
        fun hcode => capacity (check_passed hcode (check_passed hok (check_failed hlong)))⟩⟩
  · exact capacity (check_passed htree (if_pos hlen))
  · exact capacity (check_failed (Nat.not_lt.mpr hfull))
  · exact capacity (hufBuild_of_large_counts hok hsum)
  · exact exec_of_error .hufBld s _ hf (hufBuild_of_zero_counts hok hzero)

end Sys2Proof.Machine
end

-- ==== Scans: a scan names the first element that fails (spec/60_exceptions.md R252, R254) ====
section

namespace Sys2Proof.Machine

open Sys2Proof

/-! ### A scan of a buffer -/

/-- The scan of a buffer's sequence raises what the first failing element's test raises. -/
theorem scan_source_of_first {test : Nat → Nat → Option Raised} {s : State} {b : Bsel} {j : Nat} {r : Raised}
    (hj : j < s.lenNat b) (hbefore : ∀ i < j, test i (s.bufAt b i).toNat = none)
    (hbad : test j (s.bufAt b j).toNat = some r) : scanFrom test 0 (s.source b) = some r := by
  refine scanFrom_eq_some_of_first test 0 j (s.source b) _ r (by rw [source_getElem?, if_pos hj])
    (by rwa [Nat.zero_add]) fun i v hi hv => ?_
  rw [source_getElem?, if_pos (hi.trans hj)] at hv
  rw [Nat.zero_add, ← Option.some.inj hv]
  exact hbefore i hi

/-! ### What each command does with its scan's error -/

section

variable {s : State} {b : Bsel} {r : Raised}

theorem bwtEncode_of_scan_error (hok : s.bwtOk) (hlen : s.lenNat b + 1 ≤ cfg.nmax)
    (hscan : scanFrom (markerTest s.asize.toNat s.eob.toNat) 0 (s.source b) = some r) : bwtEncode b s = .error r := by
  refine check_passed hok (check_passed ((Nat.le_succ _).trans hlen) (check_passed hlen ?_))
  rw [hscan]

theorem bwtDecode_of_scan_error (hok : s.bwtOk) (hlen : s.lenOk b) (hrow : 1 ≤ s.lenNat b ∧ s.mpos.toNat < s.lenNat b)
    (hscan : scanFrom (rangeTest s.asize.toNat) 0 (s.source b) = some r) : bwtDecode b s = .error r := by
  refine check_passed hok (check_passed hlen (check_passed hrow ?_))
  rw [hscan]

theorem mtfCommand_of_scan_error (f : List Nat → List Nat → List Nat) (hok : s.alphabetOk) (hlen : s.lenOk b)
    (hscan : scanFrom (rangeTest s.asize.toNat) 0 (s.source b) = some r) : mtfCommand f b s = .error r := by
  refine check_passed hok (check_passed hlen ?_)
  rw [hscan]

theorem zrlEncode_of_scan_error (hok : s.digitsOk) (hlen : s.lenOk b)
    (hscan : scanFrom (reservedTest s.dig1.toNat s.dig2.toNat) 0 (s.source b) = some r) : zrlEncode b s = .error r := by
  refine check_passed hok (check_passed hlen ?_)
  rw [hscan]

theorem bijDecode_of_scan_error (hok : s.digitsOk) (hlen : s.lenOk b) (hsome : s.lenNat b ≠ 0)
    (hscan : scanFrom (digitTest s.dig1.toNat s.dig2.toNat) 0 (s.source b) = some r) : bijDecode b s = .error r := by
  refine check_passed hok (check_passed hlen ((if_neg hsome).trans ?_))
  rw [hscan]

theorem hufCount_of_scan_error (hok : s.markerOk) (hlen : s.lenOk b)
    (hscan : scanFrom (markerTest s.asize.toNat s.eob.toNat) 0 (s.source b) = some r) : hufCount b s = .error r := by
  refine check_passed hok (check_passed hlen ?_)
  rw [hscan]

end

/-! ### The tests on the element that fails -/

theorem rangeTest_of_le {A v : Nat} (i : Nat) (h : A ≤ v) : rangeTest A i v = some ⟨.symbolRange, i⟩ := if_pos h

theorem markerTest_of_le {A v : Nat} (E i : Nat) (h : A ≤ v) : markerTest A E i v = some ⟨.symbolRange, i⟩ := if_pos h

theorem markerTest_of_eq {A E v : Nat} (i : Nat) (h : v < A) (hv : v = E) :
    markerTest A E i v = some ⟨.duplicateMarker, i⟩ := (if_neg (Nat.not_le.mpr h)).trans (if_pos hv)

theorem reservedTest_of_digit {d1 d2 v : Nat} (i : Nat) (h : v = d1 ∨ v = d2) :
    reservedTest d1 d2 i v = some ⟨.symbolRange, i⟩ := if_pos ((isDigit_iff d1 d2 v).mpr h)

theorem digitTest_of_not_digit {d1 d2 v : Nat} (i : Nat) (h : ¬ (v = d1 ∨ v = d2)) :
    digitTest d1 d2 i v = some ⟨.symbolRange, i⟩ := if_neg (mt (isDigit_iff d1 d2 v).mp h)

/-! ### The statements -/

/-- Settles O23: the scan stops at element `j`, which fails the range test, or passes it and is the marker. -/
theorem markerScanReportsFirstFailure : Obligations.MarkerScanReportsFirstFailure := by
  intro s b j hf hj hpass refused
  have hscan {r : Raised} (hbad : markerTest s.asize.toNat s.eob.toNat j (s.bufAt b j).toNat = some r) :
      scanFrom (markerTest s.asize.toNat s.eob.toNat) 0 (s.source b) = some r :=
    scan_source_of_first hj (fun i hi => (markerTest_eq_none_iff _ _ _ _).mpr (hpass i hi)) hbad
  constructor
  · intro hrange
    have hbad := hscan (markerTest_of_le _ j hrange)
    exact ⟨fun hok hlen => exec_of_error (.bwtEnc b) s _ hf (bwtEncode_of_scan_error hok hlen hbad),
      fun hok hlen => exec_of_error (.hufCnt b) s _ hf (hufCount_of_scan_error hok hlen hbad)⟩
  · intro heob
    have hbad (hok : s.markerOk) := hscan (markerTest_of_eq j (heob.trans_lt hok.2) heob)
    exact ⟨fun hok hlen => exec_of_error (.bwtEnc b) s _ hf (bwtEncode_of_scan_error hok hlen (hbad hok.1)),
      fun hok hlen => exec_of_error (.hufCnt b) s _ hf (hufCount_of_scan_error hok hlen (hbad hok))⟩

/-- Settles O24: the three kinds of scan stop at element `j`, which fails the test that the elements before it pass. -/
theorem rangeScanReportsFirstFailure : Obligations.RangeScanReportsFirstFailure := by
  intro s b j hf hj hlen refused isDig
  have raises {i : Instr} (h : effect i s = .error ⟨.symbolRange, j⟩) : refused i := exec_of_error i s _ hf h
  refine ⟨fun hpass hbad => ?_, fun hok hpass hbad => ?_, fun hok hpass hbad => ?_⟩
  · have hscan := scan_source_of_first (test := rangeTest s.asize.toNat) hj
      (fun i hi => (rangeTest_eq_none_iff _ _ _).mpr (hpass i hi)) (rangeTest_of_le j hbad)
    exact ⟨fun hok => ⟨raises (mtfCommand_of_scan_error ranksOf hok hlen hscan),
        raises (mtfCommand_of_scan_error symbolsOf hok hlen hscan)⟩,
      fun hok hrow => raises (bwtDecode_of_scan_error hok hlen ⟨Nat.one_le_of_lt hj, hrow⟩ hscan)⟩
  · have hscan := scan_source_of_first (test := reservedTest s.dig1.toNat s.dig2.toNat) hj
      (fun i hi => (reservedTest_eq_none_iff _ _ _ _).mpr (not_or.mp (hpass i hi))) (reservedTest_of_digit j hbad)
    exact raises (zrlEncode_of_scan_error hok hlen hscan)
  · have hscan := scan_source_of_first (test := digitTest s.dig1.toNat s.dig2.toNat) hj
      (fun i hi => (digitTest_eq_none_iff _ _ _ _).mpr (hpass i hi)) (digitTest_of_not_digit j hbad)
    exact raises (bijDecode_of_scan_error hok hlen (Nat.ne_zero_of_lt hj) hscan)

end Sys2Proof.Machine
end

-- ==== Configuration: a command reads no register outside its row (spec/60_exceptions.md R257) ====
section

namespace Sys2Proof.Machine

open Sys2Proof

/-! ### Results that differ by a function of the state

Each rule says that a step of a result's form keeps `x' = x.map f`, for the results of a command in two states. -/

section

variable {f : State → State} {x x' : Except Raised State}

theorem map_check {p : Prop} [Decidable p] {r : Raised} (h : x' = x.map f) :
    (if p then .error r else x') = (if p then .error r else x : Except Raised State).map f := by
  split
  · rfl
  · exact h

theorem map_scan {o : Option Raised} (h : x' = x.map f) :
    (match o with | some r => .error r | none => x') =
      (match o with | some r => .error r | none => x : Except Raised State).map f := by
  cases o with
  | some r => rfl
  | none => exact h

theorem map_pass {pass : Except Raised (List Nat)} {g g' : List Nat → State} (h : ∀ a, g' a = f (g a)) :
    (match pass with | .error r => .error r | .ok a => .ok (g' a)) =
      (match pass with | .error r => .error r | .ok a => .ok (g a) : Except Raised State).map f := by
  cases pass with
  | error r => rfl
  | ok a => exact congrArg Except.ok (h a)

theorem map_walk {o : Option (List Nat)} {r : Raised} {g g' : List Nat → State} (h : ∀ a, g' a = f (g a)) :
    (match o with | none => .error r | some a => .ok (g' a)) =
      (match o with | none => .error r | some a => .ok (g a) : Except Raised State).map f := by
  cases o with
  | none => rfl
  | some a => exact congrArg Except.ok (h a)

theorem map_decode {pass : Except Raised (List Nat × Nat)} {g g' : List Nat → Nat → State}
    (h : ∀ out stop, g' out stop = f (g out stop)) :
    (match pass with | .error r => .error r | .ok (out, stop) => .ok (g' out stop)) =
      (match pass with | .error r => .error r | .ok (out, stop) => .ok (g out stop) : Except Raised State).map f := by
  cases pass with
  | error r => rfl
  | ok a => exact congrArg Except.ok (h a.1 a.2)

end

/-- Other values outside a command's row change its result by these values alone: each check, scan and pass reads the
same registers and memories in both states, which hold the same by computation once the buffer is known. The 512 counts
of `HUF.CNT` are made a variable, so that they are not computed. -/
theorem effect_withConfigOutside (i : Instr) (s : State) (a e d1 d2 : Word) :
    effect i (s.withConfigOutside i a e d1 d2) = (effect i s).map fun t => t.withConfigOutside i a e d1 d2 := by
  cases i with
  | bwtEnc b => cases b <;> exact map_check (map_check (map_check (map_scan rfl)))
  | bwtDec b =>
    cases b <;> exact map_check (map_check (map_check (map_scan (map_check (map_walk fun _ => by rfl)))))
  | mtfEnc b | mtfDec b => cases b <;> exact map_check (map_check (map_scan rfl))
  | zrlEnc b => cases b <;> exact map_check (map_check (map_scan rfl))
  | zrlDec b => cases b <;> exact map_check (map_check (map_pass fun _ => by rfl))
  | bijEnc b => cases b <;> exact map_check (map_check rfl)
  | bijDec b => cases b <;> exact map_check (map_check (map_check (map_scan (map_check rfl))))
  | pqClr => rfl
  | pqIns => exact map_check rfl
  | pqExt => exact map_check rfl
  | hufCnt b =>
    have hcounts : countsOf b (s.withConfigOutside (.hufCnt b) a e d1 d2) = countsOf b s := by cases b <;> rfl
    cases b <;>
    · refine map_check (map_check (map_scan ?_))
      rw [hcounts]
      generalize countsOf _ s = counts
      rfl
  | hufBld => exact map_check (map_check (map_check rfl))
  | hufTab => exact map_check rfl
  | hufEnc b => cases b <;> exact map_check (map_check (map_check (map_scan (map_check (map_check rfl)))))
  | hufDec b => cases b <;> exact map_check (map_check (map_decode fun _ _ => by rfl))

/-- Settles O60: an ignored command leaves the values as they are, and so do an effect and a fault record. -/
theorem configurationOutsideTheRowIsNotRead : Obligations.ConfigurationOutsideTheRowIsNotRead := by
  intro i s t a e d1 d2 h
  obtain ⟨hf, rfl⟩ | ⟨hf, he⟩ | ⟨hf, r, he, rfl⟩ := exec_cases i s t h
  · exact exec_ignored i _ hf
  · exact exec_of_ok i _ _ hf (by rw [effect_withConfigOutside, he]; rfl)
  · exact exec_of_error i _ r hf (by rw [effect_withConfigOutside, he]; rfl)

end Sys2Proof.Machine
end

-- ==== Reset: the soft reset and the way out of a fault (spec/70_reset_and_hazards.md R281) ====
section

namespace Sys2Proof.Machine

open Sys2Proof

theorem State.writeCtrl_of_set (s : State) {v : Word} (h : v.getLsbD 0 = true) : s.writeCtrl v = s.softReset := if_pos h

theorem State.writeCtrl_of_clear (s : State) {v : Word} (h : v.getLsbD 0 = false) : s.writeCtrl v = s :=
  if_neg (ne_true_of_eq_false h)

theorem transact_write_ctrl (v : Word) (s : State) : transact (.write 0x00001#32 v) s = .next (s.writeCtrl v) := by
  rw [transact, hostWrite, locate_ctrl]

/-- Settles O16: the soft reset by the data's bit 0; no other transaction touches the record of a fault, the flag
included. -/
theorem softResetRestoresReset : Obligations.SoftResetRestoresReset := by
  refine ⟨fun s v => ⟨fun hv => ?_, fun hv => ?_⟩, fun s t x hf h ht => ?_⟩
  · rw [transact_write_ctrl, s.writeCtrl_of_set hv, State.softReset]
  · rw [transact_write_ctrl, s.writeCtrl_of_clear hv]
  · obtain ⟨hkept, -⟩ | hreset := transact_keeps_record s t x hf h
    · exact absurd (ht.symm.trans hkept) Bool.false_ne_true
    · exact hreset

end Sys2Proof.Machine
end
